-- ==== Sys2Proof/Word.lean ====
section
/-! DEFINITION. The word types of the block. Every value that the spec treats as bits is a bit vector of the
width the spec gives it (00_scope R8 to R10); counts, indexes and the divider, whose width is open, are naturals. -/

namespace Sys2Proof

/-- The 14-bit control word (R69, R70). -/
abbrev CtrlWord := BitVec 14

/-- One data-bank slot, W = 16 bits (R8, the spec's decision D8). -/
abbrev Slot := BitVec 16

/-- The downstream frame, 16 bits (R73). -/
abbrev Frame := BitVec 16

/-- An 8-bit value: a data length, a slave-select mask, a frame payload. -/
abbrev Byte := BitVec 8

/-- The eight slots of the data bank, slot 0 first (R33, R44). -/
abbrev Bank := Vector Slot 8

end Sys2Proof
end

