-- ==== Sys2Proof/Syntax.lean ====
section
/-! DEFINITION. Registers, operands, packets and the instructions: one constructor of `Instr` per row of
opcode_table.json (30_encoding R66, R71, R73). -/

namespace Sys2Proof

/-- The register identifiers of the SPI peripheral (R46). -/
inductive Reg where
  | ctrl
  | divider
  | ss
  | data (k : Fin 8)
  | reset
  | busy
deriving DecidableEq, Repr, Inhabited

/-- One write of a register with a value of that register's width (R46, R53). -/
inductive RegWrite where
  | ctrl (v : CtrlWord)
  | divider (v : Nat)
  | ss (m : Byte)
  | data (k : Fin 8) (v : Slot)
  | reset (b : Bool)
deriving DecidableEq, Repr

/-- A host operand: an integer, a Boolean or a list of integers (R65, R10). -/
inductive Operand where
  | int (n : Int)
  | bool (b : Bool)
  | ints (vs : List Int)
deriving DecidableEq, Repr

/-- What is delivered to the machine, one of the three formats of opcode_table.json: a command record (R65),
a frame to send (R73; log 2), or a CTRL value written at the peripheral (R71; log 3). -/
inductive Packet where
  | command (op : BitVec 8) (operands : List Operand)
  | frame (w : Frame)
  | ctrl (v : CtrlWord)
deriving DecidableEq, Repr

/-- The instructions: 16 host operations (R66), five kinds of frame (R73, R57, R76) and the two kinds of CTRL
write (R71). Operands of the host operations are unrestricted integers and Booleans (R10, R67, R68). -/
inductive Instr where
  | setDataLen (n : Int)
  | setRxNeg (b : Bool)
  | setTxNeg (b : Bool)
  | setLsbFirst (b : Bool)
  | setIe (b : Bool)
  | setAss (b : Bool)
  | setDiv (v : Int)
  | setSs (m : Int)
  | wrBank (vs : List Int)
  | reset
  | isBusy
  | start
  | waitIdle
  | encodeFrame (d a p : Int)
  | transmit (word : Int)
  | cfgPixel (addr h lo we pe m : Int)
  | frameW (a : BitVec 7) (p : Byte)
  | frameR (a : BitVec 7) (p : Byte)
  | pixAddr (p : Byte)
  | pixDacLo (p : Byte)
  | pixCtrl (w e : Bool) (m : BitVec 2) (h : BitVec 4)
  | ctrlCfg (ass ie lsb txNeg rxNeg : Bool) (dataLen : Byte)
  | ctrlGo (ass ie lsb txNeg rxNeg : Bool) (dataLen : Byte)
deriving DecidableEq, Repr

end Sys2Proof
end

