-- ==== Sys2Proof/Config.lean ====
section
/-! DEFINITION. What is fixed for one block (00_scope R8) and the free values the spec leaves open (93). An
`opaque` constant has no body that a proof can see: whatever is proved holds for every value of it. -/

namespace Sys2Proof.Config

/-- Bits of DIV_WIDTH above the three that the reset divider 4 needs (R22, R31; log 11). -/
opaque divWidthAbove : Nat

/-- DIV_WIDTH, an open parameter (R8, D9). DEDUCED (log 11): at least 3, since R22 gives the reset value 4. -/
def divWidth : Nat := 3 + divWidthAbove

/-- Bits of CTRL_REG_WIDTH above the 14 field bits (R8, D7). -/
opaque ctrlWidthAbove : Nat

/-- CTRL_REG_WIDTH, an open parameter of at least 14 (R8, R69). -/
def ctrlRegWidth : Nat := 14 + ctrlWidthAbove

/-- Bits of BUSY_REG_WIDTH above one (log 11). -/
opaque busyWidthAbove : Nat

/-- BUSY_REG_WIDTH, an open parameter (R8, D15). DEDUCED (log 11): at least 1, since BUSY reads 1 (R153). -/
def busyRegWidth : Nat := 1 + busyWidthAbove

/-- BASE, the fixed literal of R8 and R45. -/
def base : String := "spi_dev."

/-- The register names the source does not give (R46, R56, D7): open. -/
opaque otherRegName : Reg → String

/-- REG_NAME (R8): only CTRL's name is fixed. -/
def regName : Reg → String
  | .ctrl => "ctrl"
  | r => otherRegName r

/-- A register's address on the Register Link, `base + name` (R45). -/
def regAddress (r : Reg) : String := base ++ regName r

/-- AUTO_SS_LINES (R8, R152, D23): the lines asserted under automatic slave select, for a value of SS. -/
opaque autoSsLines : Byte → Byte

/-- REGISTER_MAP as the connected device has it (R8, R50, D14), by register identifier (log 10). -/
opaque registerMap : List Reg

/-- `hw.ctrl` at launch, a draw (R35, S3; log 8). -/
opaque launchCtrl : CtrlWord

/-- The draw from which `hw.div` at launch is taken (R35, S3; log 8). -/
opaque launchDivDraw : Nat

/-- `hw.div` at launch: any value of DIV_WIDTH bits (R35; log 8). -/
def launchDiv : Nat := launchDivDraw % 2 ^ divWidth

/-- `hw.ss` at launch, a draw (R35, S3; log 8). -/
opaque launchSs : Byte

/-- `hw.data[k]` at launch, one draw per register (R35, S3; log 8). -/
opaque launchData : Fin 8 → Slot

/-- How many Register Link calls succeed before the first failing one of a run; none: no call of the run fails
but to an absent register (R50, U8; log 5). -/
opaque firstLinkRun : Option Nat

/-- How many further calls succeed after a failed one; none: no later call fails but to an absent register (R50,
U8; log 5). -/
opaque linkRun : Nat → Option Nat

/-- Whether a write that ended in TransportError reached the peripheral (R50, S8; log 6). -/
opaque writeReached : Nat → Bool

/-- How many of the three writes of a failed pulse reached the peripheral, 0 to 3 (R48, S7; log 6). -/
opaque pulseReached : Nat → Fin 4

/-- Whether an overlapped register keeps its old value (R145, U6; log 7). -/
opaque collisionKeepsOld : Nat → Bool

/-- After how many scheduling points a transfer completes: finite and unbounded (R155, S10; log 4). -/
opaque transferTicks : Nat → Nat

/-- The value a read of DATAk returns (R154, S5; log 17). -/
opaque readData : Nat → Slot

/-- The value a read of RESET returns (R154, S5; log 17). -/
opaque readReset : Nat → BitVec 1

end Sys2Proof.Config
end

