-- ==== Sys2Proof/WellFormed.lean ====
section
/-! DEFINITION. Which terms of `Instr` stand for a word of the opcode table. -/

namespace Sys2Proof

/-- The three downstream addresses that have rows of their own in the table (R57). -/
def namedPixelAddress (a : BitVec 7) : Bool := a == 0x20 || a == 0x21 || a == 0x22

/-- A write frame to 0x20, 0x21 or 0x22 is a row PIX_ADDR, PIX_DACLO or PIX_CTRL, so FRAME_W stands for the
other addresses only. No other field is checked: command operands are checked by their operation (R67), and
every frame and every CTRL value is legal (R71, R73). -/
def Instr.wellFormed : Instr → Bool
  | .frameW a _ => !namedPixelAddress a
  | .setDataLen _ | .setRxNeg _ | .setTxNeg _ | .setLsbFirst _ | .setIe _ | .setAss _ => true
  | .setDiv _ | .setSs _ | .wrBank _ | .reset | .isBusy | .start | .waitIdle => true
  | .encodeFrame _ _ _ | .transmit _ | .cfgPixel _ _ _ _ _ _ => true
  | .frameR _ _ | .pixAddr _ | .pixDacLo _ | .pixCtrl _ _ _ _ => true
  | .ctrlCfg _ _ _ _ _ _ | .ctrlGo _ _ _ _ _ _ => true

/-- A well-formed instruction. -/
abbrev Instr.WellFormed (i : Instr) : Prop := i.wellFormed = true

end Sys2Proof
end

