-- ==== Sys2Proof/Decode.lean ====
section
/-! DEFINITION. The decoder and the encoder of 30_encoding, with the packing formulas they share with the
machine (R70, R73, R76), and the table's rows as masks and values. -/

namespace Sys2Proof

/-- One Boolean at bit `k` of a word of `n` bits, `b2n(b) << k` (R10). -/
def bitAt (n k : Nat) (b : Bool) : BitVec n := (BitVec.ofBool b).setWidth n <<< k

/-- The control word of its seven fields (R70, R100). -/
def pack (ass ie lsb txNeg rxNeg goBusy : Bool) (dataLen : Byte) : CtrlWord :=
  bitAt 14 13 ass ||| bitAt 14 12 ie ||| bitAt 14 11 lsb ||| bitAt 14 10 txNeg ||| bitAt 14 9 rxNeg |||
    bitAt 14 8 goBusy ||| dataLen.setWidth 14

/-- The frame of direction, address and payload (R73, R75). -/
def frame (d : Bool) (a : BitVec 7) (p : Byte) : Frame :=
  bitAt 16 15 d ||| (a.setWidth 16 <<< 8) ||| p.setWidth 16

/-- The pixel-control payload of in-range fields (R76). -/
def pixelByte (w e : Bool) (m : BitVec 2) (h : BitVec 4) : Byte :=
  bitAt 8 7 w ||| bitAt 8 6 e ||| (m.setWidth 8 <<< 4) ||| h.setWidth 8

/-- Why a packet decodes to nothing: the refusal IllegalCommand of R67 and R205. -/
inductive DecodeError where
  | illegalCommand (op : BitVec 8) (operands : List Operand)
deriving DecidableEq, Repr

/-- Command codes and operand shapes (R66, R67). -/
def decodeCommand (op : BitVec 8) (operands : List Operand) : Except DecodeError Instr :=
  match op.toNat, operands with
  | 0x01, [.int n] => .ok (.setDataLen n)
  | 0x02, [.bool b] => .ok (.setRxNeg b)
  | 0x03, [.bool b] => .ok (.setTxNeg b)
  | 0x04, [.bool b] => .ok (.setLsbFirst b)
  | 0x05, [.bool b] => .ok (.setIe b)
  | 0x06, [.bool b] => .ok (.setAss b)
  | 0x07, [.int v] => .ok (.setDiv v)
  | 0x08, [.int m] => .ok (.setSs m)
  | 0x09, [.ints vs] => .ok (.wrBank vs)
  | 0x0A, [] => .ok .reset
  | 0x0B, [] => .ok .isBusy
  | 0x0C, [] => .ok .start
  | 0x0D, [] => .ok .waitIdle
  | 0x0E, [.int d, .int a, .int p] => .ok (.encodeFrame d a p)
  | 0x0F, [.int word] => .ok (.transmit word)
  | 0x10, [.int addr, .int h, .int lo, .int we, .int pe, .int m] => .ok (.cfgPixel addr h lo we pe m)
  | _, _ => .error (.illegalCommand op operands)

/-- A frame's row: by direction (R73, R74), and for a write to one of the three named addresses the row of
that address (R57). -/
def decodeFrame (w : Frame) : Instr :=
  let a := w.extractLsb' 8 7
  let p := w.extractLsb' 0 8
  if w.getLsbD 15 then .frameR a p
  else if a = 0x20 then .pixAddr p
  else if a = 0x21 then .pixDacLo p
  else if a = 0x22 then .pixCtrl (w.getLsbD 7) (w.getLsbD 6) (w.extractLsb' 4 2) (w.extractLsb' 0 4)
  else .frameW a p

/-- A CTRL value's row, by bit 8 (R71), with the fields of R69. -/
def decodeCtrl (v : CtrlWord) : Instr :=
  if v.getLsbD 8 then
    .ctrlGo (v.getLsbD 13) (v.getLsbD 12) (v.getLsbD 11) (v.getLsbD 10) (v.getLsbD 9) (v.extractLsb' 0 8)
  else
    .ctrlCfg (v.getLsbD 13) (v.getLsbD 12) (v.getLsbD 11) (v.getLsbD 10) (v.getLsbD 9) (v.extractLsb' 0 8)

/-- The instruction a packet stands for. -/
def decode : Packet → Except DecodeError Instr
  | .command op operands => decodeCommand op operands
  | .frame w => .ok (decodeFrame w)
  | .ctrl v => .ok (decodeCtrl v)

/-- The packet of an instruction, from the tables of R66, R70, R73 and R76. -/
def encode : Instr → Packet
  | .setDataLen n => .command 0x01 [.int n]
  | .setRxNeg b => .command 0x02 [.bool b]
  | .setTxNeg b => .command 0x03 [.bool b]
  | .setLsbFirst b => .command 0x04 [.bool b]
  | .setIe b => .command 0x05 [.bool b]
  | .setAss b => .command 0x06 [.bool b]
  | .setDiv v => .command 0x07 [.int v]
  | .setSs m => .command 0x08 [.int m]
  | .wrBank vs => .command 0x09 [.ints vs]
  | .reset => .command 0x0A []
  | .isBusy => .command 0x0B []
  | .start => .command 0x0C []
  | .waitIdle => .command 0x0D []
  | .encodeFrame d a p => .command 0x0E [.int d, .int a, .int p]
  | .transmit word => .command 0x0F [.int word]
  | .cfgPixel addr h lo we pe m => .command 0x10 [.int addr, .int h, .int lo, .int we, .int pe, .int m]
  | .frameW a p => .frame (frame false a p)
  | .frameR a p => .frame (frame true a p)
  | .pixAddr p => .frame (frame false 0x20 p)
  | .pixDacLo p => .frame (frame false 0x21 p)
  | .pixCtrl w e m h => .frame (frame false 0x22 (pixelByte w e m h))
  | .ctrlCfg ass ie lsb txNeg rxNeg dataLen => .ctrl (pack ass ie lsb txNeg rxNeg false dataLen)
  | .ctrlGo ass ie lsb txNeg rxNeg dataLen => .ctrl (pack ass ie lsb txNeg rxNeg true dataLen)

/-- The three formats of opcode_table.json. -/
inductive Format where
  | cmd
  | frame16
  | ctrl14
deriving DecidableEq, Repr

/-- A row of opcode_table.json: its format, mask and match value. -/
structure Row where
  format : Format
  mask : Nat
  value : Nat
deriving DecidableEq, Repr

/-- The format of a packet. -/
def Packet.format : Packet → Format
  | .command _ _ => .cmd
  | .frame _ => .frame16
  | .ctrl _ => .ctrl14

/-- The bits the table numbers: the op code of a command, the frame, the CTRL value. -/
def Packet.bits : Packet → Nat
  | .command op _ => op.toNat
  | .frame w => w.toNat
  | .ctrl v => v.toNat

/-- A packet matches a row of its own format when its masked bits are the row's value. -/
def Row.fits (r : Row) (p : Packet) : Bool :=
  decide (p.format = r.format) && decide (p.bits &&& r.mask = r.value)

/-- The table's row of an instruction, with the match and mask of opcode_table.json. -/
def tableRow : Instr → Row
  | .setDataLen _ => ⟨.cmd, 0xFF, 0x01⟩
  | .setRxNeg _ => ⟨.cmd, 0xFF, 0x02⟩
  | .setTxNeg _ => ⟨.cmd, 0xFF, 0x03⟩
  | .setLsbFirst _ => ⟨.cmd, 0xFF, 0x04⟩
  | .setIe _ => ⟨.cmd, 0xFF, 0x05⟩
  | .setAss _ => ⟨.cmd, 0xFF, 0x06⟩
  | .setDiv _ => ⟨.cmd, 0xFF, 0x07⟩
  | .setSs _ => ⟨.cmd, 0xFF, 0x08⟩
  | .wrBank _ => ⟨.cmd, 0xFF, 0x09⟩
  | .reset => ⟨.cmd, 0xFF, 0x0A⟩
  | .isBusy => ⟨.cmd, 0xFF, 0x0B⟩
  | .start => ⟨.cmd, 0xFF, 0x0C⟩
  | .waitIdle => ⟨.cmd, 0xFF, 0x0D⟩
  | .encodeFrame _ _ _ => ⟨.cmd, 0xFF, 0x0E⟩
  | .transmit _ => ⟨.cmd, 0xFF, 0x0F⟩
  | .cfgPixel _ _ _ _ _ _ => ⟨.cmd, 0xFF, 0x10⟩
  | .frameW _ _ => ⟨.frame16, 0x8000, 0x0000⟩
  | .frameR _ _ => ⟨.frame16, 0x8000, 0x8000⟩
  | .pixAddr _ => ⟨.frame16, 0xFF00, 0x2000⟩
  | .pixDacLo _ => ⟨.frame16, 0xFF00, 0x2100⟩
  | .pixCtrl _ _ _ _ => ⟨.frame16, 0xFF00, 0x2200⟩
  | .ctrlCfg _ _ _ _ _ _ => ⟨.ctrl14, 0x0100, 0x0000⟩
  | .ctrlGo _ _ _ _ _ _ => ⟨.ctrl14, 0x0100, 0x0100⟩

/-- The operands of a command read from the table, where they have no bits: all zero, in the shape R66 gives
the code (log 18). -/
def zeroOperands (op : Nat) : List Operand :=
  match op with
  | 0x01 | 0x07 | 0x08 | 0x0F => [.int 0]
  | 0x02 | 0x03 | 0x04 | 0x05 | 0x06 => [.bool false]
  | 0x09 => [.ints [0, 0, 0, 0, 0, 0, 0, 0]]
  | 0x0E => [.int 0, .int 0, .int 0]
  | 0x10 => [.int 0, .int 0, .int 0, .int 0, .int 0, .int 0]
  | _ => []

/-- A word of opcode_table.json as a packet: up to 8 bits a command, up to 14 bits a CTRL value, else a frame
(log 18). -/
def packetOfTable (nbits w : Nat) : Packet :=
  if nbits ≤ 8 then .command (BitVec.ofNat 8 w) (zeroOperands (w % 256))
  else if nbits ≤ 14 then .ctrl (BitVec.ofNat 14 w)
  else .frame (BitVec.ofNat 16 w)

/-- The instruction the decoder reads from a word of opcode_table.json. -/
def decodeTableWord (nbits w : Nat) : Option Instr :=
  match decode (packetOfTable nbits w) with
  | .ok i => some i
  | .error _ => none

end Sys2Proof
end

