-- ==== Sys2Proof/Machine/State.lean ====
section
/-! DEFINITION. The state of the block as plain data (10_state), the errors and refusals (60_exceptions), and
the state after controller initialization (R22, R35, R42, R230). -/

namespace Sys2Proof.Machine

/-- The shadow state, the record of R22. `s.ctrlWord` is "not independent state" (R30): it is the function
`Shadow.ctrlWord` of these fields. -/
structure Shadow where
  dataLen : Byte
  goBusy : Bool
  rxNeg : Bool
  txNeg : Bool
  lsbFirst : Bool
  ie : Bool
  ass : Bool
  clkDiv : Nat
  ssMask : Byte
  bank : Bank
deriving DecidableEq, Repr

/-- What a transfer uses, fixed when it starts (R36, R144). -/
structure Snap where
  data : Bank
  dataLen : Byte
  rxNeg : Bool
  txNeg : Bool
  lsbFirst : Bool
  ass : Bool
  div : Nat
  ss : Byte
  corrupt : Bool
deriving DecidableEq, Repr

/-- The transfer engine (R36). -/
inductive Engine where
  | idle
  | busy (snap : Snap)
deriving DecidableEq, Repr

/-- The registers and hidden state of the SPI peripheral (R34, R36, R37). RESET stores nothing and BUSY is a
view of the engine. -/
structure Hw where
  ctrl : CtrlWord
  div : Nat
  ss : Byte
  data : Bank
  engine : Engine
  overlap : Bool
deriving DecidableEq, Repr

/-- The bits a transfer drove on the output line in time order, or the spec's marker Unspecified (R38). -/
inductive Mosi where
  | bits (line : List Bool)
  | unspecified
deriving DecidableEq, Repr

/-- The record of one transfer (R38). -/
structure WireRecord where
  mosi : Mosi
  dataLen : Byte
  rxNeg : Bool
  txNeg : Bool
  lsbFirst : Bool
  ass : Bool
  ssLines : Byte
  div : Nat
  aborted : Bool
deriving DecidableEq, Repr

/-- A Register Link event of the bus trace (R39): `W(r, v)`, `R(r, v)` and `X(r)`. -/
inductive BusEvent where
  | write (r : Reg) (v : Nat)
  | read (r : Reg) (v : Nat)
  | failed (r : Reg)
deriving DecidableEq, Repr

/-- The check that a RangeError reports (R201). -/
inductive RangeCheck where
  | dataLength
  | divider
  | slaveSelect
  | bankLength
  | slotWidth
deriving DecidableEq, Repr

/-- The errors of the block (R201): results of an operation, after which the host goes on (R209). -/
inductive OpError where
  /-- RangeError, with the check and the offending value, length or slot index (R201, R202). -/
  | range (check : RangeCheck) (info : Int)
  /-- TypeError: nothing raises it, since Boolean operands are typed (R68, R203). -/
  | typeError
  /-- TransportError, with the register of the failing call (R201, R204). -/
  | transport (r : Reg)
deriving DecidableEq, Repr

/-- What a successful operation returns (R40). -/
inductive Value where
  | unit
  | bool (b : Bool)
  | word (w : Frame)
deriving DecidableEq, Repr

/-- A host result, `Ok(result)` or `Err(E)` (R40). The third outcome of R40, the refusal mark, is the outcome
`refused` of a step. -/
inductive OpResult where
  | ok (v : Value)
  | err (e : OpError)
deriving DecidableEq, Repr

/-- The machine. The first eight fields are the spec's (R22, R34 to R40, R21, R46); `inbox`, `linkOk`,
`ticksLeft` and `drawn` are the model's own (logs 1, 4, 5, 28). -/
structure State where
  /-- The shadow state `s` (R22). -/
  shadow : Shadow
  /-- The peripheral `hw` (R34). -/
  hw : Hw
  /-- The wire records, oldest first (R38). -/
  wire : List WireRecord
  /-- The bus trace, oldest first (R39). -/
  trace : List BusEvent
  /-- The host results, oldest first (R40). -/
  results : List OpResult
  /-- The index of the current operation in the host's list (R21); that the first one has index 0 is log 29. -/
  opIndex : Nat
  /-- REGISTER_MAP: the registers whose names exist in the connected device (R8, R50; log 10). -/
  registerMap : List Reg
  /-- What the host has not yet had answered, the current packet first (log 1). -/
  inbox : List Packet
  /-- How many calls the Register Link still carries before the next failing one; none: it goes on carrying every
  call for ever. The draws of R7 and R50 are held in this form by the model's choice (log 5). -/
  linkOk : Option Nat
  /-- How many scheduling points pass before the transfer in flight completes (log 4). -/
  ticksLeft : Nat
  /-- How many free values have been drawn: the argument of the next one (logs 4 to 7, 17). -/
  drawn : Nat
deriving DecidableEq, Repr

/-- The block has no fault: an error is the result of its operation (R200, R206, log 14), so nothing raises
one. -/
inductive Fault where
deriving DecidableEq, Repr

/-- Where the model gives no meaning (R205). Each is the spec's own refusal but the first. Safe: a run stops. -/
inductive Refusal where
  /-- An arm of `exec` without a meaning. Raised by no arm of this model. Safe. -/
  | notModelled (mnemonic : String)
  /-- IllegalCommand (R67, R205): raised by the step when a packet does not decode. Safe. -/
  | illegalCommand (op : BitVec 8) (operands : List Operand)
  /-- OperandRange of ENCODE operands (R170), by ENCODE or by CFGPIXEL through it, with the bus trace at that
  point (R190; log 15). Safe. -/
  | operandRange (d a p : Int) (trace : List BusEvent)
  /-- OperandRange of CFGPIXEL for a negative operand, on which `&`, `<<` and `|` have no value (R10, R190;
  log 15), with the bus trace at that point. Safe. -/
  | negativePixelOperand (operands : List Int) (trace : List BusEvent)
deriving DecidableEq, Repr

/-- A sequence of Register Link calls so far: completed with a value, or ended by an error (R204, R206). -/
inductive Call (α : Type) where
  | done (v : α) (s : State)
  | failed (e : OpError) (s : State)

/-- The shadow after controller initialization (R22, R230). -/
def Shadow.reset : Shadow where
  dataLen := 16
  goBusy := false
  rxNeg := false
  txNeg := false
  lsbFirst := false
  ie := false
  ass := true
  clkDiv := 4
  ssMask := 0
  bank := #v[0, 0, 0, 0, 0, 0, 0, 0]

/-- The peripheral at launch: registers are draws (R35, log 8), the engine is Idle and the overlap flag false,
the premise PeriphIdleAtLaunch (R35, log 9). -/
def Hw.launch : Hw where
  ctrl := Config.launchCtrl
  div := Config.launchDiv
  ss := Config.launchSs
  data := #v[Config.launchData 0, Config.launchData 1, Config.launchData 2, Config.launchData 3,
    Config.launchData 4, Config.launchData 5, Config.launchData 6, Config.launchData 7]
  engine := .idle
  overlap := false

/-- The machine right after controller initialization (R42, R230). The host has issued nothing. The spec gives
`opIndex` no first value: 0 is the model's choice (log 29). So are the values of its own fields (logs 1, 4, 5,
28). -/
def State.reset : State where
  shadow := Shadow.reset
  hw := Hw.launch
  wire := []
  trace := []
  results := []
  opIndex := 0
  registerMap := Config.registerMap
  inbox := []
  linkOk := Config.firstLinkRun
  ticksLeft := 0
  drawn := 0

end Sys2Proof.Machine
end

