-- ==== Sys2Proof/Machine/Operands.lean ====
section
/-! DEFINITION. Every operand form: the range checks of the host operations (R202, in the order of R207), the
frames of ENCODE (R170) and the three frames of CFGPIXEL (R190, R191). -/

namespace Sys2Proof.Machine

/-- An integer that lies in `lo..hi`. -/
abbrev InRange (lo hi n : Int) : Prop := lo ≤ n ∧ n ≤ hi

/-- The operand of SETDATALEN, 0 to 255 (R101). -/
def operandDataLen (n : Int) : Except OpError Byte :=
  if InRange 0 255 n then .ok (BitVec.ofInt 8 n) else .error (.range .dataLength n)

/-- The operand of SETDIV, of DIV_WIDTH bits (R120). -/
def operandDivider (v : Int) : Except OpError Nat :=
  if InRange 0 (2 ^ Config.divWidth - 1) v then .ok v.toNat else .error (.range .divider v)

/-- The operand of SETSS, 0 to 255 (R121). -/
def operandSlaveSelect (m : Int) : Except OpError Byte :=
  if InRange 0 255 m then .ok (BitVec.ofInt 8 m) else .error (.range .slaveSelect m)

/-- A value that fits a slot of W = 16 bits (R122, R171). -/
abbrev FitsSlot (v : Int) : Prop := InRange 0 0xFFFF v

/-- The operand of TRANSMIT, reported as slot 0 when it does not fit (R171). -/
def operandWord (v : Int) : Except OpError Slot :=
  if FitsSlot v then .ok (BitVec.ofInt 16 v) else .error (.range .slotWidth 0)

/-- The first value, counting slots from `k`, that does not fit a slot (R122, R207). -/
def firstBadSlot (k : Nat) : List Int → Option Nat
  | [] => none
  | v :: vs => if FitsSlot v then firstBadSlot (k + 1) vs else some k

/-- Eight integers as a bank. -/
def bankOf (vs : List Int) (h : vs.length = 8) : Bank :=
  ⟨(vs.map (BitVec.ofInt 16)).toArray, by simpa using h⟩

/-- The operand of WRBANK: the length first, then each slot from 0 up (R122, R207). -/
def operandBank (vs : List Int) : Except OpError Bank :=
  if h : vs.length = 8 then
    match firstBadSlot 0 vs with
    | none => .ok (bankOf vs h)
    | some k => .error (.range .slotWidth k)
  else .error (.range .bankLength vs.length)

/-- ENCODE's operands are in range: a direction of 0 or 1, a 7-bit address and an 8-bit payload (R170). -/
abbrev EncodeInRange (d a p : Int) : Prop := InRange 0 1 d ∧ InRange 0 0x7F a ∧ InRange 0 0xFF p

/-- ENCODE's frame, none when an operand is out of range (R170). -/
def encodeOperands (d a p : Int) : Option Frame :=
  if EncodeInRange d a p then some (frame (decide (d = 1)) (BitVec.ofInt 7 a) (BitVec.ofInt 8 p)) else none

/-- The payload of the third frame of CFGPIXEL, unmasked (R191). None on a negative operand, for which `<<`
and `|` have no value (R10; log 15). -/
def pixelPayload (h we pe m : Int) : Option Nat :=
  if 0 ≤ h ∧ 0 ≤ we ∧ 0 ≤ pe ∧ 0 ≤ m then
    some ((we.toNat <<< 7) ||| (pe.toNat <<< 6) ||| (m.toNat <<< 4) ||| h.toNat)
  else none

/-- `addr & 0xFF` of a non-negative address (R190). -/
def pixelAddressByte (addr : Int) : Byte := BitVec.ofNat 8 (addr.toNat &&& 0xFF)

/-- A refusal that still lacks the bus trace of its moment. -/
abbrev RefusalAt := List BusEvent → Refusal

/-- What CFGPIXEL sends (R190): the frames it encodes, in order, and the refusal that ends it after them, if
one does. -/
def pixelFrames (addr h lo we pe m : Int) : List Frame × Option RefusalAt :=
  if addr < 0 then ([], some (.negativePixelOperand [addr]))
  else
    let first := frame false 0x20 (pixelAddressByte addr)
    match encodeOperands 0 0x21 lo with
    | none => ([first], some (.operandRange 0 0x21 lo))
    | some second =>
      match pixelPayload h we pe m with
      | none => ([first, second], some (.negativePixelOperand [h, we, pe, m]))
      | some p3 =>
        match encodeOperands 0 0x22 p3 with
        | none => ([first, second], some (.operandRange 0 0x22 p3))
        | some third => ([first, second, third], none)

end Sys2Proof.Machine
end

