-- ==== Sys2Proof/Machine/Flags.lean ====
section
/-! DEFINITION. The control word and the status bits (R41): the packed word of the shadow (R30, R100), the
engine's busy state as BUSY and CTRL show it (R153, R154), and the strict busy test (R124). -/

namespace Sys2Proof.Machine

/-- `s.ctrlWord`, always the packing of the seven fields (R30, R100). -/
def Shadow.ctrlWord (s : Shadow) : CtrlWord :=
  pack s.ass s.ie s.lsbFirst s.txNeg s.rxNeg s.goBusy s.dataLen

/-- The engine's busy state (R36). -/
def Hw.isBusy (hw : Hw) : Bool :=
  match hw.engine with
  | .idle => false
  | .busy _ => true

/-- What BUSY reads: 1 when Busy, 0 when Idle (R153). -/
def Hw.busyValue (hw : Hw) : Nat :=
  if hw.isBusy then 1 else 0

/-- What CTRL reads: `hw.ctrl` with bit 8 replaced by the busy state (R154). -/
def Hw.ctrlValue (hw : Hw) : CtrlWord :=
  (hw.ctrl &&& ~~~(bitAt 14 8 true)) ||| bitAt 14 8 hw.isBusy

/-- The strict test of ISBUSY and WAITIDLE: only the value 1 is busy (R124, R141, R240). -/
def busyTest (v : Nat) : Bool := v == 1

/-- The codes of the errors (R201). -/
def OpError.code : OpError → Nat
  | .range _ _ => 1
  | .typeError => 2
  | .transport _ => 3

end Sys2Proof.Machine
end

