-- ==== Sys2Proof/Machine/Serial.lean ====
section
/-! DEFINITION. The serialiser (R150), the slave-select lines (R152) and the record of a transfer (R38, R148,
R149). -/

namespace Sys2Proof.Machine

/-- Bit `i` of the transfer string D: bit `i mod 16` of slot `i div 16` (R150). -/
def Snap.dataBit (snap : Snap) (i : Nat) : Bool :=
  (snap.data.toList.getD (i / 16) 0).getLsbD (i % 16)

/-- The bits of a transfer in time order (R150): MSB first from bit N-1, or LSB first from bit 0. Unspecified
for N = 0 and for N above the 128 bits of the bank. -/
def serialise (snap : Snap) : Mosi :=
  let n := snap.dataLen.toNat
  if n = 0 ∨ 8 * 16 < n then .unspecified
  else if snap.lsbFirst then .bits ((List.range n).map snap.dataBit)
  else .bits ((List.range n).reverse.map snap.dataBit)

/-- The slave lines asserted during a transfer (R152): AUTO_SS_LINES under automatic slave select, else the
mask taken at its start. -/
def Snap.ssLines (snap : Snap) : Byte :=
  if snap.ass then Config.autoSsLines snap.ss else snap.ss

/-- The slave lines now (R152): software-managed they follow `hw.ss` as levels at all times. Automatic, they
are those of the transfer in flight; DEDUCED (log 16): none while Idle. -/
def Hw.slaveLines (hw : Hw) : Byte :=
  match hw.engine with
  | .busy snap => if snap.ass then snap.ssLines else hw.ss
  | .idle => if hw.ctrl.getLsbD 13 then 0 else hw.ss

/-- The wire record of a transfer, with its bits (R148, R149). -/
def Snap.record (snap : Snap) (mosi : Mosi) (aborted : Bool) : WireRecord where
  mosi := mosi
  dataLen := snap.dataLen
  rxNeg := snap.rxNeg
  txNeg := snap.txNeg
  lsbFirst := snap.lsbFirst
  ass := snap.ass
  ssLines := snap.ssLines
  div := snap.div
  aborted := aborted

/-- The record of a completed transfer: Unspecified bits if it was overlapped (R149). -/
def Snap.completedRecord (snap : Snap) : WireRecord :=
  snap.record (if snap.corrupt then .unspecified else serialise snap) false

/-- The record of a transfer that a reset aborted (R148). -/
def Snap.abortedRecord (snap : Snap) : WireRecord :=
  snap.record .unspecified true

end Sys2Proof.Machine
end

