-- ==== Sys2Proof/Machine/Ops.lean ====
section
/-! DEFINITION. The named operations on the machine: the plain updates, the peripheral's reaction to a write
(R142 to R148) and its completion step (R149, R155), its reads (R153, R154), the Register Link's calls (R47 to
R50), and how an operation ends: by returning (R40) or by raising an error (R206). -/

namespace Sys2Proof

/-- The register a write goes to. -/
def RegWrite.reg : RegWrite → Reg
  | .ctrl _ => .ctrl
  | .divider _ => .divider
  | .ss _ => .ss
  | .data k _ => .data k
  | .reset _ => .reset

/-- The integer a write carries (R51); CTRL bits above 13 are 0 (R69). -/
def RegWrite.value : RegWrite → Nat
  | .ctrl v => v.toNat
  | .divider v => v
  | .ss m => m.toNat
  | .data _ v => v.toNat
  | .reset b => b.toNat

/-- The trace event of a completed write (R47). -/
def RegWrite.event (w : RegWrite) : Machine.BusEvent := .write w.reg w.value

end Sys2Proof

namespace Sys2Proof.Machine

/-! ### Plain updates -/

/-- Replace the shadow state. -/
def State.setShadow (x : Shadow) (s : State) : State := { s with shadow := x }

/-- Replace the peripheral. -/
def State.setHw (x : Hw) (s : State) : State := { s with hw := x }

/-- Append a wire record (R38). -/
def State.addRecord (x : WireRecord) (s : State) : State := { s with wire := s.wire ++ [x] }

/-- Append bus events (R39). -/
def State.emit (xs : List BusEvent) (s : State) : State := { s with trace := s.trace ++ xs }

/-- Append a host result: the operation index advances by one and the next packet becomes current (R21, R40). -/
def State.answer (x : OpResult) (s : State) : State :=
  { s with results := s.results ++ [x], opIndex := s.opIndex + 1, inbox := s.inbox.tail }

/-- A packet that is no host operation has been delivered: no result, no operation index (log 3). -/
def State.delivered (s : State) : State := { s with inbox := s.inbox.tail }

/-- Set the calls left before the next failing one (log 5). -/
def State.setLinkOk (n : Option Nat) (s : State) : State := { s with linkOk := n }

/-- Set the scheduling points left before completion (log 4). -/
def State.setTicks (n : Nat) (s : State) : State := { s with ticksLeft := n }

/-- A free value has been drawn. -/
def State.draw (s : State) : State := { s with drawn := s.drawn + 1 }

/-! ### How an operation ends -/

/-- Return a value to the host (R40). -/
def returnOk (v : Value) (s : State) : State := s.answer (.ok v)

/-- Raise an error (R206): the operation stops here and the error is its result. What it did stays done; no
state is saved, no mode changes and no handler runs. There is no return from it to model (R209). -/
def raise (e : OpError) (s : State) : State := s.answer (.err e)

/-- Run the rest of an operation on a checked operand, or raise the check's error before any effect (R207). -/
def checked {α : Type} (x : Except OpError α) (s : State) (rest : α → State) : State :=
  match x with
  | .ok v => rest v
  | .error e => raise e s

/-- Go on after a completed call; a failed one ends the operation (R204). -/
def Call.andThen {α β : Type} (c : Call α) (f : α → State → Call β) : Call β :=
  match c with
  | .done v s => f v s
  | .failed e s => .failed e s

/-- The end of an operation whose calls are over (R40, R206). -/
def Call.toHost {α : Type} (f : α → Value) (c : Call α) : State :=
  match c with
  | .done v s => returnOk (f v) s
  | .failed e s => raise e s

/-! ### The peripheral: completion -/

/-- The peripheral's step `complete`, enabled exactly when the engine is Busy (R149). -/
def State.complete (s : State) : State :=
  match s.hw.engine with
  | .idle => s
  | .busy snap => (s.addRecord snap.completedRecord).setHw { s.hw with engine := .idle }

/-- One scheduling point of the peripheral: a transfer in flight completes when its free finite number of
points has passed (R155, log 4). -/
def State.tick (s : State) : State :=
  match s.hw.engine with
  | .idle => s
  | .busy _ => if s.ticksLeft = 0 then s.complete else s.setTicks (s.ticksLeft - 1)

/-! ### The peripheral: reaction to writes -/

/-- A register takes the value written to it (R143, R146, R147); RESET stores nothing (R34). -/
def Hw.store (w : RegWrite) (hw : Hw) : Hw :=
  match w with
  | .ctrl v => { hw with ctrl := v }
  | .divider v => { hw with div := v }
  | .ss m => { hw with ss := m }
  | .data k v => { hw with data := hw.data.set k v }
  | .reset _ => hw

/-- The snapshot of a transfer that the CTRL value `v` starts (R144). -/
def Hw.snapshot (v : CtrlWord) (hw : Hw) : Snap where
  data := hw.data
  dataLen := v.extractLsb' 0 8
  rxNeg := v.getLsbD 9
  txNeg := v.getLsbD 10
  lsbFirst := v.getLsbD 11
  ass := v.getLsbD 13
  div := hw.div
  ss := hw.ss
  corrupt := false

/-- A write stores its value (R143, R146, R147). -/
def State.storeWrite (w : RegWrite) (s : State) : State := s.setHw (s.hw.store w)

/-- A go write while Idle starts a transfer (R144); when it will complete is drawn (log 4). -/
def State.startTransfer (v : CtrlWord) (s : State) : State :=
  ((s.setHw { s.hw.store (.ctrl v) with engine := .busy (s.hw.snapshot v) }).setTicks
    (Config.transferTicks s.drawn)).draw

/-- A write of a transfer-affecting register while Busy (R145): the overlap flag is set, the transfer in
flight is corrupt, the register holds its old or its new value (a draw, log 7), and nothing starts. -/
def State.overlapWrite (w : RegWrite) (snap : Snap) (s : State) : State :=
  let kept := if Config.collisionKeepsOld s.drawn then s.hw else s.hw.store w
  (s.setHw { kept with engine := .busy { snap with corrupt := true }, overlap := true }).draw

/-- Every hardware register 0 and the engine Idle; the overlap flag is not changed (R148). -/
def Hw.cleared (hw : Hw) : Hw where
  ctrl := 0
  div := 0
  ss := 0
  data := #v[0, 0, 0, 0, 0, 0, 0, 0]
  engine := .idle
  overlap := hw.overlap

/-- The write of 1 to RESET (R148): a transfer in flight ends with an aborted record. -/
def State.resetPeripheral (s : State) : State :=
  match s.hw.engine with
  | .idle => s.setHw s.hw.cleared
  | .busy snap => (s.addRecord snap.abortedRecord).setHw s.hw.cleared

/-- A write of a transfer-affecting register (R142): `idleReaction` while Idle, an overlap while Busy. -/
def State.transferWrite (w : RegWrite) (s idleReaction : State) : State :=
  match s.hw.engine with
  | .idle => idleReaction
  | .busy snap => s.overlapWrite w snap

/-- The peripheral applies a write (R142 to R148). -/
def State.hwWrite (w : RegWrite) (s : State) : State :=
  match w with
  | .ctrl v => s.transferWrite w (if v.getLsbD 8 then s.startTransfer v else s.storeWrite w)
  | .divider _ => s.transferWrite w (s.storeWrite w)
  | .data _ _ => s.transferWrite w (s.storeWrite w)
  | .ss _ => s.storeWrite w
  | .reset b => if b then s.resetPeripheral else s

/-- The first `n` of the three writes 0, 1, 0 of a pulse on RESET (R48). -/
def State.applyPulse (n : Nat) (s : State) : State :=
  ([false, true, false].take n).foldl (fun t b => t.hwWrite (.reset b)) s

/-! ### The peripheral: reads -/

/-- The value a read of a register returns, and the state after it (R153, R154). DATAk and RESET return a
draw (log 17); no read has another effect (R55). -/
def State.readReg (r : Reg) (s : State) : Nat × State :=
  match r with
  | .ctrl => (s.hw.ctrlValue.toNat, s)
  | .divider => (s.hw.div, s)
  | .ss => (s.hw.ss.toNat, s)
  | .busy => (s.hw.busyValue, s)
  | .data _ => ((Config.readData s.drawn).toNat, s.draw)
  | .reset => ((Config.readReset s.drawn).toNat, s.draw)

/-! ### The Register Link -/

/-- The next call to `r` succeeds: its name exists in the device and the link does not fail (R50, log 5). -/
abbrev State.LinkUp (r : Reg) (s : State) : Prop := r ∈ s.registerMap ∧ s.linkOk ≠ some 0

/-- The calls still carried after `k` that succeeded; an endless run stays endless (log 5). -/
def linkAfter (k : Nat) (run : Option Nat) : Option Nat := run.map (· - k)

/-- A call has succeeded. -/
def State.carried (s : State) : State := s.setLinkOk (linkAfter 1 s.linkOk)

/-- A call to `r` has failed: `X(r)` (R50). Unless the name is absent, how many calls succeed from here on is
drawn anew, and they may never end: runs of successes of every finite length and an endless one are the model's form
of the draws of R7 and R50 (log 5). -/
def State.linkFailed (r : Reg) (s : State) : State :=
  ((s.emit [.failed r]).setLinkOk (if r ∈ s.registerMap then Config.linkRun s.drawn else s.linkOk)).draw

/-- `MemWrite` (R47), after the scheduling point that stands between two calls (R12). A failed write may have
reached the peripheral (R50, log 6). -/
def memWrite (w : RegWrite) (s : State) : Call Unit :=
  let t := s.tick
  if t.LinkUp w.reg then .done () ((t.hwWrite w).carried.emit [w.event])
  else .failed (.transport w.reg) ((if Config.writeReached t.drawn then t.hwWrite w else t).linkFailed w.reg)

/-- `MemWrite` of several values in order, up to the first failure (R58, R204). -/
def memWrites : List RegWrite → State → Call Unit
  | [], s => .done () s
  | w :: ws, s => (memWrite w s).andThen fun _ t => memWrites ws t

/-- `Pulse` of RESET (R48): one call, three writes 0, 1, 0. Of a failed pulse a drawn number of the writes
reached the peripheral (log 6). -/
def pulseReset (s : State) : Call Unit :=
  let t := s.tick
  if t.LinkUp .reset then
    .done () ((t.applyPulse 3).carried.emit [.write .reset 0, .write .reset 1, .write .reset 0])
  else .failed (.transport .reset) ((t.applyPulse (Config.pulseReached t.drawn)).linkFailed .reset)

/-- `MemRead` (R49). -/
def memRead (r : Reg) (s : State) : Call Nat :=
  let t := s.tick
  if t.LinkUp r then
    .done (t.readReg r).1 ((t.readReg r).2.carried.emit [.read r (t.readReg r).1])
  else .failed (.transport r) (t.linkFailed r)

/-! ### Packets -/

/-- The packet the next step runs: the first that the host has not had answered (R12, log 1). -/
def State.fetch (s : State) : Option Packet := s.inbox.head?

/-- Put a packet where the next step fetches. -/
def State.place (p : Packet) (s : State) : State := { s with inbox := p :: s.inbox }

/-- The refusal of a packet that does not decode (R67, R205). -/
def refuseDecode : DecodeError → Refusal
  | .illegalCommand op operands => .illegalCommand op operands

end Sys2Proof.Machine
end

