-- ==== Sys2Proof/Machine/Registers.lean ====
section
/-! DEFINITION. The plain register operations (41_register_ops R120 to R124). -/

namespace Sys2Proof.Machine

/-- The eight writes of a bank in slot order 0 to 7 (R122, R171). -/
def bankWrites (b : Bank) : List RegWrite :=
  [.data 0 b[0], .data 1 b[1], .data 2 b[2], .data 3 b[3],
   .data 4 b[4], .data 5 b[5], .data 6 b[6], .data 7 b[7]]

/-- SETDIV v (R120): the shadow first, then DIVIDER. -/
def execSetDiv (v : Int) (s : State) : Host.Outcome State Fault Refusal :=
  .next (checked (operandDivider v) s fun x =>
    (memWrite (.divider x) (s.setShadow { s.shadow with clkDiv := x })).toHost fun _ => .unit)

/-- SETSS m (R121): the shadow first, then SS. -/
def execSetSs (m : Int) (s : State) : Host.Outcome State Fault Refusal :=
  .next (checked (operandSlaveSelect m) s fun x =>
    (memWrite (.ss x) (s.setShadow { s.shadow with ssMask := x })).toHost fun _ => .unit)

/-- WRBANK vs (R122): all eight shadow slots, then the eight data registers in slot order. -/
def execWrBank (vs : List Int) (s : State) : Host.Outcome State Fault Refusal :=
  .next (checked (operandBank vs) s fun b =>
    (memWrites (bankWrites b) (s.setShadow { s.shadow with bank := b })).toHost fun _ => .unit)

/-- RESET (R123): one pulse; the shadow is not changed (R232). -/
def execReset (s : State) : Host.Outcome State Fault Refusal :=
  .next ((pulseReset s).toHost fun _ => .unit)

/-- ISBUSY (R124): BUSY is exactly 1. -/
def execIsBusy (s : State) : Host.Outcome State Fault Refusal :=
  .next ((memRead .busy s).toHost fun v => .bool (busyTest v))

end Sys2Proof.Machine
end

