-- ==== Sys2Proof/Machine/Transfer.lean ====
section
/-! DEFINITION. START and WAITIDLE (42_transfer R140, R141), and the peripheral's reaction to a CTRL write
delivered to it (R143 to R145; log 3). -/

namespace Sys2Proof.Machine

/-- START's calls (R140): `s.goBusy` is 1 even if the write then fails. -/
def startCalls (s : State) : Call Unit :=
  let t := s.setShadow { s.shadow with goBusy := true }
  memWrite (.ctrl t.shadow.ctrlWord) t

/-- START (R140). -/
def execStart (s : State) : Host.Outcome State Fault Refusal :=
  .next ((startCalls s).toHost fun _ => .unit)

/-- After one poll of BUSY: WAITIDLE returns unless the value is 1 (R141). -/
def waitIdlePolled (c : Call Nat) : State :=
  match c with
  | .done v s => if busyTest v then s else returnOk .unit s
  | .failed e s => raise e s

/-- WAITIDLE (R141), one poll of its loop: while BUSY reads 1 it stays the current operation, so the next step
polls again (R12, R21; log 12). -/
def execWaitIdle (s : State) : Host.Outcome State Fault Refusal :=
  .next (waitIdlePolled (memRead .busy s))

/-- CTRL_CFG: a CTRL write with bit 8 = 0 at the peripheral (R143, R145). -/
def execCtrlCfg (ass ie lsb txNeg rxNeg : Bool) (dataLen : Byte) (s : State) : Host.Outcome State Fault Refusal :=
  .next (s.hwWrite (.ctrl (pack ass ie lsb txNeg rxNeg false dataLen))).delivered

/-- CTRL_GO: a CTRL write with bit 8 = 1 at the peripheral (R144, R145). -/
def execCtrlGo (ass ie lsb txNeg rxNeg : Bool) (dataLen : Byte) (s : State) : Host.Outcome State Fault Refusal :=
  .next (s.hwWrite (.ctrl (pack ass ie lsb txNeg rxNeg true dataLen))).delivered

end Sys2Proof.Machine
end

