-- ==== Sys2Proof/Machine/Transaction.lean ====
section
/-! DEFINITION. The transaction encoder and the transmit sequencer (43_transaction R170 to R173), and the frames
delivered as packets (log 2). -/

namespace Sys2Proof.Machine

/-- ENCODE d, a, p (R170): a pure function; out-of-range operands are refused. -/
def execEncodeFrame (d a p : Int) (s : State) : Host.Outcome State Fault Refusal :=
  match encodeOperands d a p with
  | some w => .next (returnOk (.word w) s)
  | none => .refused (.operandRange d a p s.trace)

/-- TRANSMIT's calls for a word that fits (R171): slot 0, the whole bank in slot order, the current control
word, then START. It waits for nothing (R172). -/
def transmitCalls (w : Slot) (s : State) : Call Unit :=
  let b := s.shadow.bank.set 0 w
  let t := s.setShadow { s.shadow with bank := b }
  (memWrites (bankWrites b ++ [.ctrl t.shadow.ctrlWord]) t).andThen fun _ u => startCalls u

/-- TRANSMIT word (R171). -/
def execTransmit (word : Int) (s : State) : Host.Outcome State Fault Refusal :=
  .next (checked (operandWord word) s fun w => (transmitCalls w s).toHost fun _ => .unit)

/-- A frame delivered for sending: the transmit half of an encode-and-transmit cycle (R80, R173; log 2). -/
def sendFrame (w : Frame) (s : State) : State := (transmitCalls w s).toHost fun _ => .unit

/-- FRAME_W: a write frame (R170, R73). -/
def execFrameW (a : BitVec 7) (p : Byte) (s : State) : Host.Outcome State Fault Refusal :=
  .next (sendFrame (frame false a p) s)

/-- FRAME_R: a read frame is sent exactly like a write frame; no response is captured (R173). -/
def execFrameR (a : BitVec 7) (p : Byte) (s : State) : Host.Outcome State Fault Refusal :=
  .next (sendFrame (frame true a p) s)

/-- The pseudo-instruction TXW a, p (R80): ENCODE, then TRANSMIT of the word it returns. None where ENCODE is
refused (log 30). -/
def expandTxw (a p : Int) : Option (List Instr) :=
  (encodeOperands 0 a p).map fun w => [.encodeFrame 0 a p, .transmit w.toNat]

/-- The pseudo-instruction TXR a, p (R80). None where ENCODE is refused (log 30). -/
def expandTxr (a p : Int) : Option (List Instr) :=
  (encodeOperands 1 a p).map fun w => [.encodeFrame 1 a p, .transmit w.toNat]

end Sys2Proof.Machine
end

