-- ==== Sys2Proof/Machine/Pixel.lean ====
section
/-! DEFINITION. The pixel-configurator facade (44_pixel_facade R190 to R192) and its three frames as packets
(R57, R76; log 2). -/

namespace Sys2Proof.Machine

/-- Transactions one after the other, up to the first failed call (R190, R192). -/
def sendFrames : List Frame → State → Call Unit
  | [], s => .done () s
  | w :: ws, s => (transmitCalls w s).andThen fun _ t => sendFrames ws t

/-- CFGPIXEL refused after the transactions before the refusal; a transport error in one of them ends it first
(R190, R207). -/
def refusedAfter (stop : RefusalAt) (c : Call Unit) : Host.Outcome State Fault Refusal :=
  match c with
  | .done _ t => .refused (stop t.trace)
  | .failed e t => .next (raise e t)

/-- CFGPIXEL addr, h, lo, we, pe, m (R190). -/
def execCfgPixel (addr h lo we pe m : Int) (s : State) : Host.Outcome State Fault Refusal :=
  match pixelFrames addr h lo we pe m with
  | (ws, none) => .next ((sendFrames ws s).toHost fun _ => .unit)
  | (ws, some stop) => refusedAfter stop (sendFrames ws s)

/-- PIX_ADDR: the frame to 0x20 (R57, R190). -/
def execPixAddr (p : Byte) (s : State) : Host.Outcome State Fault Refusal :=
  .next (sendFrame (frame false 0x20 p) s)

/-- PIX_DACLO: the frame to 0x21 (R57, R190). -/
def execPixDacLo (p : Byte) (s : State) : Host.Outcome State Fault Refusal :=
  .next (sendFrame (frame false 0x21 p) s)

/-- PIX_CTRL: the frame to 0x22 with the packed payload (R57, R76, R191). -/
def execPixCtrl (w e : Bool) (m : BitVec 2) (h : BitVec 4) (s : State) : Host.Outcome State Fault Refusal :=
  .next (sendFrame (frame false 0x22 (pixelByte w e m h)) s)

end Sys2Proof.Machine
end

