-- ==== Sys2Proof/Machine/Setters.lean ====
section
/-! DEFINITION. The six control-field setters (40_ctrl_word R101 to R106): each writes one shadow field, from
which the control word is repacked, and issues no Register Link call (R107). -/

namespace Sys2Proof.Machine

/-- A setter's end: the new shadow, and `Ok(unit)`. -/
def setShadowField (x : Shadow) (s : State) : State := returnOk .unit (s.setShadow x)

/-- SETDATALEN n (R101). -/
def execSetDataLen (n : Int) (s : State) : Host.Outcome State Fault Refusal :=
  .next (checked (operandDataLen n) s fun v => setShadowField { s.shadow with dataLen := v } s)

/-- SETRXNEG b (R102). -/
def execSetRxNeg (b : Bool) (s : State) : Host.Outcome State Fault Refusal :=
  .next (setShadowField { s.shadow with rxNeg := b } s)

/-- SETTXNEG b (R103). -/
def execSetTxNeg (b : Bool) (s : State) : Host.Outcome State Fault Refusal :=
  .next (setShadowField { s.shadow with txNeg := b } s)

/-- SETLSBFIRST b (R104). -/
def execSetLsbFirst (b : Bool) (s : State) : Host.Outcome State Fault Refusal :=
  .next (setShadowField { s.shadow with lsbFirst := b } s)

/-- SETIE b (R105). -/
def execSetIe (b : Bool) (s : State) : Host.Outcome State Fault Refusal :=
  .next (setShadowField { s.shadow with ie := b } s)

/-- SETASS b (R106). -/
def execSetAss (b : Bool) (s : State) : Host.Outcome State Fault Refusal :=
  .next (setShadowField { s.shadow with ass := b } s)

end Sys2Proof.Machine
end

