-- ==== Sys2Proof/Machine/Dispatch.lean ====
section
/-! DEFINITION. The dispatch: one arm per instruction, each one call of its meaning. -/

namespace Sys2Proof.Machine

def exec (i : Instr) (s : State) : Host.Outcome State Fault Refusal :=
  match i with
  | .setDataLen n => Sys2Proof.Machine.execSetDataLen n s
  | .setRxNeg b => Sys2Proof.Machine.execSetRxNeg b s
  | .setTxNeg b => Sys2Proof.Machine.execSetTxNeg b s
  | .setLsbFirst b => Sys2Proof.Machine.execSetLsbFirst b s
  | .setIe b => Sys2Proof.Machine.execSetIe b s
  | .setAss b => Sys2Proof.Machine.execSetAss b s
  | .setDiv v => Sys2Proof.Machine.execSetDiv v s
  | .setSs m => Sys2Proof.Machine.execSetSs m s
  | .wrBank vs => Sys2Proof.Machine.execWrBank vs s
  | .reset => Sys2Proof.Machine.execReset s
  | .isBusy => Sys2Proof.Machine.execIsBusy s
  | .start => Sys2Proof.Machine.execStart s
  | .waitIdle => Sys2Proof.Machine.execWaitIdle s
  | .encodeFrame d a p => Sys2Proof.Machine.execEncodeFrame d a p s
  | .transmit word => Sys2Proof.Machine.execTransmit word s
  | .cfgPixel addr h lo we pe m => Sys2Proof.Machine.execCfgPixel addr h lo we pe m s
  | .frameW a p => Sys2Proof.Machine.execFrameW a p s
  | .frameR a p => Sys2Proof.Machine.execFrameR a p s
  | .pixAddr p => Sys2Proof.Machine.execPixAddr p s
  | .pixDacLo p => Sys2Proof.Machine.execPixDacLo p s
  | .pixCtrl w e m h => Sys2Proof.Machine.execPixCtrl w e m h s
  | .ctrlCfg ass ie lsb txNeg rxNeg dataLen => Sys2Proof.Machine.execCtrlCfg ass ie lsb txNeg rxNeg dataLen s
  | .ctrlGo ass ie lsb txNeg rxNeg dataLen => Sys2Proof.Machine.execCtrlGo ass ie lsb txNeg rxNeg dataLen s

end Sys2Proof.Machine
end

