-- ==== Sys2Proof/Machine/Step.lean ====
section
/-! DEFINITION. One step: a scheduling point of the peripheral (R7, R155; log 4), then the host's current packet
(R12, R58; log 1). -/

namespace Sys2Proof.Machine

/-- One step of the machine. With nothing issued by the host only the peripheral acts. -/
def step (s : State) : Host.Outcome State Fault Refusal :=
  match s.fetch with
  | none => .next s.tick
  | some p =>
    match decode p with
    | .ok i => exec i s.tick
    | .error e => .refused (refuseDecode e)

/-- The state with a word of opcode_table.json as the packet that the next step runs (logs 1, 18). -/
def State.withFetchWord (s : State) (nbits w : Nat) : State := s.place (packetOfTable nbits w)

end Sys2Proof.Machine
end

