-- ==== Sys2Proof/Safety.lean ====
section
/-! DEFINITION. What the claims call a good link, the same state and a good state. -/

namespace Sys2Proof.Machine

/-- `k` steps, stopping at the first fault or refusal: the host's `Core.run` of this machine. -/
def steps : Nat → State → Host.Outcome State Fault Refusal
  | 0, s => .next s
  | k + 1, s =>
    match step s with
    | .next t => steps k t
    | .fault r => .fault r
    | .refused r => .refused r

/-- The Register Link carries the next calls, to the registers `rs` in turn: each name exists in the device and
no call fails, be the run of successes long enough or endless (R50; `linkOk` is log 5). -/
abbrev State.LinkCarries (rs : List Reg) (s : State) : Prop :=
  (∀ n ∈ s.linkOk, rs.length ≤ n) ∧ ∀ r ∈ rs, r ∈ s.registerMap

/-- The next call to `r` fails: its name is absent, or the link fails (R50; log 5). -/
abbrev State.LinkFails (r : Reg) (s : State) : Prop := r ∉ s.registerMap ∨ s.linkOk = some 0

/-- The spec's own state, less the model's bookkeeping of free values, is the same in two states. -/
def State.SameBut (t s : State) : Prop :=
  ∃ link ticks drawn, t = { s with linkOk := link, ticksLeft := ticks, drawn := drawn }

/-- The host result `r` is appended, the operation index advances and the next packet becomes current (R21,
R40); nothing else changes. -/
def State.ended (r : OpResult) (s : State) : State :=
  { s with results := s.results ++ [r], opIndex := s.opIndex + 1, inbox := s.inbox.tail }

/-- Everything the core acts on is the same in two states; the peripheral, its records and the completion
schedule may differ. -/
def State.SameCore (s t : State) : Prop :=
  s.shadow = t.shadow ∧ s.trace = t.trace ∧ s.results = t.results ∧ s.opIndex = t.opIndex ∧
    s.registerMap = t.registerMap ∧ s.inbox = t.inbox

/-- The integers of a bank, the operand of WRBANK. -/
def bankInts (b : Bank) : List Int := b.toList.map fun w => (w.toNat : Int)

/-- The transfer a go write starts on the peripheral `hw` from the fields of the shadow `x` (R144). -/
def Hw.snapOf (x : Shadow) (hw : Hw) : Snap where
  data := hw.data
  dataLen := x.dataLen
  rxNeg := x.rxNeg
  txNeg := x.txNeg
  lsbFirst := x.lsbFirst
  ass := x.ass
  div := hw.div
  ss := hw.ss
  corrupt := false

/-- A transfer in flight that has been overlapped (R145). -/
def Snap.spoiled (snap : Snap) : Snap := { snap with corrupt := true }

/-- The frame of a frame row, from the bits of the table (R73, R57, R76). -/
def tableFrame : Instr → Option Frame
  | .frameW a p => some (BitVec.ofNat 16 (a.toNat * 256 + p.toNat))
  | .frameR a p => some (BitVec.ofNat 16 (0x8000 + a.toNat * 256 + p.toNat))
  | .pixAddr p => some (BitVec.ofNat 16 (0x2000 + p.toNat))
  | .pixDacLo p => some (BitVec.ofNat 16 (0x2100 + p.toNat))
  | .pixCtrl w e m h =>
    some (BitVec.ofNat 16 (0x2200 + w.toNat * 128 + e.toNat * 64 + m.toNat * 16 + h.toNat))
  | _ => none

/-- The operations that transmit frames. -/
def sendsFrames : Instr → Bool
  | .transmit _ | .cfgPixel _ _ _ _ _ _ => true
  | i => (tableFrame i).isSome

/-- The CTRL values delivered as packets. -/
def writesCtrl : Instr → Bool
  | .ctrlCfg _ _ _ _ _ _ | .ctrlGo _ _ _ _ _ _ => true
  | _ => false

/-- The third payload of CFGPIXEL on non-negative operands (R191). -/
def pixelSum (h we pe m : Nat) : Nat := (we <<< 7) ||| (pe <<< 6) ||| (m <<< 4) ||| h

/-- The eight data registers in slot order. -/
def dataRegs : List Reg := [.data 0, .data 1, .data 2, .data 3, .data 4, .data 5, .data 6, .data 7]

/-- The registers that the ten writes of a TRANSMIT go to, in order (R171). -/
def transmitRegs : List Reg := dataRegs ++ [.ctrl, .ctrl]

/-- The eight write events of a bank, in slot order (R122, R171). -/
def bankEvents (b : Bank) : List BusEvent :=
  [.write (.data 0) b[0].toNat, .write (.data 1) b[1].toNat, .write (.data 2) b[2].toNat,
   .write (.data 3) b[3].toNat, .write (.data 4) b[4].toNat, .write (.data 5) b[5].toNat,
   .write (.data 6) b[6].toNat, .write (.data 7) b[7].toNat]

/-- The ten write events of a TRANSMIT from the shadow `x` with `w` in slot 0: the bank, the current control
word, and START's word with goBusy = 1 (R171, R140). -/
def transmitEvents (w : Slot) (x : Shadow) : List BusEvent :=
  bankEvents (x.bank.set 0 w) ++
    [.write .ctrl x.ctrlWord.toNat, .write .ctrl { x with goBusy := true }.ctrlWord.toNat]

/-- The shadow after a TRANSMIT (R43, R171). -/
def Shadow.transmitted (w : Slot) (x : Shadow) : Shadow := { x with goBusy := true, bank := x.bank.set 0 w }

/-- The shadow after a TRANSMIT of `w` whose k-th write failed: the word is in slot 0, and goBusy is set only by
START, whose write is the tenth (R171, R206). -/
def Shadow.cutOff (w : Slot) (k : Nat) (x : Shadow) : Shadow :=
  { x with bank := x.bank.set 0 w, goBusy := if k = 9 then true else x.goBusy }

/-- The events of a TRANSMIT whose k-th write, to `r`, failed: the writes before it and X(r) (R171, R204). -/
def cutOffEvents (w : Slot) (k : Nat) (r : Reg) (x : Shadow) : List BusEvent :=
  (transmitEvents w x).take k ++ [.failed r]

/-- The width of a register in bits (R34, R53). -/
def regWidth : Reg → Nat
  | .ctrl => 14
  | .divider => Config.divWidth
  | .ss => 8
  | .data _ => 16
  | .reset => 1
  | .busy => Config.busyRegWidth

/-- No event carries a value wider than its register (R53). -/
def BusEvent.Fits : BusEvent → Prop
  | .write r v => v < 2 ^ regWidth r
  | .read r v => v < 2 ^ regWidth r
  | .failed _ => True

/-- A record says what R148 to R150 let it say: an aborted one is Unspecified; a completed one of 1 to 128 bits
has exactly that many bits, unless there has been an overlap; any other is Unspecified. -/
def WireRecord.Sound (overlap : Bool) (r : WireRecord) : Prop :=
  (r.aborted = true → r.mosi = .unspecified) ∧
  (r.dataLen.toNat = 0 ∨ 128 < r.dataLen.toNat → r.mosi = .unspecified) ∧
  (r.aborted = false → 1 ≤ r.dataLen.toNat → r.dataLen.toNat ≤ 128 → overlap = false →
    ∃ line, r.mosi = .bits line ∧ line.length = r.dataLen.toNat)

/-- What every step keeps: dividers fit DIV_WIDTH, a corrupt transfer in flight leaves the overlap flag set,
records are sound, the operation index counts the results (it starts at 0, log 29) and bus events fit their
registers. -/
structure State.Inv (s : State) : Prop where
  shadowDiv : s.shadow.clkDiv < 2 ^ Config.divWidth
  hwDiv : s.hw.div < 2 ^ Config.divWidth
  snapDiv : ∀ snap, s.hw.engine = .busy snap → snap.div < 2 ^ Config.divWidth
  recordDiv : ∀ r ∈ s.wire, r.div < 2 ^ Config.divWidth
  corruptMarked : ∀ snap, s.hw.engine = .busy snap → snap.corrupt = true → s.hw.overlap = true
  recordsSound : ∀ r ∈ s.wire, r.Sound s.hw.overlap
  resultsCounted : s.results.length = s.opIndex
  eventsFit : ∀ e ∈ s.trace, e.Fits

end Sys2Proof.Machine
end

