-- ==== Sys2Proof/Certificates/Slice0/Obligations.lean ====
section
/-! DEFINITION. The statements about the block. A hypothesis on the Register Link (`LinkCarries`, `LinkFails`) is
read from the state as log 5 says; `s.tick` is the state after the scheduling point that stands before a call
(log 4); `SameBut` leaves only the model's bookkeeping of free values open. -/

open Sys2Proof Sys2Proof.Machine

/-! ### Reset, control word, encodings -/

/-- R230: the shadow after controller initialization, with no Register Link call. -/
def Obligations.ResetLeavesInitialShadow : Prop :=
  State.reset.shadow.dataLen = 16 ∧ State.reset.shadow.goBusy = false ∧ State.reset.shadow.rxNeg = false ∧
  State.reset.shadow.txNeg = false ∧ State.reset.shadow.lsbFirst = false ∧ State.reset.shadow.ie = false ∧
  State.reset.shadow.ass = true ∧ State.reset.shadow.ctrlWord = 0x2010 ∧ State.reset.shadow.clkDiv = 4 ∧
  State.reset.shadow.ssMask = 0 ∧ State.reset.shadow.bank = #v[0, 0, 0, 0, 0, 0, 0, 0] ∧
  State.reset.trace = [] ∧ State.reset.wire = [] ∧ State.reset.results = []

/-- R70, R100: the packed word is the formula, the fields do not overlap, so OR equals sum; the shadow's control
word is the packing of its fields; the corner cases and the example of R100. -/
def Obligations.PackIsTheFormula : Prop :=
  (∀ (ass ie lsb txNeg rxNeg goBusy : Bool) (dataLen : Byte),
    (pack ass ie lsb txNeg rxNeg goBusy dataLen).toNat =
      (ass.toNat <<< 13) ||| (ie.toNat <<< 12) ||| (lsb.toNat <<< 11) ||| (txNeg.toNat <<< 10) |||
        (rxNeg.toNat <<< 9) ||| (goBusy.toNat <<< 8) ||| dataLen.toNat ∧
    (pack ass ie lsb txNeg rxNeg goBusy dataLen).toNat =
      ass.toNat * 8192 + ie.toNat * 4096 + lsb.toNat * 2048 + txNeg.toNat * 1024 + rxNeg.toNat * 512 +
        goBusy.toNat * 256 + dataLen.toNat) ∧
  (∀ x : Shadow, x.ctrlWord = pack x.ass x.ie x.lsbFirst x.txNeg x.rxNeg x.goBusy x.dataLen) ∧
  pack false false false false false false 0 = 0x0000 ∧ pack true true true true true true 255 = 0x3FFF ∧
  pack true false false false false false 16 = 0x2010

/-- R66 to R78: the encoder's packet of a well-formed instruction decodes to that instruction, with every
operand at every value. -/
def Obligations.DecodeOfEncodeIsTheInstruction : Prop :=
  ∀ i : Instr, i.WellFormed → decode (encode i) = .ok i

/-- R67, R71, R73: the decoder accepts exactly the packets of the encoder: what decodes is well-formed and is
encoded back to the same packet, so no bit or operand is dropped and no other code or operand shape is taken. -/
def Obligations.DecodedPacketsEncodeBack : Prop :=
  ∀ (p : Packet) (i : Instr), decode p = .ok i → encode i = p ∧ i.WellFormed

/-- R67: the codes 0x00 and 0x11 to 0xFF select no operation. A step that meets one of them, or an operand list of
a wrong count or wrong types for its code (a command no instruction has), is refused as IllegalCommand. Every
other command is taken with any operand values, a WRBANK list of any length among them. -/
def Obligations.IllegalCommandsAreRefused : Prop :=
  (∀ (op : BitVec 8) (xs : List Operand) (rest : List Packet) (s : State),
    op = 0 ∨ 0x10 < op.toNat ∨ (∀ i : Instr, encode i ≠ .command op xs) → s.inbox = .command op xs :: rest →
    step s = .refused (.illegalCommand op xs)) ∧
  (∀ (op : BitVec 8) (xs : List Operand) (i : Instr), encode i = .command op xs → decode (.command op xs) = .ok i) ∧
  ∀ vs : List Int, encode (.wrBank vs) = .command 0x09 [.ints vs]

/-- R66, R70, R73, R76: words written out from the tables decode to the instructions they stand for. -/
def Obligations.WrittenWordsDecode : Prop :=
  decode (.command 0x01 [.int 8]) = .ok (.setDataLen 8) ∧
  decode (.command 0x09 [.ints [1, 2]]) = .ok (.wrBank [1, 2]) ∧
  decode (.command 0x0C []) = .ok .start ∧
  decode (.frame 0b0000000100000010) = .ok (.frameW 1 2) ∧
  decode (.frame 0b1010001011000000) = .ok (.frameR 0x22 0xC0) ∧
  decode (.frame 0b0010000000000001) = .ok (.pixAddr 1) ∧
  decode (.frame 0b0010000100001111) = .ok (.pixDacLo 0x0F) ∧
  decode (.frame 0b0010001010111010) = .ok (.pixCtrl true false 3 0xA) ∧
  decode (.ctrl 0b10110000001000) = .ok (.ctrlCfg true false true true false 8) ∧
  decode (.ctrl 0b10000100010000) = .ok (.ctrlGo true false false false false 16)

/-! ### Control-field setters -/

/-- R102 to R106, R108: each Boolean setter completes in every state, writes its own shadow field, changes that
bit of the control word and no other, and leaves all else as it was. -/
def Obligations.BooleanSettersChangeTheirBit : Prop :=
  ∀ (b : Bool) (s : State),
    (exec (.setRxNeg b) s = .next (State.ended (.ok .unit) { s with shadow := { s.shadow with rxNeg := b } }) ∧
      ∀ k < 14, ({ s.shadow with rxNeg := b } : Shadow).ctrlWord.getLsbD k =
        if k = 9 then b else s.shadow.ctrlWord.getLsbD k) ∧
    (exec (.setTxNeg b) s = .next (State.ended (.ok .unit) { s with shadow := { s.shadow with txNeg := b } }) ∧
      ∀ k < 14, ({ s.shadow with txNeg := b } : Shadow).ctrlWord.getLsbD k =
        if k = 10 then b else s.shadow.ctrlWord.getLsbD k) ∧
    (exec (.setLsbFirst b) s = .next (State.ended (.ok .unit) { s with shadow := { s.shadow with lsbFirst := b } }) ∧
      ∀ k < 14, ({ s.shadow with lsbFirst := b } : Shadow).ctrlWord.getLsbD k =
        if k = 11 then b else s.shadow.ctrlWord.getLsbD k) ∧
    (exec (.setIe b) s = .next (State.ended (.ok .unit) { s with shadow := { s.shadow with ie := b } }) ∧
      ∀ k < 14, ({ s.shadow with ie := b } : Shadow).ctrlWord.getLsbD k =
        if k = 12 then b else s.shadow.ctrlWord.getLsbD k) ∧
    (exec (.setAss b) s = .next (State.ended (.ok .unit) { s with shadow := { s.shadow with ass := b } }) ∧
      ∀ k < 14, ({ s.shadow with ass := b } : Shadow).ctrlWord.getLsbD k =
        if k = 13 then b else s.shadow.ctrlWord.getLsbD k)

/-- R101: SETDATALEN of 0 to 255 makes the low 8 bits of the control word n and keeps the others; any other n
raises RangeError(DataLength, n) and changes nothing but the host result. -/
def Obligations.SetDataLenSetsLowBits : Prop :=
  ∀ (n : Int) (s : State),
    (0 ≤ n ∧ n ≤ 255 → ∃ x : Byte, (x.toNat : Int) = n ∧
      exec (.setDataLen n) s = .next (State.ended (.ok .unit) { s with shadow := { s.shadow with dataLen := x } }) ∧
      ({ s.shadow with dataLen := x } : Shadow).ctrlWord.extractLsb' 0 8 = x ∧
      ∀ k, 8 ≤ k → ({ s.shadow with dataLen := x } : Shadow).ctrlWord.getLsbD k = s.shadow.ctrlWord.getLsbD k) ∧
    (n < 0 ∨ 255 < n → exec (.setDataLen n) s = .next (s.ended (.err (.range .dataLength n))))

/-! ### Plain register operations -/

/-- R120: SETDIV writes the shadow, then DIVIDER, and a later read of DIVIDER returns the value; a failed write
leaves the shadow written and DIVIDER at its new or its old value; a value out of range has no effect. -/
def Obligations.SetDivWritesShadowThenDivider : Prop :=
  ∀ (v : Int) (s : State),
    (0 ≤ v ∧ v < 2 ^ Config.divWidth → s.tick.hw.engine = .idle →
      (s.LinkCarries [.divider] → ∃ t, exec (.setDiv v) s = .next t ∧
        t.SameBut (State.ended (.ok .unit) { s.tick with
          shadow := { s.shadow with clkDiv := v.toNat },
          hw := { s.tick.hw with div := v.toNat },
          trace := s.trace ++ [.write .divider v.toNat] }) ∧
        (t.readReg .divider).1 = v.toNat) ∧
      (s.LinkFails .divider → ∃ t h, exec (.setDiv v) s = .next t ∧
        t.SameBut (State.ended (.err (.transport .divider)) { s.tick with
          shadow := { s.shadow with clkDiv := v.toNat },
          hw := h,
          trace := s.trace ++ [.failed .divider] }) ∧
        (h = s.tick.hw ∨ h = { s.tick.hw with div := v.toNat }))) ∧
    (v < 0 ∨ 2 ^ Config.divWidth ≤ v → exec (.setDiv v) s = .next (s.ended (.err (.range .divider v))))

/-- R145, R120, R50: SETDIV while a transfer is in flight is an overlap: the overlap flag is set, the transfer is
spoiled, DIVIDER holds its old or its new value, and no transfer starts. A write that fails leaves the shadow written
all the same and the peripheral as it was or overlapped. -/
def Obligations.SetDivWhileBusyOverlaps : Prop :=
  ∀ (v : Int) (s : State) (snap : Snap), 0 ≤ v ∧ v < 2 ^ Config.divWidth → s.tick.hw.engine = .busy snap →
    (s.LinkCarries [.divider] → ∃ t d, exec (.setDiv v) s = .next t ∧
      t.SameBut (State.ended (.ok .unit) { s.tick with
        shadow := { s.shadow with clkDiv := v.toNat },
        hw := { s.tick.hw with div := d, engine := .busy snap.spoiled, overlap := true },
        trace := s.trace ++ [.write .divider v.toNat] }) ∧
      (d = s.tick.hw.div ∨ d = v.toNat)) ∧
    (s.LinkFails .divider → ∃ t h, exec (.setDiv v) s = .next t ∧
      t.SameBut (State.ended (.err (.transport .divider)) { s.tick with
        shadow := { s.shadow with clkDiv := v.toNat },
        hw := h,
        trace := s.trace ++ [.failed .divider] }) ∧
      (h = s.tick.hw ∨ ∃ d, h = { s.tick.hw with div := d, engine := .busy snap.spoiled, overlap := true } ∧
        (d = s.tick.hw.div ∨ d = v.toNat)))

/-- R121: SETSS writes the shadow, then SS, in either engine state and without overlap; a failed write leaves
the shadow written and SS at its new or its old value; a mask out of range has no effect. -/
def Obligations.SetSsWritesShadowThenSs : Prop :=
  ∀ (m : Int) (s : State),
    (0 ≤ m ∧ m ≤ 255 → ∃ x : Byte, (x.toNat : Int) = m ∧
      (s.LinkCarries [.ss] → ∃ t, exec (.setSs m) s = .next t ∧
        t.SameBut (State.ended (.ok .unit) { s.tick with
          shadow := { s.shadow with ssMask := x },
          hw := { s.tick.hw with ss := x },
          trace := s.trace ++ [.write .ss x.toNat] }) ∧
        (t.readReg .ss).1 = x.toNat) ∧
      (s.LinkFails .ss → ∃ t h, exec (.setSs m) s = .next t ∧
        t.SameBut (State.ended (.err (.transport .ss)) { s.tick with
          shadow := { s.shadow with ssMask := x },
          hw := h,
          trace := s.trace ++ [.failed .ss] }) ∧
        (h = s.tick.hw ∨ h = { s.tick.hw with ss := x }))) ∧
    (m < 0 ∨ 255 < m → exec (.setSs m) s = .next (s.ended (.err (.range .slaveSelect m))))

/-- R122, R58: whatever the engine does, WRBANK writes the eight shadow slots and issues its eight writes in slot
order; on an Idle engine the data registers then hold the bank, and nothing else changes. -/
def Obligations.WrBankWritesEightSlotsInOrder : Prop :=
  ∀ (b : Bank) (s : State), s.LinkCarries dataRegs →
    ∃ t, exec (.wrBank (bankInts b)) s = .next t ∧
      t.shadow = { s.shadow with bank := b } ∧ t.trace = s.trace ++ bankEvents b ∧
      t.results = s.results ++ [.ok .unit] ∧ t.opIndex = s.opIndex + 1 ∧
      (s.tick.hw.engine = .idle → t.SameBut (State.ended (.ok .unit) { s.tick with
        shadow := { s.shadow with bank := b },
        hw := { s.tick.hw with data := b },
        trace := s.trace ++ bankEvents b }))

/-- R122, R206: whatever the engine does, a WRBANK whose k-th write fails has issued writes 0 to k-1 and issues no
later one, and the shadow holds all eight values. On an Idle engine the data registers before k hold the new values,
those after k their old ones, register k either, and nothing else changes. -/
def Obligations.WrBankFailureIsPrecise : Prop :=
  ∀ (b : Bank) (k : Fin 8) (s : State),
    s.LinkCarries (dataRegs.take k) → (.data k ∉ s.registerMap ∨ s.linkOk = some k.val) →
    ∃ t, exec (.wrBank (bankInts b)) s = .next t ∧
      t.shadow = { s.shadow with bank := b } ∧ t.trace = s.trace ++ (bankEvents b).take k ++ [.failed (.data k)] ∧
      t.results = s.results ++ [.err (.transport (.data k))] ∧ t.opIndex = s.opIndex + 1 ∧
      (s.tick.hw.engine = .idle → ∃ data,
        t.SameBut (State.ended (.err (.transport (.data k))) { s.tick with
          shadow := { s.shadow with bank := b },
          hw := { s.tick.hw with data := data },
          trace := s.trace ++ (bankEvents b).take k ++ [.failed (.data k)] }) ∧
        (∀ j : Fin 8, j < k → data[j] = b[j]) ∧ (∀ j : Fin 8, k < j → data[j] = s.tick.hw.data[j]) ∧
        (data[k] = b[k] ∨ data[k] = s.tick.hw.data[k]))

/-- R122, R207: a list that is not 8 long raises RangeError(BankLength), else the first value that does not fit
W bits raises RangeError(SlotWidth) with its slot; nothing but the host result changes. -/
def Obligations.WrBankRangeErrors : Prop :=
  ∀ (vs : List Int) (s : State),
    (vs.length ≠ 8 → exec (.wrBank vs) s = .next (s.ended (.err (.range .bankLength vs.length)))) ∧
    (∀ k : Fin 8, vs.length = 8 → (∀ j < k.val, ∃ x : Slot, vs[j]? = some (x.toNat : Int)) →
      (∀ x : Slot, vs[k.val]? ≠ some (x.toNat : Int)) →
      exec (.wrBank vs) s = .next (s.ended (.err (.range .slotWidth k.val))))

/-- R123, R148, R232: RESET sends 0, 1, 0, sets every hardware register to 0 and the engine to Idle, keeps the
overlap flag and the whole shadow, and ends a transfer in flight with an aborted Unspecified record. -/
def Obligations.ResetClearsHardwareNotShadow : Prop :=
  ∀ s : State, s.LinkCarries [.reset] → ∃ t ws, exec .reset s = .next t ∧
    t.SameBut (State.ended (.ok .unit) { s.tick with
      hw := { ctrl := 0, div := 0, ss := 0, data := #v[0, 0, 0, 0, 0, 0, 0, 0], engine := .idle,
              overlap := s.hw.overlap },
      wire := s.tick.wire ++ ws,
      trace := s.trace ++ [.write .reset 0, .write .reset 1, .write .reset 0] }) ∧
    (s.tick.hw.engine = .idle → ws = []) ∧
    (∀ snap, s.tick.hw.engine = .busy snap →
      ws = [{ mosi := .unspecified, dataLen := snap.dataLen, rxNeg := snap.rxNeg, txNeg := snap.txNeg,
              lsbFirst := snap.lsbFirst, ass := snap.ass, ssLines := snap.ssLines, div := snap.div,
              aborted := true }])

/-- R48, R148, R204: a RESET whose pulse fails raises TransportError with one X(RESET), and the shadow is unchanged.
The peripheral is either untouched, with no record, or reset as R148 says: with no record if it was Idle, with the
aborted Unspecified record of the transfer if one was in flight. -/
def Obligations.ResetFailureIsAllOrNothing : Prop :=
  ∀ s : State, s.LinkFails .reset → ∃ t h ws, exec .reset s = .next t ∧
    t.SameBut (State.ended (.err (.transport .reset)) { s.tick with
      hw := h, wire := s.tick.wire ++ ws, trace := s.trace ++ [.failed .reset] }) ∧
    (h = s.tick.hw ∧ ws = [] ∨
     h = { ctrl := 0, div := 0, ss := 0, data := #v[0, 0, 0, 0, 0, 0, 0, 0], engine := .idle,
           overlap := s.hw.overlap } ∧
      (s.tick.hw.engine = .idle → ws = []) ∧
      (∀ snap, s.tick.hw.engine = .busy snap →
        ws = [{ mosi := .unspecified, dataLen := snap.dataLen, rxNeg := snap.rxNeg, txNeg := snap.txNeg,
                lsbFirst := snap.lsbFirst, ass := snap.ass, ssLines := snap.ssLines, div := snap.div,
                aborted := true }]))

/-- R124, R153: ISBUSY reads BUSY and is true exactly when the value is 1, which under the peripheral is when a
transfer is in flight; the read changes nothing; a failed read raises TransportError. -/
def Obligations.IsBusyReportsTheEngine : Prop :=
  (∀ s : State,
    (s.LinkCarries [.busy] →
      (s.tick.hw.engine = .idle → ∃ t, exec .isBusy s = .next t ∧
        t.SameBut (State.ended (.ok (.bool false)) { s.tick with trace := s.trace ++ [.read .busy 0] })) ∧
      (∀ snap, s.tick.hw.engine = .busy snap → ∃ t, exec .isBusy s = .next t ∧
        t.SameBut (State.ended (.ok (.bool true)) { s.tick with trace := s.trace ++ [.read .busy 1] }))) ∧
    (s.LinkFails .busy → ∃ t, exec .isBusy s = .next t ∧
      t.SameBut (State.ended (.err (.transport .busy)) { s.tick with trace := s.trace ++ [.failed .busy] }))) ∧
  ∀ v : Nat, busyTest v = true ↔ v = 1

/-! ### Start, wait and the peripheral -/

/-- R140, R144: START with the engine Idle sets goBusy, writes the control word with bit 8 = 1 and starts a
transfer of the shadow's fields and the data registers. -/
def Obligations.StartBeginsTransfer : Prop :=
  ∀ s : State, s.tick.hw.engine = .idle → s.LinkCarries [.ctrl] →
    ∃ (t : State) (word : CtrlWord), exec .start s = .next t ∧
      word = ({ s.shadow with goBusy := true } : Shadow).ctrlWord ∧ word.getLsbD 8 = true ∧
      t.SameBut (State.ended (.ok .unit) { s.tick with
        shadow := { s.shadow with goBusy := true },
        hw := { s.tick.hw with ctrl := word, engine := .busy (s.tick.hw.snapOf s.shadow) },
        trace := s.trace ++ [.write .ctrl word.toNat] })

/-- R140, R145: START with a transfer in flight is an overlap and starts no second transfer. -/
def Obligations.StartWhileBusyOverlaps : Prop :=
  ∀ (s : State) (snap : Snap), s.tick.hw.engine = .busy snap → s.LinkCarries [.ctrl] →
    ∃ (t : State) (word c : CtrlWord), exec .start s = .next t ∧
      word = ({ s.shadow with goBusy := true } : Shadow).ctrlWord ∧
      t.SameBut (State.ended (.ok .unit) { s.tick with
        shadow := { s.shadow with goBusy := true },
        hw := { s.tick.hw with ctrl := c, engine := .busy snap.spoiled, overlap := true },
        trace := s.trace ++ [.write .ctrl word.toNat] }) ∧
      (c = s.tick.hw.ctrl ∨ c = word)

/-- R140, R145, R50: when START's write fails goBusy is 1 all the same. On an Idle engine it is open whether a
transfer started; with one in flight the peripheral is as it was or overlapped, and no other transfer starts. -/
def Obligations.StartFailureKeepsGoBusy : Prop :=
  ∀ s : State, s.LinkFails .ctrl →
    ∃ (t : State) (h : Hw) (word : CtrlWord), exec .start s = .next t ∧
      word = ({ s.shadow with goBusy := true } : Shadow).ctrlWord ∧
      t.SameBut (State.ended (.err (.transport .ctrl)) { s.tick with
        shadow := { s.shadow with goBusy := true }, hw := h,
        trace := s.trace ++ [.failed .ctrl] }) ∧
      (s.tick.hw.engine = .idle → h = s.tick.hw ∨
        h = { s.tick.hw with ctrl := word, engine := .busy (s.tick.hw.snapOf s.shadow) }) ∧
      (∀ snap, s.tick.hw.engine = .busy snap → h = s.tick.hw ∨
        ∃ c, h = { s.tick.hw with ctrl := c, engine := .busy snap.spoiled, overlap := true } ∧
          (c = s.tick.hw.ctrl ∨ c = word))

/-- R141: one poll of WAITIDLE: on 0 it returns, on 1 it stays the current operation, and a failed read ends it
with TransportError. -/
def Obligations.WaitIdlePollsBusy : Prop :=
  ∀ s : State,
    (s.LinkCarries [.busy] →
      (s.tick.hw.engine = .idle → ∃ t, exec .waitIdle s = .next t ∧
        t.SameBut (State.ended (.ok .unit) { s.tick with trace := s.trace ++ [.read .busy 0] })) ∧
      (∀ snap, s.tick.hw.engine = .busy snap → ∃ t, exec .waitIdle s = .next t ∧
        t.SameBut { s.tick with trace := s.trace ++ [.read .busy 1] })) ∧
    (s.LinkFails .busy → ∃ t, exec .waitIdle s = .next t ∧
      t.SameBut (State.ended (.err (.transport .busy)) { s.tick with trace := s.trace ++ [.failed .busy] }))

/-- R141, R155: WAITIDLE returns. Whatever finite number of scheduling points the transfer in flight takes
(log 4), the steps that poll BUSY end with the engine Idle, the transfer's record appended and the operation
answered, after reads of 1 and a last read of 0. -/
def Obligations.WaitIdleReturns : Prop :=
  ∀ (s : State) (snap : Snap) (rest : List Packet),
    s.inbox = encode .waitIdle :: rest → s.hw.engine = .busy snap → .busy ∈ s.registerMap →
    (∀ n ∈ s.linkOk, s.ticksLeft < n) →
    ∃ (k : Nat) (t : State), k ≤ s.ticksLeft ∧ steps (k + 1) s = .next t ∧
      t.SameBut (State.ended (.ok .unit) { s with
        hw := { s.hw with engine := .idle },
        wire := s.wire ++ [snap.completedRecord],
        trace := s.trace ++ List.replicate k (.read .busy 1) ++ [.read .busy 0] })

/-- R143, R144, R145: a CTRL value delivered to the peripheral: bit 8 = 0 while Idle stores it, bit 8 = 1 while
Idle starts a transfer of its fields, and either while Busy is an overlap. The core, its trace and the host see
nothing of it (log 3). -/
def Obligations.CtrlWritesReachThePeripheral : Prop :=
  ∀ (ass ie lsb txNeg rxNeg : Bool) (dataLen : Byte) (s : State),
    (s.hw.engine = .idle →
      exec (.ctrlCfg ass ie lsb txNeg rxNeg dataLen) s = .next { s with
        hw := { s.hw with ctrl := pack ass ie lsb txNeg rxNeg false dataLen }, inbox := s.inbox.tail }) ∧
    (s.hw.engine = .idle → ∃ t, exec (.ctrlGo ass ie lsb txNeg rxNeg dataLen) s = .next t ∧
      t.SameBut { s with
        hw := { s.hw with
          ctrl := pack ass ie lsb txNeg rxNeg true dataLen,
          engine := .busy { data := s.hw.data, dataLen := dataLen, rxNeg := rxNeg, txNeg := txNeg,
                            lsbFirst := lsb, ass := ass, div := s.hw.div, ss := s.hw.ss, corrupt := false } },
        inbox := s.inbox.tail }) ∧
    (∀ snap, s.hw.engine = .busy snap → ∃ t c, exec (.ctrlCfg ass ie lsb txNeg rxNeg dataLen) s = .next t ∧
      t.SameBut { s with
        hw := { s.hw with ctrl := c, engine := .busy snap.spoiled, overlap := true },
        inbox := s.inbox.tail } ∧
      (c = s.hw.ctrl ∨ c = pack ass ie lsb txNeg rxNeg false dataLen)) ∧
    (∀ snap, s.hw.engine = .busy snap → ∃ t c, exec (.ctrlGo ass ie lsb txNeg rxNeg dataLen) s = .next t ∧
      t.SameBut { s with
        hw := { s.hw with ctrl := c, engine := .busy snap.spoiled, overlap := true },
        inbox := s.inbox.tail } ∧
      (c = s.hw.ctrl ∨ c = pack ass ie lsb txNeg rxNeg true dataLen))

/-- R145: a write of CTRL, DIVIDER or DATAk while Busy sets the overlap flag, spoils the transfer in flight,
leaves the register at its old or its new value and starts nothing; a write of SS does none of this. -/
def Obligations.OverlapSpoilsTheTransfer : Prop :=
  ∀ (s : State) (snap : Snap), s.hw.engine = .busy snap →
    (∀ v, ∃ c, (s.hwWrite (.ctrl v)).SameBut { s with
        hw := { s.hw with ctrl := c, engine := .busy snap.spoiled, overlap := true } } ∧
      (c = s.hw.ctrl ∨ c = v)) ∧
    (∀ v, ∃ d, (s.hwWrite (.divider v)).SameBut { s with
        hw := { s.hw with div := d, engine := .busy snap.spoiled, overlap := true } } ∧
      (d = s.hw.div ∨ d = v)) ∧
    (∀ (k : Fin 8) v, ∃ x, (s.hwWrite (.data k v)).SameBut { s with
        hw := { s.hw with data := s.hw.data.set k x, engine := .busy snap.spoiled, overlap := true } } ∧
      (x = s.hw.data[k] ∨ x = v)) ∧
    (∀ m, s.hwWrite (.ss m) = { s with hw := { s.hw with ss := m } })

/-- R143, R144, R146, R147: while Idle a CTRL write with bit 8 = 0 stores the value and starts nothing, one with
bit 8 = 1 stores it and starts a transfer of its fields, and a write of DATAk or DIVIDER stores its value; a write
of SS stores in either engine state; nothing else changes. -/
def Obligations.IdleWritesStore : Prop :=
  ∀ s : State,
    (s.hw.engine = .idle →
      (∀ v : CtrlWord, v.getLsbD 8 = false → s.hwWrite (.ctrl v) = { s with hw := { s.hw with ctrl := v } }) ∧
      (∀ v : CtrlWord, v.getLsbD 8 = true → (s.hwWrite (.ctrl v)).SameBut { s with
        hw := { s.hw with
          ctrl := v,
          engine := .busy { data := s.hw.data, dataLen := v.extractLsb' 0 8, rxNeg := v.getLsbD 9,
                            txNeg := v.getLsbD 10, lsbFirst := v.getLsbD 11, ass := v.getLsbD 13, div := s.hw.div,
                            ss := s.hw.ss, corrupt := false } } }) ∧
      (∀ (k : Fin 8) v, ∃ data, s.hwWrite (.data k v) = { s with hw := { s.hw with data := data } } ∧
        data[k] = v ∧ ∀ j : Fin 8, j ≠ k → data[j] = s.hw.data[j]) ∧
      (∀ v, s.hwWrite (.divider v) = { s with hw := { s.hw with div := v } })) ∧
    (∀ m, s.hwWrite (.ss m) = { s with hw := { s.hw with ss := m } })

/-- R149: completion is enabled exactly when Busy: it appends the transfer's record, with its bits Unspecified if
it was overlapped, and the engine becomes Idle. -/
def Obligations.CompletionAppendsRecord : Prop :=
  ∀ s : State,
    (s.hw.engine = .idle → s.complete = s) ∧
    (∀ snap, s.hw.engine = .busy snap → s.complete = { s with
      wire := s.wire ++ [
        { mosi := if snap.corrupt = true then .unspecified else serialise snap,
          dataLen := snap.dataLen, rxNeg := snap.rxNeg, txNeg := snap.txNeg, lsbFirst := snap.lsbFirst,
          ass := snap.ass, ssLines := snap.ssLines, div := snap.div, aborted := false }],
      hw := { s.hw with engine := .idle } })

/-- R150: the bits of a transfer of N bits, 1 to 128, in time order: bit N-1 first when MSB first, bit 0 first
when LSB first, where bit i is bit (i mod 16) of slot (i div 16); N = 0 and N above 128 are Unspecified. -/
def Obligations.SerialiseOrdersBits : Prop :=
  ∀ snap : Snap,
    (snap.dataLen.toNat = 0 ∨ 128 < snap.dataLen.toNat → serialise snap = .unspecified) ∧
    (0 < snap.dataLen.toNat → snap.dataLen.toNat ≤ 128 → ∃ line, serialise snap = .bits line ∧
      line.length = snap.dataLen.toNat ∧
      ∀ (i : Nat) (slot : Fin 8) (bit : Nat), i < snap.dataLen.toNat → bit < 16 → i = slot.val * 16 + bit →
        line.getD (if snap.lsbFirst = true then i else snap.dataLen.toNat - 1 - i) false =
          snap.data[slot].getLsbD bit)

/-- R153, R154: BUSY reads 1 when Busy and 0 when Idle; CTRL reads `hw.ctrl` with bit 8 the busy state; DIVIDER
and SS read their contents; DATAk and RESET read a value of their width; no read changes the machine. -/
def Obligations.ReadsReturnPeripheralState : Prop :=
  ∀ s : State,
    (s.readReg .busy).1 = (if s.hw.engine = Engine.idle then 0 else 1) ∧
    (∀ k < 14, (s.readReg .ctrl).1.testBit k =
      if k = 8 then decide (s.hw.engine ≠ .idle) else s.hw.ctrl.getLsbD k) ∧
    (s.readReg .divider).1 = s.hw.div ∧ (s.readReg .ss).1 = s.hw.ss.toNat ∧
    (∀ k, (s.readReg (.data k)).1 < 2 ^ 16) ∧ (s.readReg .reset).1 < 2 ∧
    ∀ r, (s.readReg r).2.SameBut s

/-- R152: with ass = 0 the lines are the mask, as levels while a transfer is in flight; with ass = 1 they are
AUTO_SS_LINES of the mask; the records carry them. -/
def Obligations.SlaveLinesFollowAss : Prop :=
  ∀ snap : Snap,
    (snap.ass = false → snap.ssLines = snap.ss ∧ ∀ hw : Hw, hw.engine = .busy snap → hw.slaveLines = hw.ss) ∧
    (snap.ass = true → snap.ssLines = Config.autoSsLines snap.ss) ∧
    snap.completedRecord.ssLines = snap.ssLines ∧ snap.abortedRecord.ssLines = snap.ssLines

/-! ### Transactions -/

/-- R170: ENCODE of operands in range returns d * 32768 + a * 256 + p and changes no other state; operands out of
range are refused as OperandRange. -/
def Obligations.EncodeBuildsTheFrame : Prop :=
  ∀ (d a p : Int) (s : State),
    ((d = 0 ∨ d = 1) ∧ (0 ≤ a ∧ a ≤ 0x7F) ∧ (0 ≤ p ∧ p ≤ 0xFF) → ∃ w : Frame,
      exec (.encodeFrame d a p) s = .next (s.ended (.ok (.word w))) ∧ (w.toNat : Int) = d * 32768 + a * 256 + p) ∧
    (¬((d = 0 ∨ d = 1) ∧ (0 ≤ a ∧ a ≤ 0x7F) ∧ (0 ≤ p ∧ p ≤ 0xFF)) →
      exec (.encodeFrame d a p) s = .refused (.operandRange d a p s.trace))

/-- R171, R144: the first TRANSMIT of a run (goBusy = 0, engine Idle): ten writes, of which only the last starts
the transfer, of the frame in slot 0 and the shadow's other slots. -/
def Obligations.FirstTransmitStartsOneTransfer : Prop :=
  ∀ (w : Slot) (s : State), s.shadow.goBusy = false → s.tick.hw.engine = .idle → s.LinkCarries transmitRegs →
    ∃ t, exec (.transmit w.toNat) s = .next t ∧
      t.SameBut (State.ended (.ok .unit) { s.tick with
        shadow := s.shadow.transmitted w,
        hw := { s.tick.hw with
          ctrl := ({ s.shadow with goBusy := true } : Shadow).ctrlWord,
          data := s.shadow.bank.set 0 w,
          engine := .busy { s.tick.hw.snapOf s.shadow with data := s.shadow.bank.set 0 w } },
        trace := s.trace ++ transmitEvents w s.shadow })

/-- R171, R58: whatever the engine does, a TRANSMIT of a word that fits issues its ten writes in order and leaves
the shadow with the word in slot 0 and goBusy = 1; a word that does not fit raises RangeError and has no
effect. -/
def Obligations.TransmitWritesUnderEverySchedule : Prop :=
  (∀ (w : Slot) (s : State), s.LinkCarries transmitRegs →
    ∃ t, exec (.transmit w.toNat) s = .next t ∧ t.shadow = s.shadow.transmitted w ∧
      t.trace = s.trace ++ transmitEvents w s.shadow ∧ t.results = s.results ++ [.ok .unit] ∧
      t.opIndex = s.opIndex + 1) ∧
  (∀ (v : Int) (s : State), v < 0 ∨ 2 ^ 16 ≤ v →
    exec (.transmit v) s = .next (s.ended (.err (.range .slotWidth 0))))

/-- R171, R206, R43: a TRANSMIT whose k-th of ten writes fails, whatever the engine does, has done the writes
before it and issues none after it. The word is in shadow slot 0; goBusy is set by START only, so only a failure
of the tenth write finds it set. -/
def Obligations.TransmitFailureIsPrecise : Prop :=
  ∀ (w : Slot) (k : Nat) (r : Reg) (s : State), transmitRegs[k]? = some r → s.LinkCarries (transmitRegs.take k) →
    (r ∉ s.registerMap ∨ s.linkOk = some k) →
    ∃ t, exec (.transmit w.toNat) s = .next t ∧
      t.trace = s.trace ++ (transmitEvents w s.shadow).take k ++ [.failed r] ∧
      t.shadow = { s.shadow with bank := s.shadow.bank.set 0 w, goBusy := if k = 9 then true else s.shadow.goBusy } ∧
      t.results = s.results ++ [.err (.transport r)] ∧ t.opIndex = s.opIndex + 1

/-- R235: a later TRANSMIT (goBusy = 1) on an Idle engine never sends its frame exactly once without overlap:
either START's write overlaps the transfer that the pre-start write began, or that transfer has completed and a
second one of the same frame is in flight. -/
def Obligations.LaterTransmitOverlapsOrRepeats : Prop :=
  ∀ (w : Slot) (s : State), s.shadow.goBusy = true → s.tick.hw.engine = .idle → s.LinkCarries transmitRegs →
    ∃ (t : State) (snap : Snap), exec (.transmit w.toNat) s = .next t ∧
      snap = { s.tick.hw.snapOf s.shadow with data := s.shadow.bank.set 0 w } ∧
      (t.hw.engine = .busy snap.spoiled ∧ t.hw.overlap = true ∧ t.wire = s.tick.wire ∨
       t.hw.engine = .busy snap ∧ t.hw.overlap = s.hw.overlap ∧ t.wire = s.tick.wire ++ [snap.completedRecord])

/-- R236, R145: a TRANSMIT issued while a transfer is in flight that outlasts its ten writes (by the scheduling
points of log 4) spoils that transfer, sets the overlap flag and starts none of its own: CTRL and each data register
hold an old or a written value, and no record is appended. -/
def Obligations.BackToBackTransmitSpoilsTransfer : Prop :=
  ∀ (w : Slot) (s : State) (snap : Snap), s.hw.engine = .busy snap → 10 ≤ s.ticksLeft →
    s.LinkCarries transmitRegs →
    ∃ t c data, exec (.transmit w.toNat) s = .next t ∧
      t.SameBut (State.ended (.ok .unit) { s with
        shadow := s.shadow.transmitted w,
        hw := { s.hw with ctrl := c, data := data, engine := .busy snap.spoiled, overlap := true },
        trace := s.trace ++ transmitEvents w s.shadow }) ∧
      (c = s.hw.ctrl ∨ c = s.shadow.ctrlWord ∨ c = ({ s.shadow with goBusy := true } : Shadow).ctrlWord) ∧
      ∀ j : Fin 8, data[j] = s.hw.data[j] ∨ data[j] = (s.shadow.bank.set 0 w)[j]

/-- R51, R150: with dataLen = 16, MSB first, the transfer that a first TRANSMIT starts puts the frame on the wire
whole, bit 15 (the direction bit) first. -/
def Obligations.FirstTransmitSendsFrameMsbFirst : Prop :=
  ∀ (w : Slot) (s : State), s.shadow.goBusy = false → s.tick.hw.engine = .idle → s.LinkCarries transmitRegs →
    s.shadow.dataLen = 16 → s.shadow.lsbFirst = false →
    ∃ (t : State) (r : WireRecord), exec (.transmit w.toNat) s = .next t ∧
      t.complete.wire = s.tick.wire ++ [r] ∧ t.complete.hw.engine = .idle ∧ r.aborted = false ∧
      r.mosi = .bits ((List.range 16).map fun i => w.getLsbD (15 - i))

/-- R73, R80, R173 (log 2): every frame row sends its frame, read or write, exactly as TRANSMIT of that word does,
and from an Idle engine with goBusy = 0 completes with the ten writes and that word in the transfer's slot 0. -/
def Obligations.FrameRowsTransmitTheirFrame : Prop :=
  ∀ (i : Instr) (w : Frame) (s : State), tableFrame i = some w →
    exec i s = exec (.transmit w.toNat) s ∧
    (s.shadow.goBusy = false → s.tick.hw.engine = .idle → s.LinkCarries transmitRegs →
      ∃ t snap, exec i s = .next t ∧ t.trace = s.trace ++ transmitEvents w s.shadow ∧
        t.shadow = s.shadow.transmitted w ∧ t.hw.engine = .busy snap ∧ snap.data = s.shadow.bank.set 0 w ∧
        t.results = s.results ++ [.ok .unit])

/-- R190, R193: under every schedule a CFGPIXEL with payloads in range sends its three frames in order, thirty
writes, each a whole TRANSMIT from the shadow the one before it left. -/
def Obligations.CfgPixelSendsThreeFrames : Prop :=
  ∀ (addr h we pe m : Nat) (lo : Byte) (s : State), pixelSum h we pe m < 256 →
    s.LinkCarries (transmitRegs ++ transmitRegs ++ transmitRegs) →
    ∃ (t : State) (f1 f2 f3 : Frame), exec (.cfgPixel addr h lo.toNat we pe m) s = .next t ∧
      f1.toNat = 0x2000 + addr % 256 ∧ f2.toNat = 0x2100 + lo.toNat ∧ f3.toNat = 0x2200 + pixelSum h we pe m ∧
      t.trace = s.trace ++ transmitEvents f1 s.shadow ++ transmitEvents f2 (s.shadow.transmitted f1) ++
        transmitEvents f3 ((s.shadow.transmitted f1).transmitted f2) ∧
      t.trace.length = s.trace.length + 30 ∧
      t.shadow = ((s.shadow.transmitted f1).transmitted f2).transmitted f3 ∧
      t.results = s.results ++ [.ok .unit] ∧ t.opIndex = s.opIndex + 1

/-- R190, R191, R207: where CFGPIXEL is refused: a negative address before any write, dacLow8 out of range after
the first transaction, a third payload above 0xFF after the second; the refusal shows the writes sent before. A
negative operand of the third payload is refused at that point too (log 15). -/
def Obligations.CfgPixelRefusalsComeAfterTheirWrites : Prop :=
  ∀ (addr h lo we pe m : Int) (s : State),
    (addr < 0 → exec (.cfgPixel addr h lo we pe m) s = .refused (.negativePixelOperand [addr] s.trace)) ∧
    (0 ≤ addr → lo < 0 ∨ 0xFF < lo → s.LinkCarries transmitRegs → ∃ f1 : Frame,
      (f1.toNat : Int) = 0x2000 + addr % 256 ∧
      exec (.cfgPixel addr h lo we pe m) s =
        .refused (.operandRange 0 0x21 lo (s.trace ++ transmitEvents f1 s.shadow))) ∧
    (0 ≤ addr → 0 ≤ lo ∧ lo ≤ 0xFF → s.LinkCarries (transmitRegs ++ transmitRegs) → ∃ f1 f2 : Frame,
      (f1.toNat : Int) = 0x2000 + addr % 256 ∧ (f2.toNat : Int) = 0x2100 + lo ∧
      (0 ≤ h ∧ 0 ≤ we ∧ 0 ≤ pe ∧ 0 ≤ m → 255 < pixelSum h.toNat we.toNat pe.toNat m.toNat →
        exec (.cfgPixel addr h lo we pe m) s =
          .refused (.operandRange 0 0x22 (pixelSum h.toNat we.toNat pe.toNat m.toNat)
            (s.trace ++ transmitEvents f1 s.shadow ++ transmitEvents f2 (s.shadow.transmitted f1)))) ∧
      (h < 0 ∨ we < 0 ∨ pe < 0 ∨ m < 0 →
        exec (.cfgPixel addr h lo we pe m) s =
          .refused (.negativePixelOperand [h, we, pe, m]
            (s.trace ++ transmitEvents f1 s.shadow ++ transmitEvents f2 (s.shadow.transmitted f1)))))

/-! ### The whole machine -/

/-- R12, R58 (logs 1, 4, 18): a step runs the decoded current packet after one scheduling point of the peripheral;
a packet that does not decode is refused; with nothing issued only the peripheral acts; and a table word placed
for fetching is what the next step runs. -/
def Obligations.StepRunsTheDecodedPacket : Prop :=
  (∀ (s : State) (p : Packet) (rest : List Packet) (i : Instr),
    s.inbox = p :: rest → decode p = .ok i → step s = exec i s.tick) ∧
  (∀ (s : State) (p : Packet) (rest : List Packet) (e : DecodeError),
    s.inbox = p :: rest → decode p = .error e → step s = .refused (refuseDecode e)) ∧
  (∀ s : State, s.inbox = [] → step s = .next s.tick) ∧
  (∀ (s : State) (nbits w : Nat) (i : Instr), decodeTableWord nbits w = some i →
    step (s.withFetchWord nbits w) = exec i (s.withFetchWord nbits w).tick)

/-- R53, R145, R148 to R150, R21: the good states are closed under every step. -/
def Obligations.EveryStepKeepsTheInvariant : Prop :=
  ∀ s t : State, s.Inv → step s = .next t → t.Inv

/-- R22, R35: the state after initialization is a good state, whatever the open values are. Its idle engine and
clear overlap flag are the premise PeriphIdleAtLaunch (log 9), and that the operation index starts at 0, as many as
there are results, is the model's choice (log 29). -/
def Obligations.InitialStateIsGood : Prop :=
  State.reset.Inv ∧ State.reset.hw.engine = .idle ∧ State.reset.hw.overlap = false

/-- R24, R37: no step clears the shadow's goBusy or the overlap flag. -/
def Obligations.StickyFlagsStaySet : Prop :=
  ∀ s t : State, step s = .next t →
    (s.shadow.goBusy = true → t.shadow.goBusy = true) ∧ (s.hw.overlap = true → t.hw.overlap = true)

/-- R42: a step appends to the trace, the wire records and the results and clears none of them; the operation
index counts the appended results, and REGISTER_MAP is fixed. -/
def Obligations.ObservationsOnlyGrow : Prop :=
  ∀ s t : State, step s = .next t →
    (∃ es, t.trace = s.trace ++ es) ∧ (∃ ws, t.wire = s.wire ++ ws) ∧
    (∃ rs, t.results = s.results ++ rs ∧ t.opIndex = s.opIndex + rs.length ∧ rs.length ≤ 1) ∧
    t.registerMap = s.registerMap

/-- R43, R23, R24, R125: each shadow field is written only by its own operation, and goBusy only from 0 to 1. -/
def Obligations.ShadowWrittenOnlyByItsOperation : Prop :=
  ∀ (i : Instr) (s t : State), exec i s = .next t →
    (t.shadow.dataLen ≠ s.shadow.dataLen → ∃ n, i = .setDataLen n) ∧
    (t.shadow.rxNeg ≠ s.shadow.rxNeg → ∃ b, i = .setRxNeg b) ∧
    (t.shadow.txNeg ≠ s.shadow.txNeg → ∃ b, i = .setTxNeg b) ∧
    (t.shadow.lsbFirst ≠ s.shadow.lsbFirst → ∃ b, i = .setLsbFirst b) ∧
    (t.shadow.ie ≠ s.shadow.ie → ∃ b, i = .setIe b) ∧
    (t.shadow.ass ≠ s.shadow.ass → ∃ b, i = .setAss b) ∧
    (t.shadow.clkDiv ≠ s.shadow.clkDiv → ∃ v, i = .setDiv v) ∧
    (t.shadow.ssMask ≠ s.shadow.ssMask → ∃ m, i = .setSs m) ∧
    (t.shadow.bank ≠ s.shadow.bank → (∃ vs, i = .wrBank vs) ∨ sendsFrames i = true) ∧
    (t.shadow.goBusy ≠ s.shadow.goBusy →
      s.shadow.goBusy = false ∧ t.shadow.goBusy = true ∧ (i = .start ∨ sendsFrames i = true))

/-- R43, R145, R148: each hardware register is written only by the operations that name it, and the overlap flag
only set, by a write of CTRL, DIVIDER or DATAk. -/
def Obligations.HardwareWrittenOnlyByItsOperation : Prop :=
  ∀ (i : Instr) (s t : State), exec i s = .next t →
    (t.hw.div ≠ s.hw.div → (∃ v, i = .setDiv v) ∨ i = .reset) ∧
    (t.hw.ss ≠ s.hw.ss → (∃ m, i = .setSs m) ∨ i = .reset) ∧
    (t.hw.data ≠ s.hw.data → (∃ vs, i = .wrBank vs) ∨ i = .reset ∨ sendsFrames i = true) ∧
    (t.hw.ctrl ≠ s.hw.ctrl → i = .start ∨ i = .reset ∨ sendsFrames i = true ∨ writesCtrl i = true) ∧
    (t.hw.overlap ≠ s.hw.overlap → t.hw.overlap = true ∧
      ((∃ v, i = .setDiv v) ∨ (∃ vs, i = .wrBank vs) ∨ i = .start ∨ sendsFrames i = true ∨ writesCtrl i = true))

/-- R43, R107, R55: the setters and ENCODE leave the peripheral and the trace alone; ISBUSY and WAITIDLE leave the
peripheral as its scheduling point left it. -/
def Obligations.ShadowAndReadOperationsLeaveHardware : Prop :=
  ∀ (i : Instr) (s t : State), exec i s = .next t →
    ((∃ n, i = .setDataLen n) ∨ (∃ b, i = .setRxNeg b ∨ i = .setTxNeg b ∨ i = .setLsbFirst b ∨ i = .setIe b ∨
        i = .setAss b) ∨ (∃ d a p, i = .encodeFrame d a p) →
      t.hw = s.hw ∧ t.wire = s.wire ∧ t.trace = s.trace ∧ t.linkOk = s.linkOk) ∧
    (i = .isBusy ∨ i = .waitIdle →
      t.hw = s.tick.hw ∧ t.wire = s.tick.wire ∧ t.shadow = s.shadow)

/-- R202, R207: a RangeError, whichever operation raises it, leaves everything but the host result as it was. -/
def Obligations.RangeErrorsHaveNoEffect : Prop :=
  ∀ (i : Instr) (s t : State) (c : RangeCheck) (n : Int), exec i s = .next t →
    t.results = s.results ++ [.err (.range c n)] → t = s.ended (.err (.range c n))

/-- R203: no operation raises TypeError. -/
def Obligations.TypeErrorIsNeverRaised : Prop :=
  ∀ (i : Instr) (s t : State), exec i s = .next t → t.results ≠ s.results ++ [.err .typeError]

/-- R204, R206: TransportErrors are precise: an operation adds no X event at all, or exactly one, as its last
event, and then its result is the TransportError of that register. -/
def Obligations.TransportErrorsArePrecise : Prop :=
  ∀ (i : Instr) (s t : State), exec i s = .next t →
    ∃ es, (∀ e ∈ es, ∀ r, e ≠ .failed r) ∧
      (t.trace = s.trace ++ es ∧ (∀ r, t.results ≠ s.results ++ [.err (.transport r)]) ∨
       ∃ r, t.trace = s.trace ++ es ++ [.failed r] ∧ t.results = s.results ++ [.err (.transport r)])

/-- R46, R60, R69, R153: the core reads no register but BUSY and never writes BUSY, and every CTRL write has
its bits above 13 zero. Every value it reads from BUSY is 0 or 1: R153 says so of a model that includes the
peripheral, and that this model does is its choice (log 27). -/
def Obligations.CoreReadsOnlyBusy : Prop :=
  ∀ (i : Instr) (s t : State) (es : List BusEvent), exec i s = .next t → t.trace = s.trace ++ es →
    (∀ r v, .read r v ∈ es → r = .busy ∧ (v = 0 ∨ v = 1)) ∧
    (∀ r v, .write r v ∈ es → r ≠ .busy) ∧
    (∀ v, .write .ctrl v ∈ es → ∀ k, 14 ≤ k → v.testBit k = false)

/-- R242: only RESET aborts a transfer: every record that another operation lets be appended is of a completed
transfer. -/
def Obligations.OnlyResetAborts : Prop :=
  ∀ (i : Instr) (s t : State), exec i s = .next t → i ≠ .reset →
    ∃ ws, t.wire = s.wire ++ ws ∧ ∀ r ∈ ws, r.aborted = false

/-- R200, R205: every operation answers a next state, but for ENCODE and CFGPIXEL on operands out of range. -/
def Obligations.OnlyOperandRangeIsRefused : Prop :=
  ∀ (i : Instr) (s : State),
    (∃ t, exec i s = .next t) ∨
    (∃ r, exec i s = .refused r ∧
      ((∃ d a p, i = .encodeFrame d a p ∧ ¬((d = 0 ∨ d = 1) ∧ (0 ≤ a ∧ a ≤ 0x7F) ∧ (0 ≤ p ∧ p ≤ 0xFF))) ∨
       (∃ addr h lo we pe m, i = .cfgPixel addr h lo we pe m ∧
         (addr < 0 ∨ lo < 0 ∨ 0xFF < lo ∨ h < 0 ∨ we < 0 ∨ pe < 0 ∨ m < 0 ∨
           255 < pixelSum h.toNat we.toNat pe.toNat m.toNat))))

/-- R39, R58 and the P2 program of 95: what the core does is the same under every schedule. Two states that
differ only in the peripheral, its records and its schedule, and in later free values, give every operation that
does not read BUSY the same outcome: the same trace, shadow and result, or the same refusal. -/
def Obligations.CoreIsBlindToThePeripheral : Prop :=
  ∀ (i : Instr) (s s' : State), i ≠ .isBusy → i ≠ .waitIdle → s.SameCore s' → s.linkOk = s'.linkOk →
    (∃ t t', exec i s = .next t ∧ exec i s' = .next t' ∧ t.SameCore t') ∨
    (∃ r, exec i s = .refused r ∧ exec i s' = .refused r)

/-! ### Scheduling points, and operations that meet a transfer in flight -/

/-- R142, R149, R155 (log 4): a scheduling point, in terms of which the other statements are given: it does nothing
while Idle, completes a transfer that is due, and otherwise only counts down. So a transfer in flight completes after
finitely many scheduling points, and not before. -/
def Obligations.SchedulingPointsEndTheTransfer : Prop :=
  ∀ s : State,
    (s.hw.engine = .idle → s.tick = s) ∧
    (∀ snap, s.hw.engine = .busy snap →
      (s.ticksLeft = 0 → s.tick = s.complete) ∧
      (0 < s.ticksLeft → s.tick = { s with ticksLeft := s.ticksLeft - 1 }) ∧
      (∀ n ≤ s.ticksLeft, State.tick^[n] s = { s with ticksLeft := s.ticksLeft - n }) ∧
      ∀ n > s.ticksLeft, State.tick^[n] s = { s.complete with ticksLeft := 0 })

/-- R122, R145, R149: WRBANK with a transfer in flight (and `s.ticksLeft` scheduling points before the one that
completes it, log 4): the registers written before completion are overlapped and hold an old or a new value, the
others hold their new one. A transfer that outlasts the eight writes stays in flight, spoiled; one that does not ends
with its spoiled record; neither starts another. -/
def Obligations.WrBankDuringTransfer : Prop :=
  ∀ (b : Bank) (s : State) (snap : Snap), s.hw.engine = .busy snap → 0 < s.ticksLeft → s.LinkCarries dataRegs →
    ∃ t data, exec (.wrBank (bankInts b)) s = .next t ∧
      (∀ j : Fin 8, data[j] = b[j] ∨ j.val < s.ticksLeft ∧ data[j] = s.hw.data[j]) ∧
      (8 ≤ s.ticksLeft → t.SameBut (State.ended (.ok .unit) { s with
        shadow := { s.shadow with bank := b },
        hw := { s.hw with data := data, engine := .busy snap.spoiled, overlap := true },
        trace := s.trace ++ bankEvents b })) ∧
      (s.ticksLeft < 8 → t.SameBut (State.ended (.ok .unit) { s with
        shadow := { s.shadow with bank := b },
        hw := { s.hw with data := data, engine := .idle, overlap := true },
        wire := s.wire ++ [snap.spoiled.completedRecord],
        trace := s.trace ++ bankEvents b }))

/-- R122, R145, R206, R50: a WRBANK whose k-th write fails with a transfer in flight (log 4): data registers before k
as above, those after k unchanged, register k at its old or its new value. The transfer is spoiled by any write that
reached the peripheral before its end; only if the first write fails and did not reach it is it untouched. -/
def Obligations.WrBankFailureDuringTransfer : Prop :=
  ∀ (b : Bank) (k : Fin 8) (s : State) (snap : Snap), s.hw.engine = .busy snap → 0 < s.ticksLeft →
    s.LinkCarries (dataRegs.take k) → (.data k ∉ s.registerMap ∨ s.linkOk = some k.val) →
    ∃ t h ws, exec (.wrBank (bankInts b)) s = .next t ∧
      t.SameBut (State.ended (.err (.transport (.data k))) { s with
        shadow := { s.shadow with bank := b }, hw := h, wire := s.wire ++ ws,
        trace := s.trace ++ (bankEvents b).take k ++ [.failed (.data k)] }) ∧
      (∀ j : Fin 8, j < k → h.data[j] = b[j] ∨ j.val < s.ticksLeft ∧ h.data[j] = s.hw.data[j]) ∧
      (∀ j : Fin 8, k < j → h.data[j] = s.hw.data[j]) ∧ (h.data[k] = b[k] ∨ h.data[k] = s.hw.data[k]) ∧
      (k.val < s.ticksLeft → ws = [] ∧
        (h = { s.hw with data := h.data, engine := .busy snap.spoiled, overlap := true } ∨ k = 0 ∧ h = s.hw)) ∧
      (s.ticksLeft ≤ k → ws = [snap.spoiled.completedRecord] ∧
        h = { s.hw with data := h.data, engine := .idle, overlap := true })

/-- R171, R145, R149, R144: a TRANSMIT with a transfer in flight that ends between two of its ten writes (log 4). That
transfer is spoiled and leaves its record; the data registers written before its end hold an old or a new value, the
others their new one. Then the TRANSMIT starts a transfer of what the registers hold: by START's write alone if goBusy
was 0 or only START's write is left, else by the pre-start write, which START's write overlaps or, if that transfer
has ended too, follows with a second one of the same data. -/
def Obligations.TransmitMeetsEndingTransfer : Prop :=
  ∀ (w : Slot) (s : State) (snap : Snap), s.hw.engine = .busy snap → 0 < s.ticksLeft → s.ticksLeft < 10 →
    s.LinkCarries transmitRegs →
    ∃ (t : State) (data : Bank) (new running : Snap) (ws : List WireRecord), exec (.transmit w.toNat) s = .next t ∧
      t.SameBut (State.ended (.ok .unit) { s with
        shadow := s.shadow.transmitted w,
        hw := { s.hw with
          ctrl := ({ s.shadow with goBusy := true } : Shadow).ctrlWord,
          data := data,
          engine := .busy running,
          overlap := true },
        wire := s.wire ++ [snap.spoiled.completedRecord] ++ ws,
        trace := s.trace ++ transmitEvents w s.shadow }) ∧
      (∀ j : Fin 8, data[j] = (s.shadow.bank.set 0 w)[j] ∨ j.val < s.ticksLeft ∧ data[j] = s.hw.data[j]) ∧
      new = { s.hw.snapOf s.shadow with data := data } ∧
      (s.shadow.goBusy = false ∨ s.ticksLeft = 9 → running = new ∧ ws = []) ∧
      (s.shadow.goBusy = true → s.ticksLeft < 9 →
        running = new.spoiled ∧ ws = [] ∨ running = new ∧ ws = [new.completedRecord])

/-- R190, R192, R207, R204: a CFGPIXEL of which a write fails, whatever the engine does: the k-th write of its first,
second or third transaction. The transactions before it stay sent, no later write is issued, and the result is the
TransportError, whatever the operands of later transactions, which would be refused, are. -/
def Obligations.CfgPixelFailureIsPrecise : Prop :=
  ∀ (addr h lo we pe m : Int) (k : Nat) (r : Reg) (s : State), transmitRegs[k]? = some r → 0 ≤ addr →
    (s.LinkCarries (transmitRegs.take k) → (r ∉ s.registerMap ∨ s.linkOk = some k) →
      ∃ (t : State) (f1 : Frame), exec (.cfgPixel addr h lo we pe m) s = .next t ∧
        (f1.toNat : Int) = 0x2000 + addr % 256 ∧
        t.shadow = s.shadow.cutOff f1 k ∧ t.trace = s.trace ++ cutOffEvents f1 k r s.shadow ∧
        t.results = s.results ++ [.err (.transport r)] ∧ t.opIndex = s.opIndex + 1) ∧
    (0 ≤ lo ∧ lo ≤ 0xFF → s.LinkCarries (transmitRegs ++ transmitRegs.take k) → s.linkOk = some (10 + k) →
      ∃ (t : State) (f1 f2 : Frame), exec (.cfgPixel addr h lo we pe m) s = .next t ∧
        (f1.toNat : Int) = 0x2000 + addr % 256 ∧ (f2.toNat : Int) = 0x2100 + lo ∧
        t.shadow = (s.shadow.transmitted f1).cutOff f2 k ∧
        t.trace = s.trace ++ transmitEvents f1 s.shadow ++ cutOffEvents f2 k r (s.shadow.transmitted f1) ∧
        t.results = s.results ++ [.err (.transport r)] ∧ t.opIndex = s.opIndex + 1) ∧
    (0 ≤ lo ∧ lo ≤ 0xFF → 0 ≤ h ∧ 0 ≤ we ∧ 0 ≤ pe ∧ 0 ≤ m →
      pixelSum h.toNat we.toNat pe.toNat m.toNat < 256 →
      s.LinkCarries (transmitRegs ++ transmitRegs ++ transmitRegs.take k) → s.linkOk = some (20 + k) →
      ∃ (t : State) (f1 f2 f3 : Frame), exec (.cfgPixel addr h lo we pe m) s = .next t ∧
        (f1.toNat : Int) = 0x2000 + addr % 256 ∧ (f2.toNat : Int) = 0x2100 + lo ∧
        f3.toNat = 0x2200 + pixelSum h.toNat we.toNat pe.toNat m.toNat ∧
        t.shadow = ((s.shadow.transmitted f1).transmitted f2).cutOff f3 k ∧
        t.trace = s.trace ++ transmitEvents f1 s.shadow ++ transmitEvents f2 (s.shadow.transmitted f1) ++
          cutOffEvents f3 k r ((s.shadow.transmitted f1).transmitted f2) ∧
        t.results = s.results ++ [.err (.transport r)] ∧ t.opIndex = s.opIndex + 1)
end

