-- ==== Sys2Proof/Laws/Bits.lean ====
section
/-! SUPPORT. The bits and the integers of the packing formulas (R70, R73, R76). -/

namespace Sys2Proof.Machine

open Sys2Proof

/-- A Boolean shifted to bit `k` is that bit alone. -/
theorem bitAt_getLsbD (n k i : Nat) (b : Bool) (hk : k < n) : (bitAt n k b).getLsbD i = (decide (i = k) && b) := by
  simp only [bitAt, BitVec.getLsbD_shiftLeft, BitVec.getLsbD_setWidth, BitVec.getLsbD_ofBool]
  by_cases h : i = k
  · subst h; simp [-BitVec.getLsbD_eq_getElem, hk]; intro _; omega
  · have : i < k ∨ k < i := by omega
    rcases this with h' | h'
    · simp [-BitVec.getLsbD_eq_getElem, h, h']
    · simp only [h]; simp; omega

/-- The bits of the control word (R70). -/
theorem pack_getLsbD (a b c d e f : Bool) (x : Byte) (i : Nat) : (pack a b c d e f x).getLsbD i =
    if i = 13 then a else if i = 12 then b else if i = 11 then c else if i = 10 then d else if i = 9 then e
    else if i = 8 then f else x.getLsbD i := by
  simp only [pack, BitVec.getLsbD_or, bitAt_getLsbD _ _ _ _ (by omega : 13 < 14), bitAt_getLsbD _ _ _ _ (by omega : 12 < 14),
   bitAt_getLsbD _ _ _ _ (by omega : 11 < 14), bitAt_getLsbD _ _ _ _ (by omega : 10 < 14), bitAt_getLsbD _ _ _ _ (by omega : 9 < 14),
   bitAt_getLsbD _ _ _ _ (by omega : 8 < 14), BitVec.getLsbD_setWidth]
  have hx : ∀ j, 8 ≤ j → x.getLsbD j = false := fun j hj => BitVec.getLsbD_of_ge x j hj
  by_cases h13 : i = 13
  · subst h13; simp [-BitVec.getLsbD_eq_getElem]
  by_cases h12 : i = 12
  · subst h12; simp [-BitVec.getLsbD_eq_getElem]
  by_cases h11 : i = 11
  · subst h11; simp [-BitVec.getLsbD_eq_getElem]
  by_cases h10 : i = 10
  · subst h10; simp [-BitVec.getLsbD_eq_getElem]
  by_cases h9 : i = 9
  · subst h9; simp [-BitVec.getLsbD_eq_getElem]
  by_cases h8 : i = 8
  · subst h8; simp [-BitVec.getLsbD_eq_getElem]
  simp [-BitVec.getLsbD_eq_getElem, h13,h12,h11,h10,h9,h8]
  intro h; exact Nat.lt_of_lt_of_le (BitVec.lt_of_getLsbD h) (by omega)

/-- The low byte of the control word is dataLen (R69). -/
theorem pack_dataLen (a b c d e f : Bool) (x : Byte) : (pack a b c d e f x).extractLsb' 0 8 = x := by
  apply BitVec.eq_of_getLsbD_eq; intro i hi
  simp [-BitVec.getLsbD_eq_getElem, BitVec.getLsbD_extractLsb', hi, pack_getLsbD, show i ≠ 13 by omega, show i ≠ 12 by omega, show i ≠ 11 by omega, show i ≠ 10 by omega, show i ≠ 9 by omega, show i ≠ 8 by omega]

/-- The bits of a frame (R73). -/
theorem frame_getLsbD (d : Bool) (a : BitVec 7) (p : Byte) (i : Nat) : (frame d a p).getLsbD i =
    if i = 15 then d else if i < 8 then p.getLsbD i else a.getLsbD (i - 8) := by
  simp only [frame, BitVec.getLsbD_or, bitAt_getLsbD _ _ _ _ (by omega : 15 < 16), BitVec.getLsbD_setWidth, BitVec.getLsbD_shiftLeft]
  have hp : ∀ j, 8 ≤ j → p.getLsbD j = false := fun j hj => BitVec.getLsbD_of_ge p j hj
  have ha : ∀ j, 7 ≤ j → a.getLsbD j = false := fun j hj => BitVec.getLsbD_of_ge a j hj
  by_cases h : i = 15
  · subst h; simp [-BitVec.getLsbD_eq_getElem]
  · by_cases h8 : i < 8
    · simp [-BitVec.getLsbD_eq_getElem, h, h8]; intro; omega
    · by_cases h16 : i < 16
      · simp [-BitVec.getLsbD_eq_getElem, h, h8, h16, hp i (by omega)]; intro; omega
      · simp [-BitVec.getLsbD_eq_getElem, h, h8, h16, hp i (by omega), ha (i-8) (by omega)]

/-- The address field of a frame (R73). -/
theorem frame_addr (d : Bool) (a : BitVec 7) (p : Byte) : (frame d a p).extractLsb' 8 7 = a := by
  apply BitVec.eq_of_getLsbD_eq; intro i hi
  simp [-BitVec.getLsbD_eq_getElem, BitVec.getLsbD_extractLsb', hi, frame_getLsbD, show 8 + i ≠ 15 by omega]

/-- The payload field of a frame (R73). -/
theorem frame_payload (d : Bool) (a : BitVec 7) (p : Byte) : (frame d a p).extractLsb' 0 8 = p := by
  apply BitVec.eq_of_getLsbD_eq; intro i hi
  simp [-BitVec.getLsbD_eq_getElem, BitVec.getLsbD_extractLsb', frame_getLsbD, show i ≠ 15 by omega, hi]

/-- A frame as an integer (R73). -/
theorem frame_toNat (d : Bool) (a : BitVec 7) (p : Byte) :
    (frame d a p).toNat = d.toNat * 32768 + a.toNat * 256 + p.toNat := by
  have ha := a.isLt
  have hp := p.isLt
  have h1 : (bitAt 16 15 d).toNat = d.toNat <<< 15 := by cases d <;> rfl
  have h2 : (a.setWidth 16 <<< 8).toNat = a.toNat <<< 8 := by
    simp only [BitVec.toNat_shiftLeft, BitVec.toNat_setWidth]
    rw [Nat.mod_eq_of_lt (by omega : a.toNat < 2^16), Nat.mod_eq_of_lt (by rw [Nat.shiftLeft_eq]; omega)]
  have h3 : (p.setWidth 16).toNat = p.toNat := by
    simp only [BitVec.toNat_setWidth]; omega
  simp only [frame, BitVec.toNat_or, h1, h2, h3]
  have e1 : d.toNat <<< 15 ||| a.toNat <<< 8 = d.toNat <<< 15 + a.toNat <<< 8 :=
    (Nat.shiftLeft_add_eq_or_of_lt (by rw [Nat.shiftLeft_eq]; omega) _).symm
  rw [e1]
  have e2 : d.toNat <<< 15 + a.toNat <<< 8 = (d.toNat * 128 + a.toNat) <<< 8 := by
    simp only [Nat.shiftLeft_eq]; omega
  rw [e2, ← Nat.shiftLeft_add_eq_or_of_lt hp]
  simp only [Nat.shiftLeft_eq]; omega

/-- The bits of the pixel-control payload (R76). -/
theorem pixelByte_getLsbD (w e : Bool) (m : BitVec 2) (h : BitVec 4) (i : Nat) : (pixelByte w e m h).getLsbD i =
   if i = 7 then w else if i = 6 then e else if i < 4 then h.getLsbD i else m.getLsbD (i - 4) := by
  simp only [pixelByte, BitVec.getLsbD_or, bitAt_getLsbD _ _ _ _ (by omega : 7 < 8), bitAt_getLsbD _ _ _ _ (by omega : 6 < 8), BitVec.getLsbD_setWidth, BitVec.getLsbD_shiftLeft]
  have hp : ∀ j, 4 ≤ j → h.getLsbD j = false := fun j hj => BitVec.getLsbD_of_ge h j hj
  have ha : ∀ j, 2 ≤ j → m.getLsbD j = false := fun j hj => BitVec.getLsbD_of_ge m j hj
  by_cases h7 : i = 7
  · subst h7; simp [-BitVec.getLsbD_eq_getElem]
  by_cases h6 : i = 6
  · subst h6; simp [-BitVec.getLsbD_eq_getElem]
  by_cases h4 : i < 4
  · simp [-BitVec.getLsbD_eq_getElem, h7, h6, h4]; intro; omega
  by_cases h8 : i < 8
  · simp [-BitVec.getLsbD_eq_getElem, h7,h6,h4,h8, hp i (by omega)]; intro; omega
  · simp [-BitVec.getLsbD_eq_getElem, h7,h6,h4,h8, hp i (by omega), ha (i-4) (by omega)]

end Sys2Proof.Machine
end

