-- ==== Sys2Proof/Laws/State.lean ====
section
/-! SUPPORT. One lemma per field and plain update of the state, so that no proof unfolds a record update. -/

namespace Sys2Proof.Machine

@[simp] theorem State.setShadow_shadow (x : Shadow) (s : State) : (s.setShadow x).shadow = x := rfl
@[simp] theorem State.setShadow_hw (x : Shadow) (s : State) : (s.setShadow x).hw = s.hw := rfl
@[simp] theorem State.setShadow_wire (x : Shadow) (s : State) : (s.setShadow x).wire = s.wire := rfl
@[simp] theorem State.setShadow_trace (x : Shadow) (s : State) : (s.setShadow x).trace = s.trace := rfl
@[simp] theorem State.setShadow_results (x : Shadow) (s : State) : (s.setShadow x).results = s.results := rfl
@[simp] theorem State.setShadow_opIndex (x : Shadow) (s : State) : (s.setShadow x).opIndex = s.opIndex := rfl
@[simp] theorem State.setShadow_registerMap (x : Shadow) (s : State) : (s.setShadow x).registerMap = s.registerMap := rfl
@[simp] theorem State.setShadow_inbox (x : Shadow) (s : State) : (s.setShadow x).inbox = s.inbox := rfl
@[simp] theorem State.setShadow_linkOk (x : Shadow) (s : State) : (s.setShadow x).linkOk = s.linkOk := rfl
@[simp] theorem State.setShadow_ticksLeft (x : Shadow) (s : State) : (s.setShadow x).ticksLeft = s.ticksLeft := rfl
@[simp] theorem State.setShadow_drawn (x : Shadow) (s : State) : (s.setShadow x).drawn = s.drawn := rfl

@[simp] theorem State.setHw_shadow (x : Hw) (s : State) : (s.setHw x).shadow = s.shadow := rfl
@[simp] theorem State.setHw_hw (x : Hw) (s : State) : (s.setHw x).hw = x := rfl
@[simp] theorem State.setHw_wire (x : Hw) (s : State) : (s.setHw x).wire = s.wire := rfl
@[simp] theorem State.setHw_trace (x : Hw) (s : State) : (s.setHw x).trace = s.trace := rfl
@[simp] theorem State.setHw_results (x : Hw) (s : State) : (s.setHw x).results = s.results := rfl
@[simp] theorem State.setHw_opIndex (x : Hw) (s : State) : (s.setHw x).opIndex = s.opIndex := rfl
@[simp] theorem State.setHw_registerMap (x : Hw) (s : State) : (s.setHw x).registerMap = s.registerMap := rfl
@[simp] theorem State.setHw_inbox (x : Hw) (s : State) : (s.setHw x).inbox = s.inbox := rfl
@[simp] theorem State.setHw_linkOk (x : Hw) (s : State) : (s.setHw x).linkOk = s.linkOk := rfl
@[simp] theorem State.setHw_ticksLeft (x : Hw) (s : State) : (s.setHw x).ticksLeft = s.ticksLeft := rfl
@[simp] theorem State.setHw_drawn (x : Hw) (s : State) : (s.setHw x).drawn = s.drawn := rfl

@[simp] theorem State.addRecord_shadow (x : WireRecord) (s : State) : (s.addRecord x).shadow = s.shadow := rfl
@[simp] theorem State.addRecord_hw (x : WireRecord) (s : State) : (s.addRecord x).hw = s.hw := rfl
@[simp] theorem State.addRecord_wire (x : WireRecord) (s : State) : (s.addRecord x).wire = s.wire ++ [x] := rfl
@[simp] theorem State.addRecord_trace (x : WireRecord) (s : State) : (s.addRecord x).trace = s.trace := rfl
@[simp] theorem State.addRecord_results (x : WireRecord) (s : State) : (s.addRecord x).results = s.results := rfl
@[simp] theorem State.addRecord_opIndex (x : WireRecord) (s : State) : (s.addRecord x).opIndex = s.opIndex := rfl
@[simp] theorem State.addRecord_registerMap (x : WireRecord) (s : State) : (s.addRecord x).registerMap = s.registerMap := rfl
@[simp] theorem State.addRecord_inbox (x : WireRecord) (s : State) : (s.addRecord x).inbox = s.inbox := rfl
@[simp] theorem State.addRecord_linkOk (x : WireRecord) (s : State) : (s.addRecord x).linkOk = s.linkOk := rfl
@[simp] theorem State.addRecord_ticksLeft (x : WireRecord) (s : State) : (s.addRecord x).ticksLeft = s.ticksLeft := rfl
@[simp] theorem State.addRecord_drawn (x : WireRecord) (s : State) : (s.addRecord x).drawn = s.drawn := rfl

@[simp] theorem State.emit_shadow (xs : List BusEvent) (s : State) : (s.emit xs).shadow = s.shadow := rfl
@[simp] theorem State.emit_hw (xs : List BusEvent) (s : State) : (s.emit xs).hw = s.hw := rfl
@[simp] theorem State.emit_wire (xs : List BusEvent) (s : State) : (s.emit xs).wire = s.wire := rfl
@[simp] theorem State.emit_trace (xs : List BusEvent) (s : State) : (s.emit xs).trace = s.trace ++ xs := rfl
@[simp] theorem State.emit_results (xs : List BusEvent) (s : State) : (s.emit xs).results = s.results := rfl
@[simp] theorem State.emit_opIndex (xs : List BusEvent) (s : State) : (s.emit xs).opIndex = s.opIndex := rfl
@[simp] theorem State.emit_registerMap (xs : List BusEvent) (s : State) : (s.emit xs).registerMap = s.registerMap := rfl
@[simp] theorem State.emit_inbox (xs : List BusEvent) (s : State) : (s.emit xs).inbox = s.inbox := rfl
@[simp] theorem State.emit_linkOk (xs : List BusEvent) (s : State) : (s.emit xs).linkOk = s.linkOk := rfl
@[simp] theorem State.emit_ticksLeft (xs : List BusEvent) (s : State) : (s.emit xs).ticksLeft = s.ticksLeft := rfl
@[simp] theorem State.emit_drawn (xs : List BusEvent) (s : State) : (s.emit xs).drawn = s.drawn := rfl

@[simp] theorem State.answer_shadow (x : OpResult) (s : State) : (s.answer x).shadow = s.shadow := rfl
@[simp] theorem State.answer_hw (x : OpResult) (s : State) : (s.answer x).hw = s.hw := rfl
@[simp] theorem State.answer_wire (x : OpResult) (s : State) : (s.answer x).wire = s.wire := rfl
@[simp] theorem State.answer_trace (x : OpResult) (s : State) : (s.answer x).trace = s.trace := rfl
@[simp] theorem State.answer_results (x : OpResult) (s : State) : (s.answer x).results = s.results ++ [x] := rfl
@[simp] theorem State.answer_opIndex (x : OpResult) (s : State) : (s.answer x).opIndex = s.opIndex + 1 := rfl
@[simp] theorem State.answer_registerMap (x : OpResult) (s : State) : (s.answer x).registerMap = s.registerMap := rfl
@[simp] theorem State.answer_inbox (x : OpResult) (s : State) : (s.answer x).inbox = s.inbox.tail := rfl
@[simp] theorem State.answer_linkOk (x : OpResult) (s : State) : (s.answer x).linkOk = s.linkOk := rfl
@[simp] theorem State.answer_ticksLeft (x : OpResult) (s : State) : (s.answer x).ticksLeft = s.ticksLeft := rfl
@[simp] theorem State.answer_drawn (x : OpResult) (s : State) : (s.answer x).drawn = s.drawn := rfl

@[simp] theorem State.delivered_shadow (s : State) : (s.delivered).shadow = s.shadow := rfl
@[simp] theorem State.delivered_hw (s : State) : (s.delivered).hw = s.hw := rfl
@[simp] theorem State.delivered_wire (s : State) : (s.delivered).wire = s.wire := rfl
@[simp] theorem State.delivered_trace (s : State) : (s.delivered).trace = s.trace := rfl
@[simp] theorem State.delivered_results (s : State) : (s.delivered).results = s.results := rfl
@[simp] theorem State.delivered_opIndex (s : State) : (s.delivered).opIndex = s.opIndex := rfl
@[simp] theorem State.delivered_registerMap (s : State) : (s.delivered).registerMap = s.registerMap := rfl
@[simp] theorem State.delivered_inbox (s : State) : (s.delivered).inbox = s.inbox.tail := rfl
@[simp] theorem State.delivered_linkOk (s : State) : (s.delivered).linkOk = s.linkOk := rfl
@[simp] theorem State.delivered_ticksLeft (s : State) : (s.delivered).ticksLeft = s.ticksLeft := rfl
@[simp] theorem State.delivered_drawn (s : State) : (s.delivered).drawn = s.drawn := rfl

@[simp] theorem State.setLinkOk_shadow (n : Option Nat) (s : State) : (s.setLinkOk n).shadow = s.shadow := rfl
@[simp] theorem State.setLinkOk_hw (n : Option Nat) (s : State) : (s.setLinkOk n).hw = s.hw := rfl
@[simp] theorem State.setLinkOk_wire (n : Option Nat) (s : State) : (s.setLinkOk n).wire = s.wire := rfl
@[simp] theorem State.setLinkOk_trace (n : Option Nat) (s : State) : (s.setLinkOk n).trace = s.trace := rfl
@[simp] theorem State.setLinkOk_results (n : Option Nat) (s : State) : (s.setLinkOk n).results = s.results := rfl
@[simp] theorem State.setLinkOk_opIndex (n : Option Nat) (s : State) : (s.setLinkOk n).opIndex = s.opIndex := rfl
@[simp] theorem State.setLinkOk_registerMap (n : Option Nat) (s : State) : (s.setLinkOk n).registerMap = s.registerMap := rfl
@[simp] theorem State.setLinkOk_inbox (n : Option Nat) (s : State) : (s.setLinkOk n).inbox = s.inbox := rfl
@[simp] theorem State.setLinkOk_linkOk (n : Option Nat) (s : State) : (s.setLinkOk n).linkOk = n := rfl
@[simp] theorem State.setLinkOk_ticksLeft (n : Option Nat) (s : State) : (s.setLinkOk n).ticksLeft = s.ticksLeft := rfl
@[simp] theorem State.setLinkOk_drawn (n : Option Nat) (s : State) : (s.setLinkOk n).drawn = s.drawn := rfl

@[simp] theorem State.setTicks_shadow (n : Nat) (s : State) : (s.setTicks n).shadow = s.shadow := rfl
@[simp] theorem State.setTicks_hw (n : Nat) (s : State) : (s.setTicks n).hw = s.hw := rfl
@[simp] theorem State.setTicks_wire (n : Nat) (s : State) : (s.setTicks n).wire = s.wire := rfl
@[simp] theorem State.setTicks_trace (n : Nat) (s : State) : (s.setTicks n).trace = s.trace := rfl
@[simp] theorem State.setTicks_results (n : Nat) (s : State) : (s.setTicks n).results = s.results := rfl
@[simp] theorem State.setTicks_opIndex (n : Nat) (s : State) : (s.setTicks n).opIndex = s.opIndex := rfl
@[simp] theorem State.setTicks_registerMap (n : Nat) (s : State) : (s.setTicks n).registerMap = s.registerMap := rfl
@[simp] theorem State.setTicks_inbox (n : Nat) (s : State) : (s.setTicks n).inbox = s.inbox := rfl
@[simp] theorem State.setTicks_linkOk (n : Nat) (s : State) : (s.setTicks n).linkOk = s.linkOk := rfl
@[simp] theorem State.setTicks_ticksLeft (n : Nat) (s : State) : (s.setTicks n).ticksLeft = n := rfl
@[simp] theorem State.setTicks_drawn (n : Nat) (s : State) : (s.setTicks n).drawn = s.drawn := rfl

@[simp] theorem State.draw_shadow (s : State) : (s.draw).shadow = s.shadow := rfl
@[simp] theorem State.draw_hw (s : State) : (s.draw).hw = s.hw := rfl
@[simp] theorem State.draw_wire (s : State) : (s.draw).wire = s.wire := rfl
@[simp] theorem State.draw_trace (s : State) : (s.draw).trace = s.trace := rfl
@[simp] theorem State.draw_results (s : State) : (s.draw).results = s.results := rfl
@[simp] theorem State.draw_opIndex (s : State) : (s.draw).opIndex = s.opIndex := rfl
@[simp] theorem State.draw_registerMap (s : State) : (s.draw).registerMap = s.registerMap := rfl
@[simp] theorem State.draw_inbox (s : State) : (s.draw).inbox = s.inbox := rfl
@[simp] theorem State.draw_linkOk (s : State) : (s.draw).linkOk = s.linkOk := rfl
@[simp] theorem State.draw_ticksLeft (s : State) : (s.draw).ticksLeft = s.ticksLeft := rfl
@[simp] theorem State.draw_drawn (s : State) : (s.draw).drawn = s.drawn + 1 := rfl

@[simp] theorem State.place_shadow (p : Packet) (s : State) : (s.place p).shadow = s.shadow := rfl
@[simp] theorem State.place_hw (p : Packet) (s : State) : (s.place p).hw = s.hw := rfl
@[simp] theorem State.place_wire (p : Packet) (s : State) : (s.place p).wire = s.wire := rfl
@[simp] theorem State.place_trace (p : Packet) (s : State) : (s.place p).trace = s.trace := rfl
@[simp] theorem State.place_results (p : Packet) (s : State) : (s.place p).results = s.results := rfl
@[simp] theorem State.place_opIndex (p : Packet) (s : State) : (s.place p).opIndex = s.opIndex := rfl
@[simp] theorem State.place_registerMap (p : Packet) (s : State) : (s.place p).registerMap = s.registerMap := rfl
@[simp] theorem State.place_inbox (p : Packet) (s : State) : (s.place p).inbox = p :: s.inbox := rfl
@[simp] theorem State.place_linkOk (p : Packet) (s : State) : (s.place p).linkOk = s.linkOk := rfl
@[simp] theorem State.place_ticksLeft (p : Packet) (s : State) : (s.place p).ticksLeft = s.ticksLeft := rfl
@[simp] theorem State.place_drawn (p : Packet) (s : State) : (s.place p).drawn = s.drawn := rfl

@[simp] theorem State.carried_shadow (s : State) : (s.carried).shadow = s.shadow := rfl
@[simp] theorem State.carried_hw (s : State) : (s.carried).hw = s.hw := rfl
@[simp] theorem State.carried_wire (s : State) : (s.carried).wire = s.wire := rfl
@[simp] theorem State.carried_trace (s : State) : (s.carried).trace = s.trace := rfl
@[simp] theorem State.carried_results (s : State) : (s.carried).results = s.results := rfl
@[simp] theorem State.carried_opIndex (s : State) : (s.carried).opIndex = s.opIndex := rfl
@[simp] theorem State.carried_registerMap (s : State) : (s.carried).registerMap = s.registerMap := rfl
@[simp] theorem State.carried_inbox (s : State) : (s.carried).inbox = s.inbox := rfl
@[simp] theorem State.carried_linkOk (s : State) : (s.carried).linkOk = linkAfter 1 s.linkOk := rfl
@[simp] theorem State.carried_ticksLeft (s : State) : (s.carried).ticksLeft = s.ticksLeft := rfl
@[simp] theorem State.carried_drawn (s : State) : (s.carried).drawn = s.drawn := rfl

end Sys2Proof.Machine
end

