-- ==== Sys2Proof/Laws/Ops.lean ====
section
/-! SUPPORT. For each shared operation, what it can do: scheduling points, the Register Link calls, the reactions of
the peripheral, operand checks and sequences of writes. -/

namespace Sys2Proof.Machine

open Sys2Proof

variable {s t u : State}

/-! ### Scheduling points (R149, R155) -/

/-- Completion is not enabled while Idle. -/
theorem State.complete_of_idle (h : s.hw.engine = .idle) : s.complete = s := by
  simp [State.complete, h]

/-- Completion appends the record and makes the engine Idle. -/
theorem State.complete_of_busy {snap : Snap} (h : s.hw.engine = .busy snap) :
    s.complete = (s.addRecord snap.completedRecord).setHw { s.hw with engine := .idle } := by
  simp [State.complete, h]

/-- A scheduling point changes nothing while Idle. -/
theorem State.tick_of_idle (h : s.hw.engine = .idle) : s.tick = s := by
  simp [State.tick, h]

/-- A transfer that is not due waits. -/
theorem State.tick_of_later {snap : Snap} (h : s.hw.engine = .busy snap) (hn : 0 < s.ticksLeft) :
    s.tick = s.setTicks (s.ticksLeft - 1) := by
  simp [State.tick, h, Nat.ne_of_gt hn]

/-- A transfer that is due completes. -/
theorem State.tick_of_due {snap : Snap} (h : s.hw.engine = .busy snap) (hn : s.ticksLeft = 0) :
    s.tick = (s.addRecord snap.completedRecord).setHw { s.hw with engine := .idle } := by
  simp [State.tick, State.complete, h, hn]

/-- Everything a scheduling point can do. -/
theorem State.tick_cases (s : State) :
    (s.hw.engine = .idle ∧ s.tick = s) ∨
    (∃ snap, s.hw.engine = .busy snap ∧ 0 < s.ticksLeft ∧ s.tick = s.setTicks (s.ticksLeft - 1)) ∨
    (∃ snap, s.hw.engine = .busy snap ∧ s.ticksLeft = 0 ∧
      s.tick = (s.addRecord snap.completedRecord).setHw { s.hw with engine := .idle }) := by
  cases h : s.hw.engine with
  | idle => exact .inl ⟨rfl, State.tick_of_idle h⟩
  | busy snap =>
    rcases Nat.eq_zero_or_pos s.ticksLeft with hn | hn
    · exact .inr (.inr ⟨snap, rfl, hn, State.tick_of_due h hn⟩)
    · exact .inr (.inl ⟨snap, rfl, hn, State.tick_of_later h hn⟩)

/-- What the peripheral never touches is the same in two states. -/
structure State.CoreKept (s t : State) : Prop where
  shadow : t.shadow = s.shadow
  trace : t.trace = s.trace
  results : t.results = s.results
  opIndex : t.opIndex = s.opIndex
  registerMap : t.registerMap = s.registerMap
  inbox : t.inbox = s.inbox
  linkOk : t.linkOk = s.linkOk

theorem State.CoreKept.refl (s : State) : s.CoreKept s := ⟨rfl, rfl, rfl, rfl, rfl, rfl, rfl⟩

theorem State.CoreKept.trans {u : State} (h : s.CoreKept t) (k : t.CoreKept u) : s.CoreKept u :=
  ⟨k.1.trans h.1, k.2.trans h.2, k.3.trans h.3, k.4.trans h.4, k.5.trans h.5, k.6.trans h.6, k.7.trans h.7⟩

/-- A scheduling point leaves the core alone. -/
theorem State.tick_coreKept (s : State) : s.CoreKept s.tick := by
  rcases s.tick_cases with ⟨_, h⟩ | ⟨_, _, _, h⟩ | ⟨_, _, _, h⟩ <;> rw [h] <;> exact ⟨rfl, rfl, rfl, rfl, rfl, rfl, rfl⟩

/-- A write at the peripheral leaves the core alone. -/
theorem State.hwWrite_coreKept (w : RegWrite) (s : State) : s.CoreKept (s.hwWrite w) := by
  cases w <;> simp only [State.hwWrite, State.transferWrite] <;>
    (try split) <;> (try split) <;>
    (try simp only [State.resetPeripheral]) <;> (try split) <;>
    exact ⟨rfl, rfl, rfl, rfl, rfl, rfl, rfl⟩

@[simp] theorem State.tick_shadow (s : State) : s.tick.shadow = s.shadow := s.tick_coreKept.shadow
@[simp] theorem State.tick_trace (s : State) : s.tick.trace = s.trace := s.tick_coreKept.trace
@[simp] theorem State.tick_results (s : State) : s.tick.results = s.results := s.tick_coreKept.results
@[simp] theorem State.tick_opIndex (s : State) : s.tick.opIndex = s.opIndex := s.tick_coreKept.opIndex
@[simp] theorem State.tick_registerMap (s : State) : s.tick.registerMap = s.registerMap := s.tick_coreKept.registerMap
@[simp] theorem State.tick_inbox (s : State) : s.tick.inbox = s.inbox := s.tick_coreKept.inbox
@[simp] theorem State.tick_linkOk (s : State) : s.tick.linkOk = s.linkOk := s.tick_coreKept.linkOk

/-- A scheduling point and a shadow write commute. -/
theorem State.tick_setShadow (x : Shadow) (s : State) : (s.setShadow x).tick = s.tick.setShadow x := by
  cases h : s.hw.engine <;> simp [State.tick, State.complete, h]
  split <;> rfl

/-! ### The state equation that leaves the bookkeeping of free values open -/

/-- `SameBut` field by field. -/
theorem State.sameBut_iff : t.SameBut s ↔ t.shadow = s.shadow ∧ t.hw = s.hw ∧ t.wire = s.wire ∧ t.trace = s.trace ∧
    t.results = s.results ∧ t.opIndex = s.opIndex ∧ t.registerMap = s.registerMap ∧ t.inbox = s.inbox := by
  constructor
  · rintro ⟨l, k, d, rfl⟩; simp
  · rintro ⟨h1, h2, h3, h4, h5, h6, h7, h8⟩
    exact ⟨t.linkOk, t.ticksLeft, t.drawn, by cases t; cases s; simp_all⟩

/-! ### The Register Link (R47 to R50; log 5) -/

/-- A scheduling point does not change the link. -/
theorem State.linkUp_tick {r : Reg} : s.tick.LinkUp r ↔ s.LinkUp r := by
  simp only [State.LinkUp, State.tick_registerMap, State.tick_linkOk]

/-- A write whose call succeeds. -/
theorem memWrite_carried {w : RegWrite} (h : s.LinkUp w.reg) :
    memWrite w s = .done () ((s.tick.hwWrite w).carried.emit [w.event]) :=
  if_pos (State.linkUp_tick.2 h)

/-- A write whose call fails. -/
theorem memWrite_failed {w : RegWrite} (h : ¬ s.LinkUp w.reg) :
    memWrite w s = .failed (.transport w.reg)
      ((if Config.writeReached s.tick.drawn then s.tick.hwWrite w else s.tick).linkFailed w.reg) :=
  if_neg (fun k => h (State.linkUp_tick.1 k))

/-- A read whose call succeeds. -/
theorem memRead_carried {r : Reg} (h : s.LinkUp r) :
    memRead r s = .done (s.tick.readReg r).1 ((s.tick.readReg r).2.carried.emit [.read r (s.tick.readReg r).1]) :=
  if_pos (State.linkUp_tick.2 h)

/-- A read whose call fails. -/
theorem memRead_failed {r : Reg} (h : ¬ s.LinkUp r) :
    memRead r s = .failed (.transport r) (s.tick.linkFailed r) :=
  if_neg (fun k => h (State.linkUp_tick.1 k))

/-- A pulse whose call succeeds. -/
theorem pulseReset_carried (h : s.LinkUp .reset) :
    pulseReset s = .done ()
      ((s.tick.applyPulse 3).carried.emit [.write .reset 0, .write .reset 1, .write .reset 0]) :=
  if_pos (State.linkUp_tick.2 h)

/-- A pulse whose call fails. -/
theorem pulseReset_failed (h : ¬ s.LinkUp .reset) :
    pulseReset s = .failed (.transport .reset)
      ((s.tick.applyPulse (Config.pulseReached s.tick.drawn)).linkFailed .reset) :=
  if_neg (fun k => h (State.linkUp_tick.1 k))

/-- No call, nothing spent. -/
@[simp] theorem linkAfter_zero (run : Option Nat) : linkAfter 0 run = run := by cases run <;> rfl

/-- Calls add up. -/
@[simp] theorem linkAfter_linkAfter (j k : Nat) (run : Option Nat) :
    linkAfter k (linkAfter j run) = linkAfter (j + k) run := by
  cases run <;> simp [linkAfter, Nat.sub_sub]

/-- An endless run of successes stays endless. -/
@[simp] theorem linkAfter_none (k : Nat) : linkAfter k none = none := rfl

/-- A finite run gets shorter. -/
@[simp] theorem linkAfter_some (k n : Nat) : linkAfter k (some n) = some (n - k) := rfl

/-- The first of the calls that succeed. -/
theorem State.LinkCarries.head {r : Reg} {rs : List Reg} (h : s.LinkCarries (r :: rs)) : s.LinkUp r :=
  ⟨h.2 r (by simp), fun e => by have := h.1 0 e; simp at this⟩

/-- After the first calls have succeeded, the link carries the rest. -/
theorem State.LinkCarries.rest {rs rs' : List Reg} (h : s.LinkCarries (rs ++ rs')) (hm : t.registerMap = s.registerMap)
    (hl : t.linkOk = linkAfter rs.length s.linkOk) : t.LinkCarries rs' := by
  refine ⟨fun n hn => ?_, fun r hr => hm ▸ h.2 r (List.mem_append_right _ hr)⟩
  rw [hl] at hn
  cases hs : s.linkOk with
  | none => simp [hs] at hn
  | some m => have := h.1 m hs; simp [hs] at hn this; omega

/-- After the first call has succeeded, the link carries the rest. -/
theorem State.LinkCarries.tail {r : Reg} {rs : List Reg} (h : s.LinkCarries (r :: rs))
    (hm : t.registerMap = s.registerMap) (hl : t.linkOk = linkAfter 1 s.linkOk) : t.LinkCarries rs :=
  State.LinkCarries.rest (rs := [r]) h hm hl

/-- A link that fails is not up. -/
theorem State.LinkFails.not_linkUp {r : Reg} (h : s.LinkFails r) : ¬ s.LinkUp r := by
  rintro ⟨h1, h2⟩; rcases h with h | h
  · exact h h1
  · exact h2 h

/-- The link is read from the map and the count. -/
theorem State.linkCarries_congr {rs : List Reg} (h1 : t.registerMap = s.registerMap) (h2 : t.linkOk = s.linkOk) :
    t.LinkCarries rs ↔ s.LinkCarries rs := by simp only [State.LinkCarries, h1, h2]

/-- A scheduling point does not change which calls succeed. -/
theorem State.linkCarries_tick {rs : List Reg} : s.tick.LinkCarries rs ↔ s.LinkCarries rs :=
  State.linkCarries_congr (by simp) (by simp)

/-- Fewer calls succeed too. -/
theorem State.LinkCarries.mono {rs rs' : List Reg} (h : s.LinkCarries (rs ++ rs')) : s.LinkCarries rs :=
  ⟨fun n hn => by have := h.1 n hn; simp at this; omega, fun r hr => h.2 r (by simp [hr])⟩

/-- A write after a shadow write, when its call succeeds. -/
theorem memWrite_shadow_carried {w : RegWrite} (x : Shadow) (h : s.LinkUp w.reg) :
    memWrite w (s.setShadow x) = .done () (((s.tick.setShadow x).hwWrite w).carried.emit [w.event]) := by
  rw [memWrite_carried (by exact h), State.tick_setShadow]

/-- A write after a shadow write, when its call fails. -/
theorem memWrite_shadow_failed {w : RegWrite} (x : Shadow) (h : ¬ s.LinkUp w.reg) :
    memWrite w (s.setShadow x) = .failed (.transport w.reg)
     ((if Config.writeReached s.tick.drawn then (s.tick.setShadow x).hwWrite w else s.tick.setShadow x).linkFailed w.reg) := by
  rw [memWrite_failed (by exact h), State.tick_setShadow]; rfl

/-- A scheduling point before a write on an Idle engine is absorbed. -/
theorem memWrite_tick (h : s.tick.hw.engine = .idle) (w : RegWrite) : memWrite w s.tick = memWrite w s := by
  simp only [memWrite, State.tick_of_idle h]

/-! ### Operand checks (R101, R120 to R122, R170, R171) -/

theorem operandDataLen_ok {n : Int} (h : InRange 0 255 n) : operandDataLen n = .ok (BitVec.ofInt 8 n) := if_pos h
theorem operandDataLen_bad {n : Int} (h : ¬ InRange 0 255 n) : operandDataLen n = .error (.range .dataLength n) := if_neg h
theorem operandSlaveSelect_ok {n : Int} (h : InRange 0 255 n) : operandSlaveSelect n = .ok (BitVec.ofInt 8 n) := if_pos h
theorem operandSlaveSelect_bad {n : Int} (h : ¬ InRange 0 255 n) : operandSlaveSelect n = .error (.range .slaveSelect n) := if_neg h
theorem operandDivider_ok {v : Int} (h : InRange 0 (2 ^ Config.divWidth - 1) v) : operandDivider v = .ok v.toNat := if_pos h
theorem operandDivider_bad {v : Int} (h : ¬ InRange 0 (2 ^ Config.divWidth - 1) v) : operandDivider v = .error (.range .divider v) := if_neg h
theorem operandWord_ok {v : Int} (h : FitsSlot v) : operandWord v = .ok (BitVec.ofInt 16 v) := if_pos h
theorem operandWord_bad {v : Int} (h : ¬ FitsSlot v) : operandWord v = .error (.range .slotWidth 0) := if_neg h
theorem encodeOperands_bad {d a p : Int} (h : ¬ EncodeInRange d a p) : encodeOperands d a p = none := if_neg h

/-- The frame of a write with operands in range. -/
theorem encodeOperands_ok {a p : Int} (ha : 0 ≤ a ∧ a ≤ 0x7F) (hp : 0 ≤ p ∧ p ≤ 0xFF) :
    encodeOperands 0 a p = some (frame false (BitVec.ofInt 7 a) (BitVec.ofInt 8 p)) := by
  rw [encodeOperands, if_pos ⟨⟨by omega, by omega⟩, ha, hp⟩]; rfl

/-- Every slot value fits a slot. -/
theorem fitsSlot_toNat (w : Slot) : FitsSlot (w.toNat : Int) := by
  have := w.isLt; exact ⟨by omega, by omega⟩

/-- A slot value is a legal TRANSMIT operand. -/
theorem operandWord_toNat (w : Slot) : operandWord (w.toNat : Int) = .ok w := by
  rw [operandWord_ok (fitsSlot_toNat w)]; simp

/-- No slot is bad when all fit. -/
theorem firstBadSlot_none : ∀ (k : Nat) (vs : List Int), (∀ v ∈ vs, FitsSlot v) → firstBadSlot k vs = none
  | _, [], _ => rfl
  | k, v :: vs, h => by
    rw [firstBadSlot, if_pos (h v (by simp)), firstBadSlot_none (k+1) vs (fun x hx => h x (by simp [hx]))]

/-- The first value that does not fit is the one reported. -/
theorem firstBadSlot_some : ∀ (k j : Nat) (vs : List Int), (∀ i < j, ∃ v, vs[i]? = some v ∧ FitsSlot v) →
    (∃ v, vs[j]? = some v ∧ ¬ FitsSlot v) → firstBadSlot k vs = some (k + j)
  | k, j, [], _, h => by simp at h
  | k, 0, v :: vs, _, h => by
    obtain ⟨x, hx, hf⟩ := h; simp at hx; subst hx
    rw [firstBadSlot, if_neg hf]; rfl
  | k, j + 1, v :: vs, h, h' => by
    obtain ⟨x, hx, hf⟩ := h 0 (by omega); simp at hx; subst hx
    rw [firstBadSlot, if_pos hf, firstBadSlot_some (k+1) j vs]
    · congr 1; omega
    · intro i hi; have := h (i+1) (by omega); simpa using this
    · simpa using h'

/-- The integers of a bank are a legal WRBANK operand. -/
theorem operandBank_ok (b : Bank) : operandBank (bankInts b) = .ok b := by
  have hl : (bankInts b).length = 8 := by simp [bankInts]
  have hf : firstBadSlot 0 (bankInts b) = none := firstBadSlot_none _ _ (by
    intro v hv; simp [bankInts] at hv; obtain ⟨x, _, rfl⟩ := hv
    have := x.isLt; exact ⟨by omega, by omega⟩)
  simp only [operandBank, dif_pos hl, hf]
  congr 1
  apply Vector.toList_inj.1
  simp only [bankOf, bankInts, Vector.toList_mk, List.map_map]
  have : (BitVec.ofInt 16 ∘ fun w : Slot => (w.toNat : Int)) = id := by
    funext w; simp
  rw [this]; simp

/-- The address byte of CFGPIXEL is the address modulo 256. -/
theorem pixelAddressByte_nat (n : Nat) : (pixelAddressByte (n : Int)).toNat = n % 256 := by
  simp only [pixelAddressByte, Int.toNat_natCast, BitVec.toNat_ofNat]
  rw [show (0xFF : Nat) = 2 ^ 8 - 1 from rfl, Nat.and_two_pow_sub_one_eq_mod]; omega

/-- The third payload of CFGPIXEL on non-negative operands. -/
theorem pixelPayload_nat (h we pe m : Int) (hh : 0 ≤ h ∧ 0 ≤ we ∧ 0 ≤ pe ∧ 0 ≤ m) :
    pixelPayload h we pe m = some (pixelSum h.toNat we.toNat pe.toNat m.toNat) := if_pos hh

/-! ### The reactions of the peripheral (R142 to R148) -/

/-- The reaction while Idle. -/
theorem transferWrite_idle (h : s.hw.engine = .idle) (w x) : s.transferWrite w x = x := by
  simp [State.transferWrite, h]

/-- A write of a transfer-affecting register while Busy is an overlap (R145). -/
theorem hwWrite_busy_overlap {snap : Snap} (h : s.hw.engine = .busy snap) (w : RegWrite)
   (hw : (∃ v, w = .ctrl v) ∨ (∃ v, w = .divider v) ∨ (∃ k v, w = .data k v)) :
   s.hwWrite w = s.overlapWrite w snap := by
  rcases hw with ⟨v, rfl⟩ | ⟨v, rfl⟩ | ⟨k, v, rfl⟩ <;> simp [State.hwWrite, State.transferWrite, h]

/-- A go write while Idle (R144). -/
theorem hwWrite_go_idle (h : s.hw.engine = .idle) {v : CtrlWord} (hv : v.getLsbD 8 = true) :
    s.hwWrite (.ctrl v) = s.startTransfer v :=
  (transferWrite_idle h _ _).trans (if_pos hv)

/-- A configuration write while Idle (R143). -/
theorem hwWrite_cfg_idle (h : s.hw.engine = .idle) {v : CtrlWord} (hv : v.getLsbD 8 = false) :
    s.hwWrite (.ctrl v) = s.storeWrite (.ctrl v) :=
  (transferWrite_idle h _ _).trans (if_neg (by rw [hv]; decide))

/-- A write that only stores while the engine is Idle. -/
def RegWrite.Stores : RegWrite → Prop
  | .ctrl v => v.getLsbD 8 = false
  | .divider _ | .data _ _ | .ss _ => True
  | .reset _ => False

/-- Such a write stores. -/
theorem hwWrite_stores {w : RegWrite} (h : s.hw.engine = .idle) (hw : RegWrite.Stores w) : s.hwWrite w = s.storeWrite w := by
  cases w with
  | ctrl v => exact hwWrite_cfg_idle h hw
  | divider v => exact transferWrite_idle h _ _
  | ss m => rfl
  | data k v => exact transferWrite_idle h _ _
  | reset b => exact hw.elim

/-- Storing does not touch the engine. -/
theorem store_engine (w : RegWrite) (hw : Hw) : (hw.store w).engine = hw.engine := by cases w <;> rfl

/-- A pulse of any length resets the peripheral or does nothing (R48, R148). -/
theorem applyPulse_cases (n : Fin 4) (s : State) : s.applyPulse n = s ∨ s.applyPulse n = s.resetPeripheral := by
  have : n = 0 ∨ n = 1 ∨ n = 2 ∨ n = 3 := by omega
  rcases this with h | h | h | h <;> subst h <;> simp [State.applyPulse, State.hwWrite]

/-! ### The control word (R100, R140, R144) -/

/-- Bit 8 of the control word is goBusy. -/
theorem shadow_ctrlWord_goBusy (x : Shadow) : x.ctrlWord.getLsbD 8 = x.goBusy := by
  simp [-BitVec.getLsbD_eq_getElem, Shadow.ctrlWord, pack_getLsbD]

/-- START's word has bit 8 = 1. -/
theorem ctrlWord_started_getLsbD (x : Shadow) : ({ x with goBusy := true } : Shadow).ctrlWord.getLsbD 8 = true := by
  simp [-BitVec.getLsbD_eq_getElem, Shadow.ctrlWord, pack_getLsbD]

/-- The snapshot of a packed word has the fields of the shadow. -/
theorem snapshot_ctrlWord (x : Shadow) (hw : Hw) : hw.snapshot x.ctrlWord = hw.snapOf x := by
  simp [-BitVec.getLsbD_eq_getElem, Hw.snapshot, Hw.snapOf, Shadow.ctrlWord, pack_getLsbD, pack_dataLen]

/-- START when its call succeeds. -/
theorem startCalls_carried (h : s.LinkUp .ctrl) : startCalls s = .done ()
   (((s.tick.setShadow { s.shadow with goBusy := true }).hwWrite (.ctrl ({ s.shadow with goBusy := true } : Shadow).ctrlWord)).carried.emit
     [.write .ctrl ({ s.shadow with goBusy := true } : Shadow).ctrlWord.toNat]) :=
  memWrite_shadow_carried (w := .ctrl ({ s.shadow with goBusy := true } : Shadow).ctrlWord) _ h

/-- START when its call fails. -/
theorem startCalls_failed (h : ¬ s.LinkUp .ctrl) : startCalls s = .failed (.transport .ctrl)
   ((if Config.writeReached s.tick.drawn then (s.tick.setShadow { s.shadow with goBusy := true }).hwWrite (.ctrl ({ s.shadow with goBusy := true } : Shadow).ctrlWord)
     else s.tick.setShadow { s.shadow with goBusy := true }).linkFailed .ctrl) :=
  memWrite_shadow_failed (w := .ctrl ({ s.shadow with goBusy := true } : Shadow).ctrlWord) _ h

/-! ### Sequences of writes (R58, R122) -/

/-- Writes one after the other. -/
theorem memWrites_append : ∀ (xs ys : List RegWrite) (s : State),
    memWrites (xs ++ ys) s = (memWrites xs s).andThen fun _ t => memWrites ys t
  | [], ys, s => rfl
  | x :: xs, ys, s => by
    simp only [List.cons_append, memWrites]
    cases memWrite x s with
    | done v t => exact memWrites_append xs ys t
    | failed e t => rfl

/-- What writes that all succeed do to the core, whatever the engine does. -/
theorem memWrites_carried : ∀ (ws : List RegWrite) (s : State), s.LinkCarries (ws.map RegWrite.reg) →
    ∃ t, memWrites ws s = .done () t ∧ t.shadow = s.shadow ∧ t.trace = s.trace ++ ws.map RegWrite.event ∧
      t.results = s.results ∧ t.opIndex = s.opIndex ∧ t.registerMap = s.registerMap ∧ t.inbox = s.inbox ∧
      t.linkOk = linkAfter ws.length s.linkOk
  | [], s, _ => ⟨s, rfl, by simp⟩
  | w :: ws, s, h => by
    have hk := (s.tick_coreKept.trans (s.tick.hwWrite_coreKept w))
    obtain ⟨t, ht, h1, h2, h3, h4, h5, h6, h7⟩ :=
      memWrites_carried ws ((s.tick.hwWrite w).carried.emit [w.event])
        (h.tail (by simp [hk.registerMap]) (by simp [hk.linkOk]))
    refine ⟨t, by rw [memWrites, memWrite_carried h.head]; exact ht, ?_, ?_, ?_, ?_, ?_, ?_, ?_⟩
    · simpa [hk.shadow] using h1
    · simpa [hk.trace] using h2
    · simpa [hk.results] using h3
    · simpa [hk.opIndex] using h4
    · simpa [hk.registerMap] using h5
    · simpa [hk.inbox] using h6
    · simpa [hk.linkOk, Nat.add_comm] using h7

/-- Storing writes that all succeed on an Idle engine. -/
theorem memWrites_idle : ∀ (ws : List RegWrite) (s : State), s.hw.engine = .idle → (∀ w ∈ ws, RegWrite.Stores w) →
    s.LinkCarries (ws.map RegWrite.reg) →
    memWrites ws s = .done () { s with hw := ws.foldl (fun h w => h.store w) s.hw, trace := s.trace ++ ws.map RegWrite.event, linkOk := linkAfter ws.length s.linkOk }
  | [], s, _, _, _ => by simp [memWrites]
  | w :: ws, s, hi, hs, hl => by
    have e : memWrite w s = .done () ((s.storeWrite w).carried.emit [w.event]) := by
      rw [memWrite_carried hl.head, State.tick_of_idle hi, hwWrite_stores hi (hs w (by simp))]
    rw [memWrites, e, Call.andThen, memWrites_idle ws]
    · simp [State.storeWrite, State.emit, State.carried, State.setLinkOk, State.setHw, Nat.add_comm]
    · show (s.hw.store w).engine = _
      rw [store_engine, hi]
    · intro w' hw'; exact hs w' (by simp [hw'])
    · exact hl.tail rfl rfl

/-- A scheduling point before writes on an Idle engine is absorbed. -/
theorem memWrites_tick (h : s.tick.hw.engine = .idle) (w : RegWrite) (ws : List RegWrite) :
    memWrites (w :: ws) s.tick = memWrites (w :: ws) s := by
  simp only [memWrites, memWrite_tick h]

/-- The eight writes of a bank store it. -/
theorem foldl_bankWrites (b : Bank) (hw : Hw) : (bankWrites b).foldl (fun h w => h.store w) hw = { hw with data := b } := by
  simp only [bankWrites, List.foldl, Hw.store]
  congr 1
  ext i hi
  have : i = 0 ∨ i = 1 ∨ i = 2 ∨ i = 3 ∨ i = 4 ∨ i = 5 ∨ i = 6 ∨ i = 7 := by omega
  rcases this with h | h | h | h | h | h | h | h <;> subst h <;> simp

/-- They only store. -/
theorem bankWrites_stores (b : Bank) : ∀ w ∈ bankWrites b, RegWrite.Stores w := by
  intro w hw; simp [bankWrites] at hw; rcases hw with rfl | rfl | rfl | rfl | rfl | rfl | rfl | rfl <;> trivial

/-- Their registers. -/
theorem bankWrites_regs (b : Bank) : (bankWrites b).map RegWrite.reg = dataRegs := rfl

/-- Their events. -/
theorem bankWrites_events (b : Bank) : (bankWrites b).map RegWrite.event = bankEvents b := rfl

/-- A scheduling point before a bank on an Idle engine is absorbed. -/
theorem memWrites_bank_idle (b : Bank) (ws : List RegWrite) (x : Shadow) (h : s.tick.hw.engine = .idle) :
    memWrites (bankWrites b ++ ws) (s.setShadow x) = memWrites (bankWrites b ++ ws) (s.tick.setShadow x) := by
  have h' : (s.setShadow x).tick.hw.engine = .idle := by rw [State.tick_setShadow]; exact h
  rw [← State.tick_setShadow]
  exact (memWrites_tick h' _ _).symm

end Sys2Proof.Machine
end

