-- ==== Sys2Proof/Laws/Calls.lean ====
section
/-! SUPPORT. What a sequence of Register Link calls can do: to the core when all succeed, and to the peripheral, the
records and the trace on every path, for the set `W` of writes it may make. -/

namespace Sys2Proof.Machine

open Sys2Proof

variable {s t u : State}

/-! ### Calls that all succeed (R171, R190) -/

/-- TRANSMIT of a slot value. -/
theorem execTransmit_toNat (w : Slot) (s : State) :
    exec (.transmit w.toNat) s = .next ((transmitCalls w s).toHost fun _ => .unit) := by
  rw [exec, execTransmit, operandWord_toNat]; rfl

/-- The calls of a TRANSMIT (R171). -/
theorem transmitCalls_eq (w : Slot) (s : State) : transmitCalls w s =
    (memWrites (bankWrites (s.shadow.bank.set 0 w) ++ [.ctrl s.shadow.ctrlWord])
      (s.setShadow { s.shadow with bank := s.shadow.bank.set 0 w })).andThen fun _ u => startCalls u := rfl

/-- What a TRANSMIT whose calls all succeed does to the core, whatever the engine does. -/
theorem transmitCalls_core (w : Slot) (s : State) (h : s.LinkCarries transmitRegs) :
    ∃ t, transmitCalls w s = .done () t ∧ t.shadow = s.shadow.transmitted w ∧
      t.trace = s.trace ++ transmitEvents w s.shadow ∧ t.results = s.results ∧ t.opIndex = s.opIndex ∧
      t.registerMap = s.registerMap ∧ t.inbox = s.inbox ∧ t.linkOk = linkAfter 10 s.linkOk := by
  let b := s.shadow.bank.set 0 w
  let u := s.setShadow { s.shadow with bank := b }
  have hl : u.LinkCarries ((bankWrites b ++ [RegWrite.ctrl u.shadow.ctrlWord]).map RegWrite.reg) :=
    State.LinkCarries.mono (rs' := [.ctrl]) h
  obtain ⟨v, hv, h1, h2, h3, h4, h5, h6, h7⟩ := memWrites_carried _ u hl
  have hup : v.LinkUp .ctrl :=
    (State.LinkCarries.rest (rs := dataRegs ++ [.ctrl]) (rs' := [.ctrl]) h h5 h7).head
  refine ⟨_, (congrArg (fun c => Call.andThen c fun _ u => startCalls u) hv).trans (startCalls_carried hup), ?_, ?_, ?_, ?_, ?_, ?_, ?_⟩
  all_goals
    have hk := (State.hwWrite_coreKept (.ctrl ({ v.shadow with goBusy := true } : Shadow).ctrlWord) (v.tick.setShadow { v.shadow with goBusy := true }))
  · simp only [State.emit_shadow, State.carried_shadow, hk.shadow]
    simp [h1, u, Shadow.transmitted, b]
  · simp only [State.emit_trace, State.carried_trace, hk.trace]
    simp [h2, h1, u, transmitEvents, bankEvents, bankWrites, RegWrite.event, RegWrite.reg, RegWrite.value, b, Shadow.ctrlWord]
  · simp only [State.emit_results, State.carried_results, hk.results]; simp [h3, u]
  · simp only [State.emit_opIndex, State.carried_opIndex, hk.opIndex]; simp [h4, u]
  · simp only [State.emit_registerMap, State.carried_registerMap, hk.registerMap]; simp [h5, u]
  · simp only [State.emit_inbox, State.carried_inbox, hk.inbox]; simp [h6, u]
  · simp only [State.emit_linkOk, State.carried_linkOk, hk.linkOk]; simp [h7, u, bankWrites]

/-- A scheduling point before a TRANSMIT on an Idle engine is absorbed. -/
theorem transmitCalls_idle (w : Slot) (hi : s.tick.hw.engine = .idle) :
    transmitCalls w s = transmitCalls w s.tick := by
  rw [transmitCalls_eq]
  rw [memWrites_bank_idle _ _ _ hi, transmitCalls_eq, State.tick_shadow]

/-- What frames whose calls all succeed do to the core (R190). -/
theorem sendFrames_core : ∀ (ws : List Frame) (s : State), s.LinkCarries (ws.flatMap fun _ => transmitRegs) →
    ∃ t, sendFrames ws s = .done () t ∧ t.shadow = ws.foldl (fun x w => x.transmitted w) s.shadow ∧
      t.results = s.results ∧ t.opIndex = s.opIndex ∧ t.registerMap = s.registerMap ∧
      t.linkOk = linkAfter (10 * ws.length) s.linkOk ∧
      t.trace = s.trace ++ (ws.foldl (fun (p : List BusEvent × Shadow) w => (p.1 ++ transmitEvents w p.2, p.2.transmitted w)) ([], s.shadow)).1
  | [], s, _ => ⟨s, rfl, by simp⟩
  | w :: ws, s, h => by
    obtain ⟨t, ht, h1, h2, h3, h4, h5, h6, h7⟩ := transmitCalls_core w s (State.LinkCarries.mono h)
    obtain ⟨v, hv, g1, g2, g3, g4, g5, g6⟩ := sendFrames_core ws t
      (State.LinkCarries.rest h h5 h7)
    have key : ∀ (es : List BusEvent) (x : Shadow) (ws : List Frame), (ws.foldl (fun (p : List BusEvent × Shadow) w => (p.1 ++ transmitEvents w p.2, p.2.transmitted w)) (es, x)).1
        = es ++ (ws.foldl (fun (p : List BusEvent × Shadow) w => (p.1 ++ transmitEvents w p.2, p.2.transmitted w)) ([], x)).1 := by
      intro es x ws
      induction ws generalizing es x with
      | nil => simp
      | cons w ws ih => simp only [List.foldl_cons]; rw [ih, ih ([] ++ _)]; simp
    refine ⟨v, by rw [sendFrames, ht]; exact hv, by rw [g1, h1]; rfl, g2.trans h3, g3.trans h4, g4.trans h5, by rw [g5, h7, linkAfter_linkAfter, List.length_cons]; congr 1; omega, ?_⟩
    rw [g6, h2, h1, List.foldl_cons, key ([] ++ _), List.append_assoc, List.nil_append]

/-! ### The peripheral on every path -/

/-- The part of the invariant that the peripheral can break. -/
structure State.PeriphInv (s : State) : Prop where
  hwDiv : s.hw.div < 2 ^ Config.divWidth
  snapDiv : ∀ snap, s.hw.engine = .busy snap → snap.div < 2 ^ Config.divWidth
  recordDiv : ∀ r ∈ s.wire, r.div < 2 ^ Config.divWidth
  corruptMarked : ∀ snap, s.hw.engine = .busy snap → snap.corrupt = true → s.hw.overlap = true
  recordsSound : ∀ r ∈ s.wire, r.Sound s.hw.overlap

/-- A write whose value fits its register (R53). -/
def RegWrite.Fits (w : RegWrite) : Prop := w.value < 2 ^ regWidth w.reg

/-- A write of a transfer-affecting register (R142). -/
def RegWrite.Affects : RegWrite → Prop
  | .ctrl _ | .divider _ | .data _ _ => True
  | _ => False

/-- `t` comes from `s` by scheduling points and writes of `W`: what may differ, and why. -/
structure State.Within (W : RegWrite → Prop) (s t : State) : Prop where
  results : t.results = s.results
  opIndex : t.opIndex = s.opIndex
  registerMap : t.registerMap = s.registerMap
  inbox : t.inbox = s.inbox
  overlapMono : s.hw.overlap = true → t.hw.overlap = true
  overlapOnly : t.hw.overlap ≠ s.hw.overlap → ∃ w, W w ∧ RegWrite.Affects w
  wire : ∃ ws, t.wire = s.wire ++ ws ∧ (¬ W (.reset true) → ∀ r ∈ ws, r.aborted = false)
  div : t.hw.div ≠ s.hw.div → (∃ v, W (.divider v)) ∨ W (.reset true)
  ss : t.hw.ss ≠ s.hw.ss → (∃ v, W (.ss v)) ∨ W (.reset true)
  data : t.hw.data ≠ s.hw.data → (∃ k v, W (.data k v)) ∨ W (.reset true)
  ctrl : t.hw.ctrl ≠ s.hw.ctrl → (∃ v, W (.ctrl v)) ∨ W (.reset true)
  inv : (∀ w, W w → RegWrite.Fits w) → State.PeriphInv s → State.PeriphInv t

theorem State.Within.refl (W) (s : State) : State.Within W s s :=
  ⟨rfl, rfl, rfl, rfl, id, fun h => absurd rfl h, ⟨[], by simp, by simp⟩, fun h => absurd rfl h, fun h => absurd rfl h, fun h => absurd rfl h, fun h => absurd rfl h, fun _ h => h⟩

theorem State.Within.trans {W} (a : State.Within W s t) (b : State.Within W t u) : State.Within W s u where
  results := b.results.trans a.results
  opIndex := b.opIndex.trans a.opIndex
  registerMap := b.registerMap.trans a.registerMap
  inbox := b.inbox.trans a.inbox
  overlapMono h := b.overlapMono (a.overlapMono h)
  overlapOnly h := by
    by_cases h' : t.hw.overlap = s.hw.overlap
    · exact b.overlapOnly (by rw [h']; exact h)
    · exact a.overlapOnly h'
  wire := by
    obtain ⟨w1, h1, h2⟩ := a.wire
    obtain ⟨w2, h3, h4⟩ := b.wire
    exact ⟨w1 ++ w2, by rw [h3, h1, List.append_assoc], fun h r hr => by
      rcases List.mem_append.1 hr with hr | hr
      · exact h2 h r hr
      · exact h4 h r hr⟩
  div h := by
    by_cases h' : t.hw.div = s.hw.div
    · exact b.div (by rw [h']; exact h)
    · exact a.div h'
  ss h := by
    by_cases h' : t.hw.ss = s.hw.ss
    · exact b.ss (by rw [h']; exact h)
    · exact a.ss h'
  data h := by
    by_cases h' : t.hw.data = s.hw.data
    · exact b.data (by rw [h']; exact h)
    · exact a.data h'
  ctrl h := by
    by_cases h' : t.hw.ctrl = s.hw.ctrl
    · exact b.ctrl (by rw [h']; exact h)
    · exact a.ctrl h'
  inv hW h := b.inv hW (a.inv hW h)

/-- A change of the shadow, the trace or the bookkeeping only. -/
theorem State.Within.of_hw {W} (h1 : t.results = s.results) (h2 : t.opIndex = s.opIndex) (h3 : t.registerMap = s.registerMap) (h4 : t.inbox = s.inbox)
    (h5 : t.hw = s.hw) (h6 : t.wire = s.wire) : State.Within W s t :=
  ⟨h1, h2, h3, h4, by rw [h5]; exact id, fun h => absurd (by rw [h5]) h, ⟨[], by rw [h6]; simp, by simp⟩, fun h => absurd (by rw [h5]) h,
   fun h => absurd (by rw [h5]) h, fun h => absurd (by rw [h5]) h, fun h => absurd (by rw [h5]) h, fun _ h => ⟨by rw [h5]; exact h.1, by rw [h5]; exact h.2, by rw [h6]; exact h.3, by rw [h5]; exact h.4, by rw [h5, h6]; exact h.5⟩⟩

/-- The record of a completed transfer is sound (R149, R150). -/
theorem serialise_sound (snap : Snap) (ov : Bool) (h : snap.corrupt = true → ov = true) : snap.completedRecord.Sound ov := by
  have hm : snap.completedRecord.mosi = if snap.corrupt then .unspecified else serialise snap := rfl
  refine ⟨fun h => (by cases h), fun hl => ?_, fun _ h1 h2 ho => ?_⟩
  · rw [hm]
    split
    · rfl
    · exact if_pos hl
  · have hc : snap.corrupt = false := by
      cases hc : snap.corrupt with
      | false => rfl
      | true => rw [h hc] at ho; cases ho
    have hn : ¬(snap.dataLen.toNat = 0 ∨ 8 * 16 < snap.dataLen.toNat) := by
      simp only [Snap.completedRecord, Snap.record] at h1 h2
      omega
    rw [hm, hc, if_neg Bool.false_ne_true]
    simp only [serialise, if_neg hn]
    split
    · exact ⟨_, rfl, by simp [Snap.completedRecord, Snap.record]⟩
    · exact ⟨_, rfl, by simp [Snap.completedRecord, Snap.record]⟩

theorem State.Within.complete {W} {snap : Snap} (hb : s.hw.engine = .busy snap) :
    State.Within W s ((s.addRecord snap.completedRecord).setHw { s.hw with engine := .idle }) where
  results := rfl
  opIndex := rfl
  registerMap := rfl
  inbox := rfl
  overlapMono := id
  overlapOnly h := absurd rfl h
  wire := ⟨[snap.completedRecord], rfl, fun _ r hr => by simp at hr; subst hr; rfl⟩
  div h := absurd rfl h
  ss h := absurd rfl h
  data h := absurd rfl h
  ctrl h := absurd rfl h
  inv _ h := by
    refine ⟨h.1, fun _ h' => (by cases h'), fun r hr => ?_, fun _ h' => (by cases h'), fun r hr => ?_⟩
    · simp at hr; rcases hr with hr | rfl
      · exact h.3 r hr
      · exact h.2 snap hb
    · simp at hr; rcases hr with hr | rfl
      · exact h.5 r hr
      · exact serialise_sound snap _ (h.4 snap hb)

theorem State.Within.tick {W} (s : State) : State.Within W s s.tick := by
  rcases s.tick_cases with ⟨_, h⟩ | ⟨_, _, _, h⟩ | ⟨snap, hb, _, h⟩ <;> rw [h]
  · exact State.Within.refl _ _
  · exact State.Within.of_hw rfl rfl rfl rfl rfl rfl
  · exact State.Within.complete hb

/-- Soundness survives a later overlap. -/
theorem WireRecord.Sound.mono {r : WireRecord} {a b : Bool} (h : r.Sound a) (hab : a = true → b = true) : r.Sound b :=
  ⟨h.1, h.2.1, fun h1 h2 h3 h4 => h.2.2 h1 h2 h3 (by cases a <;> simp_all)⟩

theorem State.Within.overlapWrite {W} (w : RegWrite) (hw : W w) (ha : RegWrite.Affects w) {snap : Snap} (hb : s.hw.engine = .busy snap) :
    State.Within W s (s.overlapWrite w snap) := by
  have hcases : ∃ hw', (hw' = s.hw ∨ hw' = s.hw.store w) ∧ s.overlapWrite w snap = (s.setHw { hw' with engine := .busy { snap with corrupt := true }, overlap := true }).draw := by
    unfold State.overlapWrite
    by_cases hr : Config.collisionKeepsOld s.drawn = true
    · exact ⟨s.hw, .inl rfl, by simp [hr]⟩
    · exact ⟨_, .inr rfl, by simp [hr]⟩
  obtain ⟨hw', hc, e⟩ := hcases
  rw [e]
  refine ⟨rfl, rfl, rfl, rfl, fun _ => rfl, fun _ => ⟨w, hw, ha⟩, ⟨[], by simp, by simp⟩, ?_, ?_, ?_, ?_, ?_⟩
  · intro h; left
    rcases hc with rfl | rfl
    · exact absurd rfl h
    · cases w <;> first | exact absurd rfl h | exact ⟨_, hw⟩
  · intro h; left
    rcases hc with rfl | rfl
    · exact absurd rfl h
    · cases w <;> first | exact absurd rfl h | exact ⟨_, hw⟩
  · intro h; left
    rcases hc with rfl | rfl
    · exact absurd rfl h
    · cases w <;> first | exact absurd rfl h | exact ⟨_, _, hw⟩
  · intro h; left
    rcases hc with rfl | rfl
    · exact absurd rfl h
    · cases w <;> first | exact absurd rfl h | exact ⟨_, hw⟩
  · intro hW h
    refine ⟨?_, fun sn hs => ?_, h.3, fun _ _ _ => rfl, fun r hr => (h.5 r hr).mono fun _ => rfl⟩
    · rcases hc with rfl | rfl
      · exact h.1
      · cases w <;> first | exact h.1 | exact hW _ hw
    · simp at hs; subst hs; exact h.2 snap hb

theorem State.Within.storeWrite {W} (w : RegWrite) (hw : W w) :
    State.Within W s (s.storeWrite w) := by
  have he : (s.hw.store w).engine = s.hw.engine := store_engine w s.hw
  have ho : (s.hw.store w).overlap = s.hw.overlap := by cases w <;> rfl
  refine ⟨rfl, rfl, rfl, rfl, fun h => by simpa [State.storeWrite, ho] using h, fun h => absurd ho h, ⟨[], by simp [State.storeWrite], by simp⟩, ?_, ?_, ?_, ?_, ?_⟩
  · intro h; left; cases w <;> first | exact absurd rfl h | exact ⟨_, hw⟩
  · intro h; left; cases w <;> first | exact absurd rfl h | exact ⟨_, hw⟩
  · intro h; left; cases w <;> first | exact absurd rfl h | exact ⟨_, _, hw⟩
  · intro h; left; cases w <;> first | exact absurd rfl h | exact ⟨_, hw⟩
  · intro hW h
    refine ⟨?_, fun sn hs => h.2 sn (by simpa [State.storeWrite, he] using hs), h.3, fun sn hs hc => ?_, fun r hr => (h.5 r hr).mono fun hh => by simpa [State.storeWrite, ho] using hh⟩
    · cases w <;> first | exact h.1 | exact hW _ hw
    · simp only [State.storeWrite, State.setHw_hw, ho]; exact h.4 sn (by simpa [State.storeWrite, he] using hs) hc

theorem State.Within.startTransfer {W} (v : CtrlWord) (hw : W (.ctrl v)) :
    State.Within W s (s.startTransfer v) := by
  refine ⟨rfl, rfl, rfl, rfl, id, fun h => absurd rfl h, ⟨[], by simp [State.startTransfer], by simp⟩, fun h => absurd rfl h, fun h => absurd rfl h, fun h => absurd rfl h, fun _ => .inl ⟨v, hw⟩, ?_⟩
  intro _ h
  refine ⟨h.1, fun sn hs => ?_, h.3, fun sn hs hc => ?_, h.5⟩
  · simp [State.startTransfer] at hs; subst hs; exact h.1
  · simp [State.startTransfer] at hs; subst hs; cases hc

theorem State.Within.resetPeripheral {W} (hw : W (.reset true)) : State.Within W s s.resetPeripheral := by
  have key : ∀ ws : List WireRecord, (∀ r ∈ ws, ∃ snap, s.hw.engine = .busy snap ∧ r = snap.abortedRecord) → ∀ t : State,
      t = { s with hw := s.hw.cleared, wire := s.wire ++ ws } → State.Within W s t := by
    rintro ws hws t rfl
    refine ⟨rfl, rfl, rfl, rfl, id, fun h => absurd rfl h, ⟨ws, rfl, fun h => absurd hw h⟩, fun _ => .inr hw, fun _ => .inr hw, fun _ => .inr hw, fun _ => .inr hw, ?_⟩
    intro _ h
    refine ⟨Nat.two_pow_pos _, fun _ h' => (by cases h'), fun r hr => ?_, fun _ h' => (by cases h'), fun r hr => ?_⟩
    · rcases List.mem_append.1 hr with hr | hr
      · exact h.3 r hr
      · obtain ⟨snap, hb, rfl⟩ := hws r hr; exact h.2 snap hb
    · rcases List.mem_append.1 hr with hr | hr
      · exact h.5 r hr
      · obtain ⟨snap, hb, rfl⟩ := hws r hr
        exact ⟨fun _ => rfl, fun _ => rfl, fun h => by cases h⟩
  cases hb : s.hw.engine with
  | idle => exact key [] (by simp) _ (by simp [State.resetPeripheral, hb, State.setHw])
  | busy snap => exact key [snap.abortedRecord] (by simp [hb]) _ (by simp [State.resetPeripheral, hb, State.setHw, State.addRecord])

/-- Every write at the peripheral. -/
theorem State.Within.hwWrite {W} (w : RegWrite) (hw : W w) (s : State) : State.Within W s (s.hwWrite w) := by
  cases hb : s.hw.engine with
  | idle =>
    cases w with
    | ctrl v =>
      by_cases hv : v.getLsbD 8 = true
      · rw [hwWrite_go_idle hb hv]; exact State.Within.startTransfer v hw
      · rw [hwWrite_cfg_idle hb (by simpa using hv)]; exact State.Within.storeWrite _ hw
    | divider v => rw [hwWrite_stores hb (by trivial)]; exact State.Within.storeWrite _ hw
    | ss m => exact State.Within.storeWrite _ hw
    | data k v => rw [hwWrite_stores hb (by trivial)]; exact State.Within.storeWrite _ hw
    | reset b =>
      cases b
      · exact State.Within.refl _ _
      · exact State.Within.resetPeripheral hw
  | busy snap =>
    cases w with
    | ctrl v => rw [hwWrite_busy_overlap hb _ (.inl ⟨_, rfl⟩)]; exact State.Within.overlapWrite _ hw trivial hb
    | divider v => rw [hwWrite_busy_overlap hb _ (.inr (.inl ⟨_, rfl⟩))]; exact State.Within.overlapWrite _ hw trivial hb
    | ss m => exact State.Within.storeWrite _ hw
    | data k v => rw [hwWrite_busy_overlap hb _ (.inr (.inr ⟨_, _, rfl⟩))]; exact State.Within.overlapWrite _ hw trivial hb
    | reset b =>
      cases b
      · exact State.Within.refl _ _
      · exact State.Within.resetPeripheral hw

/-! ### Calls on every path -/

/-- An event of a write of `W`, or of a read of BUSY. -/
def EventOf (W : RegWrite → Prop) (e : BusEvent) : Prop := (∃ w, W w ∧ e = w.event) ∨ ∃ v, e = .read .busy v ∧ (v = 0 ∨ v = 1)

/-- What a sequence of calls with writes in `W` does. -/
def Call.Within {α : Type} (W : RegWrite → Prop) (s : State) : Call α → Prop
  | .done _ t => State.Within W s t ∧ ∃ es, t.trace = s.trace ++ es ∧ ∀ e ∈ es, EventOf W e
  | .failed e t => State.Within W s t ∧ ∃ es r, e = .transport r ∧ t.trace = s.trace ++ es ++ [.failed r] ∧ ∀ e ∈ es, EventOf W e

theorem Call.Within.andThen {α β : Type} {W} {c : Call α} {f : α → State → Call β} (h : Call.Within W s c)
    (hf : ∀ v t, c = .done v t → Call.Within W t (f v t)) : Call.Within W s (c.andThen f) := by
  cases c with
  | done v t =>
    obtain ⟨k, es, h1, h2⟩ := h
    have := hf v t rfl
    show Call.Within W s (f v t)
    cases hfv : f v t with
    | done v' t' =>
      rw [hfv] at this
      obtain ⟨k', es', h1', h2'⟩ := this
      exact ⟨k.trans k', es ++ es', by rw [h1', h1, List.append_assoc], fun e he => (List.mem_append.1 he).elim (h2 e) (h2' e)⟩
    | failed e' t' =>
      rw [hfv] at this
      obtain ⟨k', es', r, hr, h1', h2'⟩ := this
      exact ⟨k.trans k', es ++ es', r, hr, by rw [h1', h1]; simp [List.append_assoc], fun e he => (List.mem_append.1 he).elim (h2 e) (h2' e)⟩
  | failed e t => exact h

theorem Call.Within.memWrite {W} (w : RegWrite) (hw : W w) (s : State) : Call.Within W s (memWrite w s) := by
  have k1 := (State.Within.tick (W := W) s)
  have hk := s.tick.hwWrite_coreKept w
  by_cases h : s.LinkUp w.reg
  · rw [memWrite_carried h]
    refine ⟨(k1.trans (State.Within.hwWrite w hw s.tick)).trans (State.Within.of_hw rfl rfl rfl rfl rfl rfl), [w.event], by simp [hk.trace], fun e he => .inl ⟨w, hw, by simpa using he⟩⟩
  · rw [memWrite_failed h]
    have k2 : State.Within W s (if Config.writeReached s.tick.drawn then s.tick.hwWrite w else s.tick) := by
      split
      · exact k1.trans (State.Within.hwWrite w hw s.tick)
      · exact k1
    refine ⟨k2.trans (State.Within.of_hw rfl rfl rfl rfl rfl rfl), [], w.reg, rfl, ?_, by simp⟩
    simp only [State.linkFailed]
    split <;> simp [hk.trace]

theorem Call.Within.memWrites {W} : ∀ (ws : List RegWrite) (_ : ∀ w ∈ ws, W w) (s : State), Call.Within W s (memWrites ws s)
  | [], _, s => ⟨State.Within.refl _ _, [], by simp, by simp⟩
  | w :: ws, h, s => (Call.Within.memWrite w (h w (by simp)) s).andThen fun _ t _ => Call.Within.memWrites ws (fun x hx => h x (by simp [hx])) t

theorem Call.Within.memReadBusy {W} (s : State) : Call.Within W s (memRead .busy s) := by
  by_cases h : s.LinkUp .busy
  · rw [memRead_carried h]
    refine ⟨(State.Within.tick s).trans (State.Within.of_hw rfl rfl rfl rfl rfl rfl), [.read .busy (s.tick.readReg .busy).1], by simp [State.readReg], fun e he => .inr ⟨(s.tick.readReg .busy).1, by simpa using he, ?_⟩⟩
    simp only [State.readReg, Hw.busyValue]; split <;> simp
  · rw [memRead_failed h]
    exact ⟨(State.Within.tick s).trans (State.Within.of_hw rfl rfl rfl rfl rfl rfl), [], .busy, rfl, by simp [State.linkFailed], by simp⟩

/-- A shadow write before the calls. -/
theorem Call.Within.shadow {α : Type} {W} {c : Call α} (x : Shadow) (h : Call.Within W (s.setShadow x) c) : Call.Within W s c := by
  cases c with
  | done v t => exact ⟨(State.Within.of_hw rfl rfl rfl rfl rfl rfl : State.Within W s (s.setShadow x)).trans h.1, h.2⟩
  | failed e t => exact ⟨(State.Within.of_hw rfl rfl rfl rfl rfl rfl : State.Within W s (s.setShadow x)).trans h.1, h.2⟩

theorem Call.Within.startCalls {W} (hW : ∀ v, W (.ctrl v)) (s : State) : Call.Within W s (startCalls s) :=
  Call.Within.shadow { s.shadow with goBusy := true } (Call.Within.memWrite _ (hW _) _)

theorem Call.Within.transmitCalls {W} (hW : ∀ v, W (.ctrl v)) (hd : ∀ k v, W (.data k v)) (w : Slot) (s : State) : Call.Within W s (transmitCalls w s) := by
  rw [transmitCalls_eq]
  refine Call.Within.andThen (Call.Within.shadow _ (Call.Within.memWrites _ ?_ _)) fun _ t _ => Call.Within.startCalls hW t
  intro x hx; simp [bankWrites] at hx; rcases hx with rfl | rfl | rfl | rfl | rfl | rfl | rfl | rfl | rfl <;> first | exact hd _ _ | exact hW _

theorem Call.Within.sendFrames {W} (hW : ∀ v, W (.ctrl v)) (hd : ∀ k v, W (.data k v)) : ∀ (ws : List Frame) (s : State), Call.Within W s (sendFrames ws s)
  | [], s => ⟨State.Within.refl _ _, [], by simp, by simp⟩
  | w :: ws, s => (Call.Within.transmitCalls hW hd w s).andThen fun _ t _ => Call.Within.sendFrames hW hd ws t

theorem Call.Within.pulseReset {W} (hW : ∀ b, W (.reset b)) (s : State) : Call.Within W s (pulseReset s) := by
  have hp : ∀ n : Fin 4, State.Within W s (s.tick.applyPulse n) := by
    intro n
    rcases applyPulse_cases n s.tick with h | h <;> rw [h]
    · exact State.Within.tick s
    · exact (State.Within.tick s).trans (State.Within.resetPeripheral (hW true))
  have ht : ∀ n : Fin 4, (s.tick.applyPulse n).trace = s.trace := by
    intro n
    rcases applyPulse_cases n s.tick with h | h <;> rw [h]
    · simp
    · have := s.tick.hwWrite_coreKept (.reset true)
      exact this.trace.trans s.tick_trace
  by_cases h : s.LinkUp .reset
  · rw [pulseReset_carried h]
    refine ⟨(hp 3).trans (State.Within.of_hw rfl rfl rfl rfl rfl rfl), [.write .reset 0, .write .reset 1, .write .reset 0], by simpa using ht 3, ?_⟩
    intro e he; simp at he
    rcases he with rfl | rfl | rfl
    · exact .inl ⟨.reset false, hW _, rfl⟩
    · exact .inl ⟨.reset true, hW _, rfl⟩
    · exact .inl ⟨.reset false, hW _, rfl⟩
  · rw [pulseReset_failed h]
    exact ⟨(hp _).trans (State.Within.of_hw rfl rfl rfl rfl rfl rfl), [], .reset, rfl, by simpa [State.linkFailed] using ht _, by simp⟩

/-! ### The shadow on every path (R43) -/

/-- The state in which a sequence of calls ends. -/
def Call.state {α : Type} : Call α → State
  | .done _ s => s
  | .failed _ s => s

theorem memWrite_shadow (w : RegWrite) (s : State) : (memWrite w s).state.shadow = s.shadow := by
  have hk := s.tick.hwWrite_coreKept w
  by_cases h : s.LinkUp w.reg
  · rw [memWrite_carried h]; simp [Call.state, hk.shadow]
  · rw [memWrite_failed h]; simp only [Call.state, State.linkFailed]; split <;> simp [hk.shadow]

/-- A transitive relation holds over calls one after the other. -/
theorem andThen_state {α β : Type} (R : State → State → Prop) (ht : ∀ s t u, R s t → R t u → R s u) (c : Call α) (f : α → State → Call β)
  (hc : R s c.state) (hf : ∀ v t, R t (f v t).state) : R s (c.andThen f).state := by
  cases c with
  | done v t => exact ht _ _ _ hc (hf v t)
  | failed e t => exact hc

theorem memWrites_shadow : ∀ (ws : List RegWrite) (s : State), (memWrites ws s).state.shadow = s.shadow
  | [], _ => rfl
  | w :: ws, s => andThen_state (fun s t => t.shadow = s.shadow) (fun _ _ _ h h' => h'.trans h) _ _ (memWrite_shadow w s) (fun _ t => memWrites_shadow ws t)

/-- Only the bank and goBusy may differ, and goBusy is not cleared. -/
def Shadow.TransmitStep (x y : Shadow) : Prop := ∃ b g, y = { x with bank := b, goBusy := g } ∧ (x.goBusy = true → g = true)

theorem Shadow.TransmitStep.refl (x : Shadow) : Shadow.TransmitStep x x := ⟨x.bank, x.goBusy, rfl, id⟩

theorem Shadow.TransmitStep.trans {x y z : Shadow} (a : Shadow.TransmitStep x y) (b : Shadow.TransmitStep y z) : Shadow.TransmitStep x z := by
  obtain ⟨b1, g1, rfl, h1⟩ := a
  obtain ⟨b2, g2, rfl, h2⟩ := b
  exact ⟨b2, g2, rfl, fun h => h2 (h1 h)⟩

theorem startCalls_shadow (s : State) : (startCalls s).state.shadow = { s.shadow with goBusy := true } := memWrite_shadow _ _

theorem transmitCalls_step (w : Slot) (s : State) : Shadow.TransmitStep s.shadow (transmitCalls w s).state.shadow := by
  rw [transmitCalls_eq]
  refine andThen_state (fun s t => Shadow.TransmitStep s.shadow t.shadow) (fun _ _ _ => Shadow.TransmitStep.trans) _ _ ?_ ?_
  · rw [memWrites_shadow]; exact ⟨_, s.shadow.goBusy, rfl, id⟩
  · intro _ t; rw [startCalls_shadow]; exact ⟨t.shadow.bank, true, rfl, fun _ => rfl⟩

theorem sendFrames_step : ∀ (ws : List Frame) (s : State), Shadow.TransmitStep s.shadow (sendFrames ws s).state.shadow
  | [], _ => Shadow.TransmitStep.refl _
  | w :: ws, s => andThen_state (fun s t => Shadow.TransmitStep s.shadow t.shadow) (fun _ _ _ => Shadow.TransmitStep.trans) _ _ (transmitCalls_step w s) (fun _ t => sendFrames_step ws t)

end Sys2Proof.Machine
end

