-- ==== Sys2Proof/Laws/Exec.lean ====
section
/-! SUPPORT. What executing an instruction, and what a step, can do. -/

namespace Sys2Proof.Machine

open Sys2Proof

variable {s t u : State}

/-- The writes an instruction may make. -/
def Instr.Allowed : Instr → RegWrite → Prop
  | .setDiv _, w => ∃ v, w = .divider v ∧ v < 2 ^ Config.divWidth
  | .setSs _, w => ∃ m, w = .ss m
  | .wrBank _, w => ∃ k v, w = .data k v
  | .reset, w => ∃ b, w = .reset b
  | .start, w => ∃ v, w = .ctrl v
  | .ctrlCfg .., w => ∃ v, w = .ctrl v
  | .ctrlGo .., w => ∃ v, w = .ctrl v
  | i, w => sendsFrames i = true ∧ ((∃ v, w = .ctrl v) ∨ ∃ k v, w = .data k v)

theorem Instr.Allowed.fits {i : Instr} {w : RegWrite} (h : Instr.Allowed i w) : RegWrite.Fits w := by
  have hc : ∀ v, RegWrite.Fits (.ctrl v) := fun v => v.isLt
  have hd : ∀ k v, RegWrite.Fits (.data k v) := fun k v => v.isLt
  have hs : ∀ v, RegWrite.Fits (.ss v) := fun v => v.isLt
  have hr : ∀ b, RegWrite.Fits (.reset b) := fun b => by cases b <;> simp [RegWrite.Fits, RegWrite.value, RegWrite.reg, regWidth]
  cases i <;> simp only [Instr.Allowed] at h <;>
    first
    | (obtain ⟨v, rfl, h⟩ := h; exact h)
    | (obtain ⟨v, rfl⟩ := h; first | exact hc _ | exact hs _ | exact hr _)
    | (obtain ⟨k, v, rfl⟩ := h; exact hd _ _)
    | (obtain ⟨_, ⟨v, rfl⟩ | ⟨k, v, rfl⟩⟩ := h; (· exact hc _); (· exact hd _ _))

/-- How an executed instruction ends. -/
inductive Ended (i : Instr) (s t : State) : Prop where
  | range (c n) (h : t = s.ended (.err (.range c n)))
  | call {α : Type} (c : Call α) (f : α → Value) (ht : t = c.toHost f) (hc : Call.Within (Instr.Allowed i) s c)
  | plain (v : Value) (x : Shadow) (h : t = returnOk v (s.setShadow x))
  | poll (c : Call Nat) (v : Nat) (u : State) (hc : Call.Within (Instr.Allowed i) s c) (e : c = .done v u) (ht : t = u)
  | delivered (w : RegWrite) (hw : Instr.Allowed i w) (ht : t = (s.hwWrite w).delivered)

theorem exec_ended {i : Instr} (h : exec i s = .next t) : Ended i s t := by
  have hT : ∀ i : Instr, (∃ w : Frame, exec i s = .next (sendFrame w s)) → (∀ v, Instr.Allowed i (.ctrl v)) → (∀ k v, Instr.Allowed i (.data k v)) → exec i s = .next t → Ended i s t := by
    rintro i ⟨w, e⟩ h1 h2 h
    rw [e] at h; cases h
    exact .call (transmitCalls w s) _ rfl (Call.Within.transmitCalls h1 h2 w s)
  cases i with
  | setDataLen n =>
    by_cases hn : InRange 0 255 n
    · rw [exec, execSetDataLen, operandDataLen_ok hn] at h; cases h; exact .plain _ _ rfl
    · rw [exec, execSetDataLen, operandDataLen_bad hn] at h; cases h; exact .range _ _ rfl
  | setRxNeg b => cases h; exact .plain _ _ rfl
  | setTxNeg b => cases h; exact .plain _ _ rfl
  | setLsbFirst b => cases h; exact .plain _ _ rfl
  | setIe b => cases h; exact .plain _ _ rfl
  | setAss b => cases h; exact .plain _ _ rfl
  | setDiv v =>
    by_cases hn : InRange 0 (2 ^ Config.divWidth - 1) v
    · rw [exec, execSetDiv, operandDivider_ok hn] at h; cases h
      refine .call _ _ rfl (Call.Within.shadow { s.shadow with clkDiv := v.toNat } (Call.Within.memWrite _ ⟨_, rfl, ?_⟩ _))
      obtain ⟨h1, h2⟩ := hn
      obtain ⟨n, rfl⟩ := Int.eq_ofNat_of_zero_le h1
      have : (n : Int) < ((2 ^ Config.divWidth : Nat) : Int) := by push_cast; omega
      simp; omega
    · rw [exec, execSetDiv, operandDivider_bad hn] at h; cases h; exact .range _ _ rfl
  | setSs m =>
    by_cases hn : InRange 0 255 m
    · rw [exec, execSetSs, operandSlaveSelect_ok hn] at h; cases h
      exact .call _ _ rfl (Call.Within.shadow { s.shadow with ssMask := _ } (Call.Within.memWrite _ ⟨_, rfl⟩ _))
    · rw [exec, execSetSs, operandSlaveSelect_bad hn] at h; cases h; exact .range _ _ rfl
  | wrBank vs =>
    rw [exec, execWrBank] at h
    cases ho : operandBank vs with
    | ok b =>
      rw [ho] at h; cases h
      refine .call _ _ rfl (Call.Within.shadow { s.shadow with bank := b } (Call.Within.memWrites _ ?_ _))
      intro x hx; simp [bankWrites] at hx; rcases hx with rfl | rfl | rfl | rfl | rfl | rfl | rfl | rfl <;> exact ⟨_, _, rfl⟩
    | error e =>
      rw [ho] at h; cases h
      unfold operandBank at ho
      split at ho
      · split at ho
        · cases ho
        · cases ho; exact .range _ _ rfl
      · cases ho; exact .range _ _ rfl
  | reset => cases h; exact .call _ _ rfl (Call.Within.pulseReset (fun b => ⟨b, rfl⟩) s)
  | isBusy => cases h; exact .call _ _ rfl (Call.Within.memReadBusy s)
  | start => cases h; exact .call _ _ rfl (Call.Within.startCalls (fun v => ⟨v, rfl⟩) s)
  | waitIdle =>
    cases h
    have hc := Call.Within.memReadBusy (W := Instr.Allowed .waitIdle) s
    cases hm : memRead .busy s with
    | done v u =>
      rw [hm] at hc
      by_cases hv : busyTest v = true
      · exact .poll (.done v u) v u hc rfl (by simp [waitIdlePolled, hv])
      · exact .call (.done v u) (fun _ => .unit) (by simp [waitIdlePolled, hv, Call.toHost]) hc
    | failed e u =>
      rw [hm] at hc
      exact .call (.failed e u : Call Nat) (fun _ => .unit) (by simp [waitIdlePolled, Call.toHost]) hc
  | encodeFrame d a p =>
    rw [exec, execEncodeFrame] at h
    split at h
    · cases h; exact .plain _ s.shadow rfl
    · cases h
  | transmit word =>
    rw [exec, execTransmit] at h
    by_cases hn : FitsSlot word
    · rw [operandWord_ok hn] at h; cases h
      exact .call _ _ rfl (Call.Within.transmitCalls (fun v => ⟨rfl, .inl ⟨v, rfl⟩⟩) (fun k v => ⟨rfl, .inr ⟨k, v, rfl⟩⟩) _ s)
    · rw [operandWord_bad hn] at h; cases h; exact .range _ _ rfl
  | cfgPixel addr hh lo we pe m =>
    rw [exec, execCfgPixel] at h
    have hs := fun ws => Call.Within.sendFrames (W := Instr.Allowed (.cfgPixel addr hh lo we pe m)) (fun v => ⟨rfl, .inl ⟨v, rfl⟩⟩) (fun k v => ⟨rfl, .inr ⟨k, v, rfl⟩⟩) ws s
    split at h
    · cases h; exact .call _ _ rfl (hs _)
    · rename_i ws stop _
      have := hs ws
      cases hc : sendFrames ws s with
      | done v u => rw [hc] at h; cases h
      | failed e u =>
        rw [hc] at h this; cases h
        exact .call (.failed e u : Call Unit) (fun _ => .unit) rfl this
  | frameW a p => exact hT _ ⟨_, rfl⟩ (fun v => ⟨rfl, .inl ⟨v, rfl⟩⟩) (fun k v => ⟨rfl, .inr ⟨k, v, rfl⟩⟩) h
  | frameR a p => exact hT _ ⟨_, rfl⟩ (fun v => ⟨rfl, .inl ⟨v, rfl⟩⟩) (fun k v => ⟨rfl, .inr ⟨k, v, rfl⟩⟩) h
  | pixAddr p => exact hT _ ⟨_, rfl⟩ (fun v => ⟨rfl, .inl ⟨v, rfl⟩⟩) (fun k v => ⟨rfl, .inr ⟨k, v, rfl⟩⟩) h
  | pixDacLo p => exact hT _ ⟨_, rfl⟩ (fun v => ⟨rfl, .inl ⟨v, rfl⟩⟩) (fun k v => ⟨rfl, .inr ⟨k, v, rfl⟩⟩) h
  | pixCtrl w e m hh => exact hT _ ⟨_, rfl⟩ (fun v => ⟨rfl, .inl ⟨v, rfl⟩⟩) (fun k v => ⟨rfl, .inr ⟨k, v, rfl⟩⟩) h
  | ctrlCfg => cases h; exact .delivered _ ⟨_, rfl⟩ rfl
  | ctrlGo => cases h; exact .delivered _ ⟨_, rfl⟩ rfl

/-- Everything a step that answers a next state can have done. -/
theorem step_cases (h : step s = .next t) : (s.inbox = [] ∧ t = s.tick) ∨ ∃ i, exec i s.tick = .next t := by
  unfold step State.fetch at h
  split at h
  · rename_i hh; cases h; left; exact ⟨by simpa using hh, rfl⟩
  · split at h
    · exact .inr ⟨_, h⟩
    · cases h

end Sys2Proof.Machine
end

