-- ==== Sys2Proof/Laws/PerInstr.lean ====
section
/-! SUPPORT. The family OpcodeRow: the packet that the encoder writes for an instruction is one of that instruction's
own row of opcode_table.json, by the row's format, mask and match value. -/

namespace Sys2Proof.Laws.OpcodeRow

open Sys2Proof Sys2Proof.Machine

/-- The encoding lies in the instruction's row of the opcode table. -/
def Statement (i : Instr) : Prop := (tableRow i).fits (encode i) = true

/-- Under the mask 0x8000 a frame is its direction bit. -/
theorem frame_and_direction (d : Bool) (a : BitVec 7) (p : Byte) :
    (frame d a p).toNat &&& 0x8000 = (bitAt 16 15 d).toNat := by
  have h : frame d a p &&& 0x8000#16 = bitAt 16 15 d := by
    apply BitVec.eq_of_getLsbD_eq
    intro i hi
    rw [BitVec.getLsbD_and, frame_getLsbD, bitAt_getLsbD _ _ _ _ (by omega)]
    have m : (0x8000#16).getLsbD i = decide (i = 15) := by revert i; decide
    rw [m]
    by_cases h : i = 15 <;> simp [h]
  rw [← h, BitVec.toNat_and]
  rfl

/-- Under the mask 0xFF00 a frame is the frame with an empty payload. -/
theorem frame_and_address (d : Bool) (a : BitVec 7) (p : Byte) :
    (frame d a p).toNat &&& 0xFF00 = (frame d a 0).toNat := by
  have h : frame d a p &&& 0xFF00#16 = frame d a 0 := by
    apply BitVec.eq_of_getLsbD_eq
    intro i hi
    rw [BitVec.getLsbD_and, frame_getLsbD, frame_getLsbD]
    have m : (0xFF00#16).getLsbD i = !decide (i < 8) := by revert i; decide
    rw [m]
    by_cases h : i < 8
    · simp [-BitVec.getLsbD_eq_getElem, h, show i ≠ 15 by omega]
    · simp [-BitVec.getLsbD_eq_getElem, h]
  rw [← h, BitVec.toNat_and]
  rfl

/-- Under the mask 0x0100 a control word is its go bit. -/
theorem pack_and_go (ass ie lsb txNeg rxNeg g : Bool) (dataLen : Byte) :
    (pack ass ie lsb txNeg rxNeg g dataLen).toNat &&& 0x100 = (bitAt 14 8 g).toNat := by
  have h : pack ass ie lsb txNeg rxNeg g dataLen &&& 0x100#14 = bitAt 14 8 g := by
    apply BitVec.eq_of_getLsbD_eq
    intro i hi
    rw [BitVec.getLsbD_and, pack_getLsbD, bitAt_getLsbD _ _ _ _ (by omega)]
    have m : (0x100#14).getLsbD i = decide (i = 8) := by revert i; decide
    rw [m]
    by_cases h : i = 8 <;> simp [h]
  rw [← h, BitVec.toNat_and]
  rfl

theorem setDataLen (n : Int) : Statement (.setDataLen n) := by
  simp [Statement, tableRow, encode, Row.fits, Packet.format, Packet.bits]

theorem setRxNeg (b : Bool) : Statement (.setRxNeg b) := by
  simp [Statement, tableRow, encode, Row.fits, Packet.format, Packet.bits]

theorem setTxNeg (b : Bool) : Statement (.setTxNeg b) := by
  simp [Statement, tableRow, encode, Row.fits, Packet.format, Packet.bits]

theorem setLsbFirst (b : Bool) : Statement (.setLsbFirst b) := by
  simp [Statement, tableRow, encode, Row.fits, Packet.format, Packet.bits]

theorem setIe (b : Bool) : Statement (.setIe b) := by
  simp [Statement, tableRow, encode, Row.fits, Packet.format, Packet.bits]

theorem setAss (b : Bool) : Statement (.setAss b) := by
  simp [Statement, tableRow, encode, Row.fits, Packet.format, Packet.bits]

theorem setDiv (v : Int) : Statement (.setDiv v) := by
  simp [Statement, tableRow, encode, Row.fits, Packet.format, Packet.bits]

theorem setSs (m : Int) : Statement (.setSs m) := by
  simp [Statement, tableRow, encode, Row.fits, Packet.format, Packet.bits]

theorem wrBank (vs : List Int) : Statement (.wrBank vs) := by
  simp [Statement, tableRow, encode, Row.fits, Packet.format, Packet.bits]

theorem reset : Statement (.reset) := by
  simp [Statement, tableRow, encode, Row.fits, Packet.format, Packet.bits]

theorem isBusy : Statement (.isBusy) := by
  simp [Statement, tableRow, encode, Row.fits, Packet.format, Packet.bits]

theorem start : Statement (.start) := by
  simp [Statement, tableRow, encode, Row.fits, Packet.format, Packet.bits]

theorem waitIdle : Statement (.waitIdle) := by
  simp [Statement, tableRow, encode, Row.fits, Packet.format, Packet.bits]

theorem encodeFrame (d a p : Int) : Statement (.encodeFrame d a p) := by
  simp [Statement, tableRow, encode, Row.fits, Packet.format, Packet.bits]

theorem transmit (word : Int) : Statement (.transmit word) := by
  simp [Statement, tableRow, encode, Row.fits, Packet.format, Packet.bits]

theorem cfgPixel (addr h lo we pe m : Int) : Statement (.cfgPixel addr h lo we pe m) := by
  simp [Statement, tableRow, encode, Row.fits, Packet.format, Packet.bits]

theorem frameW (a : BitVec 7) (p : Byte) : Statement (.frameW a p) := by
  have h := frame_and_direction false a p
  simp only [Statement, tableRow, encode, Row.fits, Packet.format, Packet.bits, h]
  rfl

theorem frameR (a : BitVec 7) (p : Byte) : Statement (.frameR a p) := by
  have h := frame_and_direction true a p
  simp only [Statement, tableRow, encode, Row.fits, Packet.format, Packet.bits, h]
  rfl

theorem pixAddr (p : Byte) : Statement (.pixAddr p) := by
  have h := frame_and_address false 0x20 p
  simp only [Statement, tableRow, encode, Row.fits, Packet.format, Packet.bits, h]
  rfl

theorem pixDacLo (p : Byte) : Statement (.pixDacLo p) := by
  have h := frame_and_address false 0x21 p
  simp only [Statement, tableRow, encode, Row.fits, Packet.format, Packet.bits, h]
  rfl

theorem pixCtrl (w e : Bool) (m : BitVec 2) (h : BitVec 4) : Statement (.pixCtrl w e m h) := by
  have h := frame_and_address false 0x22 (pixelByte w e m h)
  simp only [Statement, tableRow, encode, Row.fits, Packet.format, Packet.bits, h]
  rfl

theorem ctrlCfg (ass ie lsb txNeg rxNeg : Bool) (dataLen : Byte) :
    Statement (.ctrlCfg ass ie lsb txNeg rxNeg dataLen) := by
  have h := pack_and_go ass ie lsb txNeg rxNeg false dataLen
  simp only [Statement, tableRow, encode, Row.fits, Packet.format, Packet.bits, h]
  rfl

theorem ctrlGo (ass ie lsb txNeg rxNeg : Bool) (dataLen : Byte) :
    Statement (.ctrlGo ass ie lsb txNeg rxNeg dataLen) := by
  have h := pack_and_go ass ie lsb txNeg rxNeg true dataLen
  simp only [Statement, tableRow, encode, Row.fits, Packet.format, Packet.bits, h]
  rfl

end Sys2Proof.Laws.OpcodeRow
end

