-- ==== Sys2Proof/Laws/Transfers.lean ====
section
/-! SUPPORT. What operations can do that meet a failing call or a transfer in flight: sequences of writes of which one
fails, writes of the slots of one bank, writes that a transfer outlasts or that it ends between, and the TRANSMIT and
CFGPIXEL made of them. -/

namespace Sys2Proof.Machine

open Sys2Proof

variable {s t u v : State}

/-! ### A sequence of writes of which one fails (R204, R206) -/

/-- What a write whose call fails does to the core. -/
theorem memWrite_fails {w : RegWrite} (h : ¬ s.LinkUp w.reg) : ∃ t, memWrite w s = .failed (.transport w.reg) t ∧
    t.shadow = s.shadow ∧ t.trace = s.trace ++ [.failed w.reg] ∧ t.results = s.results ∧ t.opIndex = s.opIndex ∧
    t.registerMap = s.registerMap ∧ t.inbox = s.inbox := by
  have k := s.tick.hwWrite_coreKept w
  refine ⟨_, memWrite_failed h, ?_, ?_, ?_, ?_, ?_, ?_⟩ <;> by_cases e : Config.writeReached s.tick.drawn = true <;>
    simp [State.linkFailed, e, k.shadow, k.trace, k.results, k.opIndex, k.registerMap, k.inbox]

/-- The link fails at the call after a run of `k` successes. -/
theorem not_linkUp_after {r : Reg} {k : Nat} (hm : t.registerMap = s.registerMap)
    (hl : t.linkOk = linkAfter k s.linkOk) (hf : r ∉ s.registerMap ∨ s.linkOk = some k) : ¬ t.LinkUp r := by
  rintro ⟨h1, h2⟩
  rcases hf with hf | hf
  · exact hf (hm ▸ h1)
  · exact h2 (by simp [hl, hf])

/-- A list split at one of its elements. -/
theorem split_at {ws : List RegWrite} {k : Nat} {w : RegWrite} (hk : ws[k]? = some w) :
    ws = ws.take k ++ w :: ws.drop (k + 1) := by
  obtain ⟨hlt, hget⟩ := List.getElem?_eq_some_iff.1 hk
  rw [← hget, ← List.drop_eq_getElem_cons hlt, List.take_append_drop]

/-- Writes of which the k-th fails are the first k and that one. -/
theorem memWrites_at {ws : List RegWrite} {k : Nat} {w : RegWrite} {t : State} (hk : ws[k]? = some w)
    (h : memWrites (ws.take k) s = .done () t) (hf : ¬ t.LinkUp w.reg) : memWrites ws s = memWrite w t := by
  conv => lhs; rw [split_at hk]
  rw [memWrites_append, h]
  simp only [Call.andThen, memWrites, memWrite_failed hf]

/-- What writes of which the k-th fails do to the core, whatever the engine does. -/
theorem memWrites_fails {ws : List RegWrite} {k : Nat} {w : RegWrite} (hk : ws[k]? = some w)
    (hl : s.LinkCarries ((ws.take k).map RegWrite.reg)) (hf : w.reg ∉ s.registerMap ∨ s.linkOk = some k) :
    ∃ t, memWrites ws s = .failed (.transport w.reg) t ∧ t.shadow = s.shadow ∧
      t.trace = s.trace ++ (ws.take k).map RegWrite.event ++ [.failed w.reg] ∧ t.results = s.results ∧
      t.opIndex = s.opIndex ∧ t.registerMap = s.registerMap ∧ t.inbox = s.inbox := by
  have hlt := (List.getElem?_eq_some_iff.1 hk).1
  obtain ⟨v, hv, h1, h2, h3, h4, h5, h6, h7⟩ := memWrites_carried _ s hl
  have hn := not_linkUp_after h5 (by rw [h7, List.length_take_of_le (Nat.le_of_lt hlt)]) hf
  obtain ⟨t, ht, g1, g2, g3, g4, g5, g6⟩ := memWrite_fails hn
  exact ⟨t, (memWrites_at hk hv hn).trans ht, g1.trans h1, by rw [g2, h2], g3.trans h3, g4.trans h4, g5.trans h5,
    g6.trans h6⟩

/-- Storing writes on an Idle engine of which the k-th fails: it reached the peripheral or not. -/
theorem memWrites_idle_fails {ws : List RegWrite} {k : Nat} {w : RegWrite} (hi : s.hw.engine = .idle)
    (hs : ∀ x ∈ ws, RegWrite.Stores x) (hk : ws[k]? = some w) (hl : s.LinkCarries ((ws.take k).map RegWrite.reg))
    (hf : w.reg ∉ s.registerMap ∨ s.linkOk = some k) :
    ∃ t, memWrites ws s = .failed (.transport w.reg) t ∧ t.wire = s.wire ∧
      (t.hw = (ws.take k).foldl (fun h w => h.store w) s.hw ∨
       t.hw = ((ws.take k).foldl (fun h w => h.store w) s.hw).store w) := by
  have hlt := (List.getElem?_eq_some_iff.1 hk).1
  have hv := memWrites_idle _ s hi (fun x hx => hs x (List.mem_of_mem_take hx)) hl
  have hen : ((ws.take k).foldl (fun h w => h.store w) s.hw).engine = .idle := by
    have : ∀ (ws : List RegWrite) (h : Hw), (ws.foldl (fun h w => h.store w) h).engine = h.engine := by
      intro ws; induction ws with
      | nil => intro _; rfl
      | cons x xs ih => intro h; rw [List.foldl_cons, ih, store_engine]
    rw [this, hi]
  have hn := not_linkUp_after (s := s) (t := { s with
      hw := (ws.take k).foldl (fun h w => h.store w) s.hw,
      trace := s.trace ++ (ws.take k).map RegWrite.event,
      linkOk := linkAfter (ws.take k).length s.linkOk })
    (r := w.reg) (k := k) rfl (by rw [List.length_take_of_le (Nat.le_of_lt hlt)]) hf
  have e := memWrites_at hk hv hn
  rw [memWrite_failed hn, State.tick_of_idle (by exact hen),
    hwWrite_stores (by exact hen) (hs w (List.mem_of_getElem? hk))] at e
  by_cases hr : Config.writeReached s.drawn = true
  · exact ⟨_, e, by simp [State.linkFailed, hr, State.storeWrite],
      .inr (by simp [State.linkFailed, hr, State.storeWrite])⟩
  · exact ⟨_, e, by simp [State.linkFailed, hr], .inl (by simp [State.linkFailed, hr])⟩

/-! ### Writes of the slots of one bank (R122, R146) -/

/-- The writes of some slots of `b`. -/
def SlotsOf (b : Bank) (ws : List RegWrite) : Prop := ∀ w ∈ ws, ∃ k : Fin 8, w = .data k b[k]

theorem bankWrites_slotsOf (b : Bank) : SlotsOf b (bankWrites b) := by
  intro w hw; simp [bankWrites] at hw
  rcases hw with rfl | rfl | rfl | rfl | rfl | rfl | rfl | rfl
  exacts [⟨0, rfl⟩, ⟨1, rfl⟩, ⟨2, rfl⟩, ⟨3, rfl⟩, ⟨4, rfl⟩, ⟨5, rfl⟩, ⟨6, rfl⟩, ⟨7, rfl⟩]

/-- Storing them changes those data registers only. -/
theorem foldl_slots {b : Bank} : ∀ (ws : List RegWrite) (h : Hw), SlotsOf b ws →
    ∃ data : Bank, ws.foldl (fun h w => h.store w) h = { h with data := data } ∧
      ∀ j : Fin 8, data[j] = if Reg.data j ∈ ws.map RegWrite.reg then b[j] else h.data[j]
  | [], h, _ => ⟨h.data, rfl, by simp⟩
  | w :: ws, h, hs => by
    obtain ⟨k, rfl⟩ := hs w (by simp)
    obtain ⟨d, h1, h2⟩ := foldl_slots ws (h.store (.data k b[k])) fun x hx => hs x (by simp [hx])
    refine ⟨d, by rw [List.foldl_cons, h1]; rfl, fun j => ?_⟩
    rw [h2 j]
    by_cases hj : Reg.data j ∈ ws.map RegWrite.reg
    · rw [if_pos hj, if_pos (by simp only [List.map_cons, List.mem_cons]; exact .inr hj)]
    · rw [if_neg hj]
      by_cases hjk : k = j
      · subst hjk; rw [if_pos (by simp [RegWrite.reg])]; simp [Hw.store]
      · have hv : k.val ≠ j.val := fun e => hjk (Fin.ext e)
        rw [if_neg (by
          simp only [List.map_cons, List.mem_cons, RegWrite.reg, Reg.data.injEq, not_or]
          exact ⟨fun e => hjk e.symm, hj⟩)]
        simp [Hw.store, hv]

/-- The registers of the first slots. -/
theorem mem_dataRegs_take (n : Nat) (hn : n ≤ 8) (j : Fin 8) : Reg.data j ∈ dataRegs.take n ↔ j.val < n := by
  have : ∀ n : Fin 9, ∀ j : Fin 8, Reg.data j ∈ dataRegs.take n.val ↔ j.val < n.val := by decide
  exact this ⟨n, by omega⟩ j

/-- The registers of the last slots. -/
theorem mem_dataRegs_drop (n : Nat) (hn : n ≤ 8) (j : Fin 8) : Reg.data j ∈ dataRegs.drop n ↔ n ≤ j.val := by
  have : ∀ n : Fin 9, ∀ j : Fin 8, Reg.data j ∈ dataRegs.drop n.val ↔ n.val ≤ j.val := by decide
  exact this ⟨n, by omega⟩ j

/-! ### Writes while a transfer outlasts them (R145) -/

/-- Storing touches neither the engine nor the overlap flag. -/
theorem foldl_store_keeps (ws : List RegWrite) (h : Hw) (e : Engine) (y : Bool) :
    ws.foldl (fun h w => h.store w) { h with engine := e, overlap := y } =
      { ws.foldl (fun h w => h.store w) h with engine := e, overlap := y } := by
  induction ws generalizing h with
  | nil => rfl
  | cons w ws ih =>
    have hw : ({ h with engine := e, overlap := y } : Hw).store w = { h.store w with engine := e, overlap := y } := by
      cases w <;> rfl
    rw [List.foldl_cons, List.foldl_cons, hw, ih]

/-- Some of the writes of transfer-affecting registers are stored, the transfer is spoiled and stays in flight. -/
theorem memWrites_overlap : ∀ (ws : List RegWrite) (s : State) (snap : Snap), s.hw.engine = .busy snap →
    ws.length ≤ s.ticksLeft → (∀ w ∈ ws, (∃ v, w = .ctrl v) ∨ (∃ v, w = .divider v) ∨ (∃ k v, w = .data k v)) →
    s.LinkCarries (ws.map RegWrite.reg) → ws ≠ [] →
    ∃ (t : State) (kept : List RegWrite), memWrites ws s = .done () t ∧ kept.Sublist ws ∧
      t.hw = { kept.foldl (fun h w => h.store w) s.hw with engine := .busy snap.spoiled, overlap := true } ∧
      t.wire = s.wire ∧ t.ticksLeft = s.ticksLeft - ws.length
  | [], _, _, _, _, _, _, h => absurd rfl h
  | w :: ws, s, snap, hb, ht, hw, hl, _ => by
    have hp : 0 < s.ticksLeft := by simp at ht; omega
    have e := memWrite_carried hl.head
    rw [State.tick_of_later hb hp, hwWrite_busy_overlap (snap := snap) (by exact hb) w (hw w (by simp))] at e
    have hone : ∃ kept : List RegWrite, kept.Sublist [w] ∧ ((s.setTicks (s.ticksLeft - 1)).overlapWrite w snap).hw =
        { kept.foldl (fun h w => h.store w) s.hw with engine := .busy snap.spoiled, overlap := true } := by
      by_cases hr : Config.collisionKeepsOld s.drawn = true
      · exact ⟨[], by simp, by simp [State.overlapWrite, hr, Snap.spoiled]⟩
      · exact ⟨[w], by simp, by simp [State.overlapWrite, hr, Snap.spoiled]⟩
    obtain ⟨k1, hk1, e1⟩ := hone
    rw [memWrites, e]
    show ∃ (t : State) (kept : List RegWrite), memWrites ws _ = _ ∧ _
    by_cases hws : ws = []
    · subst hws
      exact ⟨_, k1, rfl, hk1, e1, rfl, rfl⟩
    · obtain ⟨t, k2, h1, h2, h3, h4, h5⟩ :=
        memWrites_overlap ws (snap := snap.spoiled)
          (s := (((s.setTicks (s.ticksLeft - 1)).overlapWrite w snap).carried.emit [w.event])) rfl
        (by simp [State.overlapWrite] at ht ⊢; omega) (fun x hx => hw x (by simp [hx]))
        (hl.tail rfl rfl) hws
      refine ⟨t, k1 ++ k2, h1, by simpa using hk1.append h2, ?_, h4, by simp [State.overlapWrite] at h5 ⊢; omega⟩
      rw [h3]
      simp only [State.emit_hw, State.carried_hw, e1, List.foldl_append]
      rw [foldl_store_keeps]; rfl

/-- Where a transfer ends between two writes: it has left its spoiled record, some of the writes before its end are
stored, and the rest run on an Idle engine. -/
theorem memWrites_ending (ws : List RegWrite) (s : State) (snap : Snap) (hb : s.hw.engine = .busy snap)
    (h0 : 0 < s.ticksLeft) (hn : s.ticksLeft < ws.length)
    (hw : ∀ w ∈ ws, (∃ v, w = .ctrl v) ∨ (∃ v, w = .divider v) ∨ (∃ k v, w = .data k v))
    (hl : s.LinkCarries ((ws.take s.ticksLeft).map RegWrite.reg)) :
    ∃ (u : State) (kept : List RegWrite), memWrites ws s = memWrites (ws.drop s.ticksLeft) u ∧
      kept.Sublist (ws.take s.ticksLeft) ∧
      u.hw = { kept.foldl (fun h w => h.store w) s.hw with engine := .idle, overlap := true } ∧
      u.wire = s.wire ++ [snap.spoiled.completedRecord] ∧ u.shadow = s.shadow ∧
      u.trace = s.trace ++ (ws.take s.ticksLeft).map RegWrite.event ∧ u.results = s.results ∧
      u.opIndex = s.opIndex ∧ u.registerMap = s.registerMap ∧ u.inbox = s.inbox ∧
      u.linkOk = linkAfter s.ticksLeft s.linkOk := by
  have hlen : (ws.take s.ticksLeft).length = s.ticksLeft := List.length_take_of_le (Nat.le_of_lt hn)
  have hne : ws.take s.ticksLeft ≠ [] := fun e => by rw [e] at hlen; simp at hlen; omega
  obtain ⟨t, kept, h1, h2, h3, h4, h5⟩ := memWrites_overlap (ws.take s.ticksLeft) s snap hb (Nat.le_of_eq hlen)
    (fun w h => hw w (List.mem_of_mem_take h)) hl hne
  obtain ⟨t', g0, g1, g2, g3, g4, g5, g6, g7⟩ := memWrites_carried _ s hl
  rw [h1] at g0
  cases g0
  have ht : t.tick = _ := State.tick_of_due (snap := snap.spoiled) (by rw [h3]) (by rw [h5, hlen, Nat.sub_self])
  have hd : ∃ x xs, ws.drop s.ticksLeft = x :: xs := ⟨_, _, List.drop_eq_getElem_cons hn⟩
  obtain ⟨x, xs, hx⟩ := hd
  refine ⟨t.tick, kept, ?_, h2, by rw [ht]; simp [h3], by rw [ht]; simp [h4], by simpa using g1, by simpa using g2,
    by simpa using g3, by simpa using g4, by simpa using g5, by simpa using g6, by simpa [hlen] using g7⟩
  conv => lhs; rw [← List.take_append_drop s.ticksLeft ws]
  rw [memWrites_append, h1, Call.andThen, hx]
  exact (memWrites_tick (by rw [ht]; rfl) x xs).symm

/-! ### WRBANK and the bank part of a TRANSMIT (R122, R145) -/

/-- WRBANK of a bank (R122). -/
theorem execWrBank_bank (b : Bank) (s : State) : exec (.wrBank (bankInts b)) s =
    .next ((memWrites (bankWrites b) (s.setShadow { s.shadow with bank := b })).toHost fun _ => .unit) := by
  rw [exec, execWrBank, operandBank_ok]; rfl

/-- The k-th write of a bank. -/
theorem bank_at (b : Bank) (k : Fin 8) : (bankWrites b)[k.val]? = some (.data k b[k]) := by
  have : k = 0 ∨ k = 1 ∨ k = 2 ∨ k = 3 ∨ k = 4 ∨ k = 5 ∨ k = 6 ∨ k = 7 := by omega
  rcases this with h | h | h | h | h | h | h | h <;> subst h <;> rfl

/-- Which registers the first writes of a bank go to. -/
theorem mem_regs_take (b : Bank) (n : Nat) (hn : n ≤ 8) (j : Fin 8) :
    Reg.data j ∈ ((bankWrites b).take n).map RegWrite.reg ↔ j.val < n := by
  rw [List.map_take, bankWrites_regs, mem_dataRegs_take n hn]

/-- Which registers the last writes of a bank go to. -/
theorem mem_regs_drop (b : Bank) (n : Nat) (hn : n ≤ 8) (j : Fin 8) :
    Reg.data j ∈ ((bankWrites b).drop n).map RegWrite.reg ↔ n ≤ j.val := by
  rw [List.map_drop, bankWrites_regs, mem_dataRegs_drop n hn]

/-- Fewer writes of slots of one bank. -/
theorem SlotsOf.sub {b : Bank} {xs ys : List RegWrite} (h : SlotsOf b ys) (hs : ∀ x ∈ xs, x ∈ ys) : SlotsOf b xs :=
    fun w hw => h w (hs w hw)

/-- They are writes of transfer-affecting registers. -/
theorem bank_affects (b : Bank) : ∀ w ∈ bankWrites b, (∃ v, w = .ctrl v) ∨ (∃ v, w = .divider v) ∨
    (∃ k v, w = .data k v) :=
  fun w hw => by obtain ⟨k, rfl⟩ := bankWrites_slotsOf b w hw; exact .inr (.inr ⟨_, _, rfl⟩)

/-- The link carries the first of the calls. -/
theorem carries_take {ws : List RegWrite} (n : Nat) (h : s.LinkCarries (ws.map RegWrite.reg)) :
    s.LinkCarries ((ws.take n).map RegWrite.reg) :=
  State.LinkCarries.mono (rs' := (ws.drop n).map RegWrite.reg) (by
    rw [← List.map_append, List.take_append_drop]; exact h)

/-- After the first of the calls, the link carries the others. -/
theorem carries_drop {ws : List RegWrite} {n : Nat} (h : s.LinkCarries (ws.map RegWrite.reg)) (hn : n ≤ ws.length)
    (hm : t.registerMap = s.registerMap) (hl : t.linkOk = linkAfter n s.linkOk) :
        t.LinkCarries ((ws.drop n).map RegWrite.reg) :=
  State.LinkCarries.rest (rs := (ws.take n).map RegWrite.reg) (by
    rw [← List.map_append, List.take_append_drop]; exact h) hm
    (by rw [hl, List.length_map, List.length_take_of_le hn])

/-- A bank written with a transfer in flight. -/
theorem memWrites_bank_busy (b : Bank) (s : State) (snap : Snap) (hb : s.hw.engine = .busy snap) (h0 : 0 < s.ticksLeft)
    (hl : s.LinkCarries dataRegs) : ∃ (t : State) (d : Bank), memWrites (bankWrites b) s = .done () t ∧
      t.shadow = s.shadow ∧ t.trace = s.trace ++ bankEvents b ∧ t.results = s.results ∧ t.opIndex = s.opIndex ∧
      t.registerMap = s.registerMap ∧ t.inbox = s.inbox ∧ t.linkOk = linkAfter 8 s.linkOk ∧
      (∀ j : Fin 8, d[j] = b[j] ∨ j.val < s.ticksLeft ∧ d[j] = s.hw.data[j]) ∧
      (8 ≤ s.ticksLeft → t.hw = { s.hw with data := d, engine := .busy snap.spoiled, overlap := true } ∧
          t.wire = s.wire ∧ t.ticksLeft = s.ticksLeft - 8) ∧
      (s.ticksLeft < 8 → t.hw = { s.hw with data := d, engine := .idle, overlap := true } ∧
          t.wire = s.wire ++ [snap.spoiled.completedRecord]) := by
  have hl0 : s.LinkCarries ((bankWrites b).map RegWrite.reg) := hl
  obtain ⟨t, ht, h1, h2, h3, h4, h5, h6, h7⟩ := memWrites_carried (bankWrites b) s hl0
  have hlen : (bankWrites b).length = 8 := rfl
  rcases Nat.lt_or_ge s.ticksLeft 8 with h8 | h8
  · obtain ⟨u, kept, g1, g2, g3, g4, g5, g6, g7, g8, g9, g10, g11⟩ :=
      memWrites_ending (bankWrites b) s snap hb h0 h8 (bank_affects b) (carries_take _ hl0)
    obtain ⟨d, hd, hd'⟩ := foldl_slots (b := b) kept s.hw
      ((bankWrites_slotsOf b).sub fun x hx => List.mem_of_mem_take (g2.subset hx))
    obtain ⟨d2, hd2, hd2'⟩ := foldl_slots (b := b) ((bankWrites b).drop s.ticksLeft) u.hw
      ((bankWrites_slotsOf b).sub fun x hx => List.mem_of_mem_drop hx)
    have hu : u.hw = { s.hw with data := d, engine := .idle, overlap := true } := by rw [g3, hd]
    have ht' := ht
    rw [g1, memWrites_idle _ u (by rw [hu]) (fun x hx => bankWrites_stores b x (List.mem_of_mem_drop hx))
      (carries_drop hl0 (by omega) g9 g11), hd2] at ht'
    cases ht'
    refine ⟨_, d2, ht, h1, h2, h3, h4, h5, h6, h7, fun j => ?_, fun h => by omega, fun _ => ⟨by simp [hu], g4⟩⟩
    rw [hd2' j]
    simp only [mem_regs_drop b _ (Nat.le_of_lt h8)]
    by_cases hj : s.ticksLeft ≤ j.val
    · exact .inl (if_pos hj)
    · rw [if_neg hj, hu]
      show d[j] = _ ∨ _
      rw [hd' j]
      split
      · exact .inl rfl
      · exact .inr ⟨by omega, rfl⟩
  · obtain ⟨t', kept, g1, g2, g3, g4, g5⟩ :=
      memWrites_overlap (bankWrites b) s snap hb h8 (bank_affects b) hl0 (by simp [bankWrites])
    rw [g1] at ht
    cases ht
    obtain ⟨d, hd, hd'⟩ := foldl_slots (b := b) kept s.hw ((bankWrites_slotsOf b).sub fun x hx => g2.subset hx)
    refine ⟨_, d, g1, h1, h2, h3, h4, h5, h6, h7, fun j => ?_, fun _ => ⟨by rw [g3, hd], g4, g5⟩, fun h => by omega⟩
    rw [hd' j]
    split
    · exact .inl rfl
    · exact .inr ⟨by omega, rfl⟩

/-! ### The CTRL writes of a TRANSMIT (R171, R235) -/

/-- The two CTRL writes of a TRANSMIT once the engine is Idle, after an overlap. -/
theorem ctrlTail (x : Shadow) (hx : v.shadow = x) (hi : v.tick.hw.engine = .idle) (ho : v.tick.hw.overlap = true)
    (hl : v.LinkCarries [.ctrl, .ctrl]) :
    ∃ (t : State) (new running : Snap) (ws : List WireRecord),
      ((memWrites [.ctrl x.ctrlWord] v).andThen fun _ u => startCalls u) = .done () t ∧
      t.hw = { v.tick.hw with ctrl := ({ x with goBusy := true } : Shadow).ctrlWord, engine := .busy running } ∧
      t.wire = v.tick.wire ++ ws ∧ new = v.tick.hw.snapOf x ∧
      (x.goBusy = false → running = new ∧ ws = []) ∧
      (x.goBusy = true → running = new.spoiled ∧ ws = [] ∨ running = new ∧ ws = [new.completedRecord]) := by
  have hup : v.LinkUp .ctrl := hl.head
  have e1 : memWrites [.ctrl x.ctrlWord] v =
      .done () ((v.tick.hwWrite (.ctrl x.ctrlWord)).carried.emit [.write .ctrl x.ctrlWord.toNat]) := by
    rw [memWrites, memWrite_carried (w := .ctrl x.ctrlWord) hup]; rfl
  rw [e1, Call.andThen]
  have hk := v.tick_coreKept.trans (v.tick.hwWrite_coreKept (.ctrl x.ctrlWord))
  have hup2 : ((v.tick.hwWrite (.ctrl x.ctrlWord)).carried.emit [.write .ctrl x.ctrlWord.toNat]).LinkUp .ctrl :=
    (State.LinkCarries.tail
      (t := ((v.tick.hwWrite (.ctrl x.ctrlWord)).carried.emit [.write .ctrl x.ctrlWord.toNat])) hl
      (by simpa using hk.registerMap) (by simp [hk.linkOk])).head
  have hsh : ((v.tick.hwWrite (.ctrl x.ctrlWord)).carried.emit [.write .ctrl x.ctrlWord.toNat]).shadow = x := by
      simp [hk.shadow, hx]
  rw [startCalls_carried hup2, hsh]
  cases hg : x.goBusy with
  | false =>
    have hc : x.ctrlWord.getLsbD 8 = false := by rw [shadow_ctrlWord_goBusy, hg]
    rw [hwWrite_cfg_idle hi hc]
    rw [State.tick_of_idle (by exact hi), hwWrite_go_idle (by exact hi) (ctrlWord_started_getLsbD _)]
    refine ⟨_, v.tick.hw.snapOf x, _, [], rfl, ?_,
        by simp [State.startTransfer, State.storeWrite], rfl, fun _ => ⟨rfl, rfl⟩, fun h => by (cases h)⟩
    simp only [State.emit_hw, State.carried_hw, State.startTransfer, State.draw_hw, State.setTicks_hw,
        State.setHw_hw, snapshot_ctrlWord]
    rfl
  | true =>
    have hgo : x.ctrlWord.getLsbD 8 = true := by rw [shadow_ctrlWord_goBusy, hg]
    have hsame : ({ x with goBusy := true } : Shadow) = x := by cases x; simp at hg; subst hg; rfl
    rw [hwWrite_go_idle hi hgo, hsame]
    generalize hu : ((v.tick.startTransfer x.ctrlWord).carried.emit [.write .ctrl x.ctrlWord.toNat]) = u
    have hue : u.hw = { v.tick.hw with ctrl := x.ctrlWord, engine := .busy (v.tick.hw.snapOf x) } := by
      rw [← hu]
      simp only [State.emit_hw, State.carried_hw, State.startTransfer, State.draw_hw, State.setTicks_hw,
          State.setHw_hw, snapshot_ctrlWord]; rfl
    have huw : u.wire = v.tick.wire := by rw [← hu]; rfl
    have hub : u.hw.engine = .busy (v.tick.hw.snapOf x) := by rw [hue]
    rcases u.tick_cases with ⟨h, _⟩ | ⟨sn, h, _, ht⟩ | ⟨sn, h, _, ht⟩
    · rw [hub] at h; cases h
    · rw [hub] at h; cases h
      rw [ht, hwWrite_busy_overlap (snap := v.tick.hw.snapOf x) (by exact hub) _ (.inl ⟨_, rfl⟩)]
      refine ⟨_, v.tick.hw.snapOf x, (v.tick.hw.snapOf x).spoiled, [], rfl, ?_,
          by simp [State.overlapWrite, huw], rfl, fun h => by (cases h), fun _ => .inl ⟨rfl, rfl⟩⟩
      by_cases hr : Config.collisionKeepsOld u.drawn = true <;>
        simp [State.overlapWrite, hr, hue, Snap.spoiled, ho, Hw.store]
    · rw [hub] at h; cases h
      rw [ht, hwWrite_go_idle rfl hgo]
      refine ⟨_, v.tick.hw.snapOf x, v.tick.hw.snapOf x, [(v.tick.hw.snapOf x).completedRecord], rfl, ?_,
          by simp [State.startTransfer, huw], rfl, fun h => by (cases h), fun _ => .inr ⟨rfl, rfl⟩⟩
      simp only [State.emit_hw, State.carried_hw, State.startTransfer, State.draw_hw, State.setTicks_hw,
          State.setHw_hw, snapshot_ctrlWord, hue]
      rfl

/-- An overlapped CTRL write. -/
theorem overlapWrite_ctrl (word : CtrlWord) (snap : Snap) (s : State) : ∃ c, (c = s.hw.ctrl ∨ c = word) ∧
    (s.overlapWrite (.ctrl word) snap).hw = { s.hw with ctrl := c, engine := .busy snap.spoiled, overlap := true } := by
  by_cases hr : Config.collisionKeepsOld s.drawn = true
  · exact ⟨_, .inl rfl, by simp [State.overlapWrite, hr, Snap.spoiled]⟩
  · exact ⟨_, .inr rfl, by simp [State.overlapWrite, hr, Snap.spoiled, Hw.store]⟩

/-- A TRANSMIT is a bank, the pre-start CTRL write and a START (R171). -/
theorem transmit_split (w : Slot) (s : State) : transmitCalls w s =
    (memWrites (bankWrites (s.shadow.bank.set 0 w)) (s.setShadow
      { s.shadow with bank := s.shadow.bank.set 0 w })).andThen fun _ t =>
      (memWrites [.ctrl s.shadow.ctrlWord] t).andThen fun _ u => startCalls u := by
  rw [transmitCalls_eq, memWrites_append]
  cases memWrites (bankWrites (s.shadow.bank.set 0 w)) (s.setShadow { s.shadow with bank := s.shadow.bank.set 0 w }) <;> rfl

/-- A CTRL write while a transfer outlasts it. -/
theorem ctrl_overlap (word : CtrlWord) {sn : Snap} (hb : t.hw.engine = .busy sn)
    (h0 : 0 < t.ticksLeft) (hup : t.LinkUp .ctrl) :
    ∃ (u : State) (c : CtrlWord), memWrite (.ctrl word) t = .done () u ∧ (c = t.hw.ctrl ∨ c = word) ∧
      u.hw = { t.hw with ctrl := c, engine := .busy sn.spoiled, overlap := true } ∧ u.wire = t.wire ∧
          u.ticksLeft = t.ticksLeft - 1 ∧
      u.shadow = t.shadow ∧ u.registerMap = t.registerMap ∧ u.linkOk = linkAfter 1 t.linkOk := by
  have e := memWrite_carried (w := .ctrl word) hup
  rw [State.tick_of_later hb h0, hwWrite_busy_overlap (snap := sn) (by exact hb) _ (.inl ⟨_, rfl⟩)] at e
  obtain ⟨c, hc, h⟩ := overlapWrite_ctrl word sn (t.setTicks (t.ticksLeft - 1))
  refine ⟨_, c, e, hc, by simpa using h, ?_, ?_, ?_, ?_, ?_⟩ <;> simp [State.overlapWrite]

/-! ### A TRANSMIT or CFGPIXEL of which a write fails (R171, R190, R206) -/

/-- What a TRANSMIT whose k-th write fails does to the core, whatever the engine does. -/
theorem transmitCalls_fails {w : Slot} {k : Nat} {r : Reg} (hk : transmitRegs[k]? = some r)
    (hl : s.LinkCarries (transmitRegs.take k)) (hf : r ∉ s.registerMap ∨ s.linkOk = some k) :
    ∃ t, transmitCalls w s = .failed (.transport r) t ∧ t.shadow = s.shadow.cutOff w k ∧
      t.trace = s.trace ++ cutOffEvents w k r s.shadow ∧ t.results = s.results ∧ t.opIndex = s.opIndex := by
  have hk10 : k < 10 := by
    have := (List.getElem?_eq_some_iff.1 hk).1; simpa [transmitRegs, dataRegs] using this
  let b := s.shadow.bank.set 0 w
  let u := s.setShadow { s.shadow with bank := b }
  let ws := bankWrites b ++ [RegWrite.ctrl u.shadow.ctrlWord]
  have hwsr : ws.map RegWrite.reg = transmitRegs.take 9 := rfl
  have hwse : ws.map RegWrite.event = (transmitEvents w s.shadow).take 9 := rfl
  have ht : transmitCalls w s = (memWrites ws u).andThen fun _ u => startCalls u := transmitCalls_eq w s
  rcases Nat.lt_or_ge k 9 with h9 | h9
  · have hkw : ∃ x, ws[k]? = some x ∧ x.reg = r := by
      have : (ws.map RegWrite.reg)[k]? = some r := by rw [hwsr, List.getElem?_take, if_pos h9]; exact hk
      rw [List.getElem?_map] at this
      cases hx : ws[k]? with
      | none => rw [hx] at this; cases this
      | some x => rw [hx] at this; exact ⟨x, rfl, by simpa using this⟩
    obtain ⟨x, hx, rfl⟩ := hkw
    obtain ⟨t, h1, h2, h3, h4, h5, -⟩ := memWrites_fails (s := u) hx
      (by rw [List.map_take, hwsr, List.take_take, Nat.min_eq_left (by omega)]; exact hl) hf
    rw [h1] at ht
    refine ⟨t, ht, ?_, ?_, h4, h5⟩
    · simp [h2, u, b, Shadow.cutOff, show k ≠ 9 by omega]
    · rw [h3, List.map_take, hwse, List.take_take, Nat.min_eq_left (by omega)]
      simp [u, cutOffEvents]
  · obtain rfl : k = 9 := by omega
    obtain rfl : Reg.ctrl = r := by simpa [transmitRegs, dataRegs] using hk
    obtain ⟨v, hv, h1, h2, h3, h4, h5, h6, h7⟩ := memWrites_carried ws u (by rw [hwsr]; exact hl)
    obtain ⟨t, gt, g1, g2, g3, g4, -⟩ := memWrite_fails (s := v.setShadow { v.shadow with goBusy := true })
      (w := .ctrl ({ v.shadow with goBusy := true } : Shadow).ctrlWord) (not_linkUp_after (s := u) (k := 9) h5 h7 hf)
    have hst : startCalls v = _ := gt
    rw [hv] at ht
    simp only [Call.andThen, hst] at ht
    refine ⟨t, ht, by simp [g1, h1, u, b, Shadow.cutOff], ?_, by simp [g3, h3, u], by simp [g4, h4, u]⟩
    simp [g2, h2, hwse, u, cutOffEvents, RegWrite.reg]

/-- Whatever follows it, a transaction that fails ends CFGPIXEL with its error. -/
theorem execCfgPixel_failed {addr h lo we pe m : Int} {e : OpError}
    (hc : sendFrames (pixelFrames addr h lo we pe m).1 s = .failed e t) :
    exec (.cfgPixel addr h lo we pe m) s = .next (raise e t) := by
  rw [exec, execCfgPixel]
  split
  · rename_i ws heq; rw [heq] at hc; rw [hc]; rfl
  · rename_i ws stop heq; rw [heq] at hc; rw [hc]; rfl

/-- The first frame of CFGPIXEL (R190). -/
theorem pixelFrames_first {addr : Int} (h lo we pe m : Int) (ha : 0 ≤ addr) :
    ∃ ws, (pixelFrames addr h lo we pe m).1 = frame false 0x20 (pixelAddressByte addr) :: ws := by
  unfold pixelFrames
  rw [if_neg (by omega)]
  dsimp only
  split
  · exact ⟨_, rfl⟩
  · split
    · exact ⟨_, rfl⟩
    · split <;> exact ⟨_, rfl⟩

/-- The first two frames of CFGPIXEL (R190). -/
theorem pixelFrames_second {addr lo : Int} (h we pe m : Int) (ha : 0 ≤ addr) (hlo : 0 ≤ lo ∧ lo ≤ 0xFF) :
    ∃ ws, (pixelFrames addr h lo we pe m).1 = frame false 0x20 (pixelAddressByte addr) ::
      frame false (BitVec.ofInt 7 0x21) (BitVec.ofInt 8 lo) :: ws := by
  unfold pixelFrames
  rw [if_neg (by omega)]
  simp only [encodeOperands_ok (a := 0x21) (p := lo) (by omega) hlo]
  split
  · exact ⟨_, rfl⟩
  · split <;> exact ⟨_, rfl⟩

/-- The three frames of CFGPIXEL (R190, R191). -/
theorem pixelFrames_third {addr lo h we pe m : Int} (ha : 0 ≤ addr) (hlo : 0 ≤ lo ∧ lo ≤ 0xFF)
    (hn : 0 ≤ h ∧ 0 ≤ we ∧ 0 ≤ pe ∧ 0 ≤ m) (hp : pixelSum h.toNat we.toNat pe.toNat m.toNat < 256) :
    (pixelFrames addr h lo we pe m).1 = [frame false 0x20 (pixelAddressByte addr),
      frame false (BitVec.ofInt 7 0x21) (BitVec.ofInt 8 lo),
      frame false (BitVec.ofInt 7 0x22) (BitVec.ofInt 8 ((pixelSum h.toNat we.toNat pe.toNat m.toNat : Nat) : Int))] := by
  unfold pixelFrames
  rw [if_neg (by omega)]
  simp only [encodeOperands_ok (a := 0x21) (p := lo) (by omega) hlo, pixelPayload_nat _ _ _ _ hn,
    encodeOperands_ok (a := 0x22) (p := ((pixelSum h.toNat we.toNat pe.toNat m.toNat : Nat) : Int))
      (by omega) (by omega)]

end Sys2Proof.Machine
end

