-- ==== Sys2Proof/Machine/Asm.lean ====
section
/-! DEFINITION. Assembler lines after lexing (30_encoding R79, R80): commands by mnemonic, the two
pseudo-instructions, and the name that a line binds to the word ENCODE returns. It is notation for the packets of
`encode`; the machine does not depend on it. -/

namespace Sys2Proof.Machine

/-- An operand as written: a value, or a name bound on an earlier line (R79). -/
inductive AsmOperand where
  | value (x : Operand)
  | name (x : String)
deriving DecidableEq, Repr

/-- One line (R79, R80): a command, a command whose word is bound to a name, TXW or TXR. -/
inductive AsmLine where
  | command (mnemonic : String) (operands : List AsmOperand)
  | bind (name mnemonic : String) (operands : List AsmOperand)
  | txw (a p : AsmOperand)
  | txr (a p : AsmOperand)
deriving DecidableEq, Repr

/-- The names bound so far, with their words, the newest first. -/
abbrev AsmNames := List (String × Int)

/-- The command code of a mnemonic (R66). -/
def mnemonicCode : String → Option (BitVec 8)
  | "SETDATALEN" => some 0x01
  | "SETRXNEG" => some 0x02
  | "SETTXNEG" => some 0x03
  | "SETLSBFIRST" => some 0x04
  | "SETIE" => some 0x05
  | "SETASS" => some 0x06
  | "SETDIV" => some 0x07
  | "SETSS" => some 0x08
  | "WRBANK" => some 0x09
  | "RESET" => some 0x0A
  | "ISBUSY" => some 0x0B
  | "START" => some 0x0C
  | "WAITIDLE" => some 0x0D
  | "ENCODE" => some 0x0E
  | "TRANSMIT" => some 0x0F
  | "CFGPIXEL" => some 0x10
  | _ => none

/-- The value of an operand as written (R79). DESIGN CHOICE (log 30): of a name bound on several lines, the newest
binding. -/
def AsmOperand.resolve (names : AsmNames) : AsmOperand → Option Operand
  | .value x => some x
  | .name x => (names.lookup x).map .int

/-- The integer of an operand as written. -/
def AsmOperand.resolveInt (names : AsmNames) (x : AsmOperand) : Option Int :=
  match x.resolve names with
  | some (.int n) => some n
  | _ => none

/-- The command a line stands for (R65, R66). DESIGN CHOICE (log 30): none where the mnemonic is unknown, a name is
unbound or the operands have a wrong count or type. -/
def assembleCommand (names : AsmNames) (mnemonic : String) (operands : List AsmOperand) : Option Instr :=
  match mnemonicCode mnemonic, operands.mapM (AsmOperand.resolve names) with
  | some op, some xs => (decodeCommand op xs).toOption
  | _, _ => none

/-- The instructions of one line and the names bound after it. Only ENCODE returns a word to bind (R79).
DESIGN CHOICE (log 30): a new binding of a name hides the older ones; and where ENCODE has no word to bind, its
operands being out of range (R170), the line stands for nothing, so its program assembles to none, while a plain
ENCODE line is a command and is refused when it runs. -/
def assembleLine (names : AsmNames) : AsmLine → Option (List Instr × AsmNames)
  | .command mnemonic operands => (assembleCommand names mnemonic operands).map fun i => ([i], names)
  | .bind name mnemonic operands =>
    match assembleCommand names mnemonic operands with
    | some (.encodeFrame d a p) =>
      (encodeOperands d a p).map fun w => ([.encodeFrame d a p], (name, (w.toNat : Int)) :: names)
    | _ => none
  | .txw a p =>
    match a.resolveInt names, p.resolveInt names with
    | some a, some p => (expandTxw a p).map fun is => (is, names)
    | _, _ => none
  | .txr a p =>
    match a.resolveInt names, p.resolveInt names with
    | some a, some p => (expandTxr a p).map fun is => (is, names)
    | _, _ => none

/-- The packets of a list of lines, for the inbox; none when a line stands for nothing (a bound ENCODE, TXW or TXR
with operands out of range among them: log 30). -/
def assemble (names : AsmNames) : List AsmLine → Option (List Packet)
  | [] => some []
  | line :: lines =>
    match assembleLine names line with
    | none => none
    | some (is, names) => (assemble names lines).map fun ps => is.map encode ++ ps

end Sys2Proof.Machine
end

