-- ==== Sys2Proof/Tests/Slice0.lean ====
section
/-! SUPPORT. Tests with results written from the spec: ill-formed terms, words of the encodings (30_encoding), the
vectors of 95_test_vectors, and a witness for the hypotheses of each statement. -/

namespace Sys2Proof.Tests

open Sys2Proof Sys2Proof.Machine

/-! ### Well-formedness -/

/-- A write frame to 0x20, 0x21 or 0x22 is a row of its own, not FRAME_W (R57). -/
theorem test_wellFormed_refuses_named_addresses :
    ¬(Instr.frameW 0x20 1).WellFormed ∧ ¬(Instr.frameW 0x21 1).WellFormed ∧ ¬(Instr.frameW 0x22 1).WellFormed := by
  decide

theorem test_wellFormed_takes_other_addresses :
    (Instr.frameW 0x1F 1).WellFormed ∧ (Instr.frameW 0x23 1).WellFormed ∧ (Instr.frameR 0x20 1).WellFormed := by decide

/-! ### Decoding, from R66, R70, R73 and R76 -/

theorem test_decode_setDataLen : decode (.command 0x01 [.int 8]) = .ok (.setDataLen 8) := by decide
theorem test_decode_setRxNeg : decode (.command 0x02 [.bool true]) = .ok (.setRxNeg true) := by decide
theorem test_decode_setTxNeg : decode (.command 0x03 [.bool true]) = .ok (.setTxNeg true) := by decide
theorem test_decode_setLsbFirst : decode (.command 0x04 [.bool false]) = .ok (.setLsbFirst false) := by decide
theorem test_decode_setIe : decode (.command 0x05 [.bool true]) = .ok (.setIe true) := by decide
theorem test_decode_setAss : decode (.command 0x06 [.bool false]) = .ok (.setAss false) := by decide
theorem test_decode_setDiv : decode (.command 0x07 [.int (-1)]) = .ok (.setDiv (-1)) := by decide
theorem test_decode_setSs : decode (.command 0x08 [.int 0x100]) = .ok (.setSs 256) := by decide
theorem test_decode_wrBank : decode (.command 0x09 [.ints [1, 2]]) = .ok (.wrBank [1, 2]) := by decide
theorem test_decode_reset : decode (.command 0x0A []) = .ok .reset := by decide
theorem test_decode_isBusy : decode (.command 0x0B []) = .ok .isBusy := by decide
theorem test_decode_start : decode (.command 0x0C []) = .ok .start := by decide
theorem test_decode_waitIdle : decode (.command 0x0D []) = .ok .waitIdle := by decide
theorem test_decode_encode :
    decode (.command 0x0E [.int 0, .int 0x20, .int 1]) = .ok (.encodeFrame 0 0x20 1) := by decide
theorem test_decode_transmit : decode (.command 0x0F [.int 0x2001]) = .ok (.transmit 0x2001) := by decide
theorem test_decode_cfgPixel :
    decode (.command 0x10 [.int 1, .int 0, .int 0x0F, .int 1, .int 1, .int 0]) = .ok (.cfgPixel 1 0 0x0F 1 1 0) := by
  decide
/-- `daaaaaaapppppppp` (R73). -/
theorem test_decode_frameW : decode (.frame 0b0111111111111110) = .ok (.frameW 0x7F 0xFE) := by decide
theorem test_decode_frameR : decode (.frame 0b1010001011000000) = .ok (.frameR 0x22 0xC0) := by decide
theorem test_decode_pixAddr : decode (.frame 0b0010000000000001) = .ok (.pixAddr 1) := by decide
theorem test_decode_pixDacLo : decode (.frame 0b0010000100001111) = .ok (.pixDacLo 0x0F) := by decide
/-- `00100010wemmhhhh` (R76): w = 1, e = 0, m = 3, h = 0xA. -/
theorem test_decode_pixCtrl : decode (.frame 0b0010001010111010) = .ok (.pixCtrl true false 3 0xA) := by decide
/-- `AILTR0DDDDDDDD` (R70): A = 1, L = 1, T = 1, D = 8 is 0x2C08 of vector L2.1. -/
theorem test_decode_ctrlCfg :
    decode (.ctrl 0x2C08) = .ok (.ctrlCfg true false true true false 8) := by decide
/-- 0x2D08 of vector L2.1. -/
theorem test_decode_ctrlGo : decode (.ctrl 0x2D08) = .ok (.ctrlGo true false true true false 8) := by decide

theorem test_decode_refuses_unassigned :
    decode (.command 0x00 []) = .error (.illegalCommand 0x00 []) ∧
    decode (.command 0x11 []) = .error (.illegalCommand 0x11 []) ∧
    decode (.command 0x01 [.bool true]) = .error (.illegalCommand 0x01 [.bool true]) := by decide

theorem test_table_words : decodeTableWord 8 0x0C = some .start ∧ decodeTableWord 16 0x2001 = some (.pixAddr 1) ∧
    decodeTableWord 14 0x2110 = some (.ctrlGo true false false false false 16) ∧ decodeTableWord 8 0x11 = none := by decide

/-! ### States -/

/-- Every register name. -/
def allRegs : List Reg := [.ctrl, .divider, .ss, .reset, .busy] ++ dataRegs

/-- INIT of 95, with a link that carries a hundred calls and a peripheral whose registers are 0. -/
def live : State := { State.reset with hw := Hw.launch.cleared, registerMap := allRegs, linkOk := some 100 }

/-- The same with a link whose next call fails. -/
def dead : State := { live with linkOk := some 0 }

/-- The transfer of the initial shadow. -/
def snap0 : Snap := live.hw.snapOf Shadow.reset

/-- A transfer in flight that outlasts twenty scheduling points. -/
def flying : State := { live with hw := { live.hw with engine := .busy snap0 }, ticksLeft := 20 }

/-- The same with a link whose next call fails. -/
def flyingDead : State := { flying with linkOk := some 0 }

/-- A transfer in flight with `n` scheduling points before the one that completes it. -/
def flyingFor (n : Nat) : State := { flying with ticksLeft := n }

/-- A first START has run, and its transfer is over. -/
def started : State := { live with shadow := { Shadow.reset with goBusy := true } }

/-- The next state, if there is one. -/
def after (o : Host.Outcome State Fault Refusal) : Option State :=
  match o with
  | .next s => some s
  | _ => none

/-- What is seen of a next state. -/
def seen {α : Type} (i : Instr) (s : State) (f : State → α) : Option α := (after (exec i s)).map f

/-! ### Instructions: the vectors L2.2 to L2.9 of 95 -/

theorem test_setDataLen_8 : seen (.setDataLen 8) live (fun t => (t.shadow.ctrlWord, t.trace)) = some (0x2008, []) := by
  decide
theorem test_setDataLen_256 : seen (.setDataLen 256) live (fun t => (t.shadow.ctrlWord, t.results)) =
    some (0x2010, [.err (.range .dataLength 256)]) := by decide
theorem test_setRxNeg : seen (.setRxNeg true) live (·.shadow.ctrlWord) = some 0x2210 := by decide
theorem test_setTxNeg : seen (.setTxNeg true) live (·.shadow.ctrlWord) = some 0x2410 := by decide
theorem test_setLsbFirst : seen (.setLsbFirst true) live (·.shadow.ctrlWord) = some 0x2810 := by decide
theorem test_setIe : seen (.setIe true) live (·.shadow.ctrlWord) = some 0x3010 := by decide
theorem test_setAss : seen (.setAss false) live (·.shadow.ctrlWord) = some 0x0010 := by decide

/-- The divider fits at least three bits (R22, R31). -/
theorem eight_le : (8 : Int) ≤ 2 ^ Config.divWidth := by
  have h : 2 ^ 3 ≤ 2 ^ Config.divWidth := Nat.pow_le_pow_right (by omega) (by simp [Config.divWidth])
  exact_mod_cast h

/-- `SETDIV 4` appends `W(DIVIDER, 4)` and DIVIDER then reads 4 (L1.8). -/
theorem test_setDiv_4 :
    seen (.setDiv 4) live (fun t => (t.shadow.clkDiv, t.trace, (t.readReg .divider).1)) =
      some (4, [.write .divider 4], 4) := by
  have h : operandDivider 4 = .ok 4 := operandDivider_ok ⟨by omega, by have := eight_le; omega⟩
  simp only [seen, exec, execSetDiv, h]
  decide
theorem test_setDiv_negative : seen (.setDiv (-1)) live (fun t => (t.shadow.clkDiv, t.trace, t.results)) =
    some (4, [], [.err (.range .divider (-1))]) := by decide
theorem test_setSs_ff : seen (.setSs 0xFF) live (fun t => (t.shadow.ssMask, t.hw.ss, t.trace)) =
    some (0xFF, 0xFF, [.write .ss 0xFF]) := by decide
theorem test_setSs_100 : seen (.setSs 0x100) live (fun t => (t.shadow.ssMask, t.trace, t.results)) =
    some (0, [], [.err (.range .slaveSelect 0x100)]) := by decide
theorem test_wrBank : seen (.wrBank [1, 2, 3, 4, 5, 6, 7, 8]) live (fun t => (t.shadow.bank.toList, t.hw.data.toList, t.trace)) =
    some ([1, 2, 3, 4, 5, 6, 7, 8], [1, 2, 3, 4, 5, 6, 7, 8],
      [.write (.data 0) 1, .write (.data 1) 2, .write (.data 2) 3, .write (.data 3) 4, .write (.data 4) 5,
       .write (.data 5) 6, .write (.data 6) 7, .write (.data 7) 8]) := by decide
theorem test_wrBank_first_bad_slot : seen (.wrBank [0x10000, 0, 0, 0, 0, 0, 0, -1]) live (fun t => (t.trace, t.results)) =
    some ([], [.err (.range .slotWidth 0)]) := by decide
theorem test_reset_aborts : seen .reset flying (fun t => (t.hw.engine, t.hw.ctrl, t.trace, t.wire.map (·.aborted))) =
    some (.idle, 0, [.write .reset 0, .write .reset 1, .write .reset 0], [true]) := by decide
theorem test_reset_keeps_shadow : seen .reset started (fun t => (t.shadow.ctrlWord, t.shadow.clkDiv, t.hw.div)) =
    some (0x2110, 4, 0) := by decide
theorem test_isBusy : seen .isBusy flying (fun t => (t.results, t.trace)) =
    some ([.ok (.bool true)], [.read .busy 1]) := by decide
theorem test_start : seen .start live (fun t => (t.shadow.goBusy, t.hw.isBusy, t.trace)) =
    some (true, true, [.write .ctrl 0x2110]) := by decide
theorem test_start_overlaps : seen .start flying (fun t => (t.hw.overlap, t.trace, t.wire)) =
    some (true, [.write .ctrl 0x2110], []) := by decide
theorem test_isBusy_fails : seen .isBusy dead (fun t => (t.results, t.trace)) =
    some ([.err (.transport .busy)], [.failed .busy]) := by decide
theorem test_waitIdle_returns : seen .waitIdle live (fun t => (t.trace, t.results)) =
    some ([.read .busy 0], [.ok .unit]) := by decide
theorem test_waitIdle_polls : seen .waitIdle flying (fun t => (t.trace, t.results, t.opIndex)) =
    some ([.read .busy 1], [], 0) := by decide
theorem test_encode : seen (.encodeFrame 0 0x20 0x01) live (fun t => (t.results, t.trace)) =
    some ([.ok (.word 0x2001)], []) := by decide
theorem test_encode_refuses : exec (.encodeFrame 0 0x80 0) live = .refused (.operandRange 0 0x80 0 []) := rfl
/-- The first TRANSMIT (L2.8). -/
theorem test_transmit_first : seen (.transmit 0x2001) live (·.trace) =
    some [.write (.data 0) 0x2001, .write (.data 1) 0, .write (.data 2) 0, .write (.data 3) 0, .write (.data 4) 0,
      .write (.data 5) 0, .write (.data 6) 0, .write (.data 7) 0, .write .ctrl 0x2010, .write .ctrl 0x2110] := by decide
/-- A later TRANSMIT writes 0x2110 twice: goBusy is sticky (L2.8, R235). -/
theorem test_transmit_later : seen (.transmit 0x2001) { flying with shadow := started.shadow } (fun t => t.trace.drop 8) =
    some [.write .ctrl 0x2110, .write .ctrl 0x2110] := by decide

/-- The values written to DATA0. -/
def frames (t : State) : List Nat :=
  t.trace.filterMap fun e => match e with
    | .write (.data k) v => if k = 0 then some v else none
    | _ => none

/-- The source's example (L1.3). -/
theorem test_cfgPixel : seen (.cfgPixel 1 0 0x0F 1 1 0) { flying with ticksLeft := 40 } frames = some [0x2001, 0x210F, 0x22C0] := by decide
/-- An unmasked field sets its neighbour's bit (L2.9). -/
theorem test_cfgPixel_unmasked : (pixelFrames 0 0x4F 0 0 0 0).1 = [0x2000, 0x2100, 0x224F] := by decide
theorem test_frameW : seen (.frameW 1 0) live frames = some [0x0100] := by decide
theorem test_frameR : seen (.frameR 0x22 0xC0) live frames = some [0xA2C0] := by decide
theorem test_pixAddr : seen (.pixAddr 1) live frames = some [0x2001] := by decide
theorem test_pixDacLo : seen (.pixDacLo 0x0F) live frames = some [0x210F] := by decide
theorem test_pixCtrl : seen (.pixCtrl true true 0 0) live frames = some [0x22C0] := by decide
theorem test_ctrlCfg : seen (.ctrlCfg true false false false false 16) live (fun t => (t.hw.ctrl, t.hw.isBusy, t.trace)) =
    some (0x2010, false, []) := by decide
theorem test_ctrlGo : seen (.ctrlGo true false false false false 16) live (fun t => (t.hw.ctrl, t.hw.engine)) =
    some (0x2110, .busy snap0) := by decide

/-! ### The busy test (L1.6), the serialiser (L2.6), reads (L2.5) and assembler lines (R79, R80) -/

/-- 2, 3 and 0x101 are not busy. -/
theorem test_busyTest_is_strict : busyTest 1 = true ∧ busyTest 0 = false ∧ busyTest 2 = false ∧ busyTest 3 = false ∧
    busyTest 0x101 = false := by decide

/-- A transfer of the two slots. -/
def snapOf2 (x y : Slot) (n : Byte) (lsb : Bool) : Snap :=
  { snap0 with data := #v[x, y, 0, 0, 0, 0, 0, 0], dataLen := n, lsbFirst := lsb }

theorem test_serialise_lsb : serialise (snapOf2 0x0096 0 8 true) =
    .bits [false, true, true, false, true, false, false, true] := by decide
/-- 11110001001000110100. -/
theorem test_serialise_two_slots : serialise (snapOf2 0x1234 0x000F 20 false) =
    .bits [true, true, true, true, false, false, false, true, false, false, true, false, false, false, true, true,
      false, true, false, false] := by decide
theorem test_read_ctrl_shows_idle : (State.readReg .ctrl { live with hw := { live.hw with ctrl := 0x2110 } }).1 = 0x2010 := by
  decide
theorem test_assemble_txw : assemble [] [.txw (.value (.int 0x20)) (.value (.int 1)), .command "WAITIDLE" []] =
    some [.command 0x0E [.int 0, .int 0x20, .int 1], .command 0x0F [.int 0x2001], .command 0x0D []] := by decide
theorem test_assemble_binds : assemble [] [.bind "t" "ENCODE" [.value (.int 1), .value (.int 0), .value (.int 0)],
    .command "TRANSMIT" [.name "t"]] =
    some [.command 0x0E [.int 1, .int 0, .int 0], .command 0x0F [.int 0x8000]] := by decide

/-! ### Witnesses: for each statement with hypotheses, concrete states and operands that meet them -/

/-- The largest divider is in range and is not negative. -/
theorem witness_divider : (0 : Int) ≤ 2 ^ Config.divWidth - 1 ∧ (2 ^ Config.divWidth - 1 : Int) < 2 ^ Config.divWidth := by
  have := eight_le
  omega

theorem witness_DecodeOfEncodeIsTheInstruction :
    (Instr.frameW 0x1F 0xFF).WellFormed ∧ (Instr.frameW 0x23 0).WellFormed ∧ (Instr.setDiv (-1)).WellFormed := by decide

theorem witness_DecodedPacketsEncodeBack :
    decode (.command 0x10 [.int 0, .int 0, .int 0, .int 0, .int 0, .int 0]) = .ok (.cfgPixel 0 0 0 0 0 0) ∧
    decode (.frame 0xFFFF) = .ok (.frameR 0x7F 0xFF) ∧ decode (.ctrl 0) = .ok (.ctrlCfg false false false false false 0) := by
  decide

theorem witness_IllegalCommandsAreRefused :
    (0x10 < (0x11 : BitVec 8).toNat ∧ 0x10 < (0xFF : BitVec 8).toNat) ∧
    (∀ i : Instr, encode i ≠ .command 0x01 [.bool true]) ∧
    encode (.setDataLen (-1)) = .command 0x01 [.int (-1)] ∧
    (live.place (.command 0x00 [])).inbox = .command 0x00 [] :: [] := by
  refine ⟨by decide, fun i => ?_, rfl, rfl⟩
  cases i <;> simp [encode]

/-- The boundary values 0, 255, -1 and 256. -/
theorem witness_SetDataLenSetsLowBits : ((0 : Int) ≤ 0 ∧ (0 : Int) ≤ 255) ∧ ((0 : Int) ≤ 255 ∧ (255 : Int) ≤ 255) ∧
    (-1 : Int) < 0 ∧ (255 : Int) < 256 := by decide

theorem witness_SetDivWritesShadowThenDivider :
    live.tick.hw.engine = .idle ∧ live.LinkCarries [.divider] ∧ dead.LinkFails .divider ∧ dead.tick.hw.engine = .idle ∧
    (0 : Int) < 2 ^ Config.divWidth ∧ (-1 : Int) < 0 := by
  refine ⟨rfl, by decide, by decide, rfl, ?_, by decide⟩
  have := eight_le
  omega

theorem witness_SetDivWhileBusyOverlaps :
    (0 ≤ (7 : Int) ∧ (7 : Int) < 2 ^ Config.divWidth) ∧ flying.tick.hw.engine = .busy snap0 ∧
    flying.LinkCarries [.divider] ∧ flyingDead.tick.hw.engine = .busy snap0 ∧ flyingDead.LinkFails .divider := by
  refine ⟨⟨by decide, ?_⟩, rfl, by decide, rfl, by decide⟩
  have := eight_le
  omega

theorem witness_SetSsWritesShadowThenSs : live.LinkCarries [.ss] ∧ flying.LinkCarries [.ss] ∧ dead.LinkFails .ss ∧
    ((0 : Int) ≤ 255 ∧ (255 : Int) ≤ 255) ∧ (255 : Int) < 256 ∧ (-1 : Int) < 0 := by decide

theorem witness_WrBankWritesEightSlotsInOrder : live.tick.hw.engine = .idle ∧ live.LinkCarries dataRegs ∧
    flying.tick.hw.engine = .busy snap0 ∧ flying.LinkCarries dataRegs := by decide

/-- The first and the last slot fail, by the count and by an absent name, and with a transfer in flight. -/
theorem witness_WrBankFailureIsPrecise :
    (dead.tick.hw.engine = .idle ∧ dead.LinkCarries (dataRegs.take 0) ∧ dead.linkOk = some 0) ∧
    ({ live with linkOk := some 7 }.LinkCarries (dataRegs.take 7) ∧ { live with linkOk := some 7 }.linkOk = some 7) ∧
    ({ live with registerMap := [.data 0] }.LinkCarries (dataRegs.take 1) ∧
      Reg.data 1 ∉ { live with registerMap := [.data 0] }.registerMap) ∧
    (flyingDead.LinkCarries (dataRegs.take 0) ∧ flyingDead.linkOk = some 0) := by decide

/-- A list of seven; a first and a last value that does not fit. -/
theorem witness_WrBankRangeErrors : ([0, 0, 0, 0, 0, 0, 0] : List Int).length ≠ 8 ∧
    (∀ x : Slot, ([0x10000, 0, 0, 0, 0, 0, 0, 0] : List Int)[0]? ≠ some (x.toNat : Int)) ∧
    (∀ j < 7, ∃ x : Slot, ([0, 0, 0, 0, 0, 0, 0, -1] : List Int)[j]? = some (x.toNat : Int)) ∧
    (∀ x : Slot, ([0, 0, 0, 0, 0, 0, 0, -1] : List Int)[7]? ≠ some (x.toNat : Int)) := by
  refine ⟨by decide, fun x h => ?_, fun j hj => ⟨0, ?_⟩, fun x h => ?_⟩
  · have := x.isLt
    simp at h
    omega
  · revert j
    decide
  · simp at h

theorem witness_ResetClearsHardwareNotShadow : live.LinkCarries [.reset] ∧ live.tick.hw.engine = .idle ∧
    flying.LinkCarries [.reset] ∧ flying.tick.hw.engine = .busy snap0 := by decide

theorem witness_ResetFailureIsAllOrNothing : dead.LinkFails .reset ∧
    { live with registerMap := [] }.LinkFails .reset ∧ dead.tick.hw.engine = .idle ∧ flyingDead.LinkFails .reset ∧
    flyingDead.tick.hw.engine = .busy snap0 := by decide

theorem witness_IsBusyReportsTheEngine : live.LinkCarries [.busy] ∧ live.tick.hw.engine = .idle ∧
    flying.LinkCarries [.busy] ∧ flying.tick.hw.engine = .busy snap0 ∧ dead.LinkFails .busy := by decide

theorem witness_StartBeginsTransfer : live.tick.hw.engine = .idle ∧ live.LinkCarries [.ctrl] ∧
    started.tick.hw.engine = .idle ∧ started.LinkCarries [.ctrl] := by decide

theorem witness_StartWhileBusyOverlaps : flying.tick.hw.engine = .busy snap0 ∧ flying.LinkCarries [.ctrl] := by decide

theorem witness_StartFailureKeepsGoBusy : dead.tick.hw.engine = .idle ∧ dead.LinkFails .ctrl ∧
    flyingDead.tick.hw.engine = .busy snap0 ∧ flyingDead.LinkFails .ctrl := by decide

theorem witness_WaitIdlePollsBusy : live.LinkCarries [.busy] ∧ live.tick.hw.engine = .idle ∧
    flying.tick.hw.engine = .busy snap0 ∧ dead.LinkFails .busy := by decide

/-- A transfer due at once with one call left, and one that is polled ten times. -/
theorem witness_WaitIdleReturns :
    (let s := { flying.place (encode .waitIdle) with ticksLeft := 0, linkOk := some 1 }
     s.inbox = encode .waitIdle :: [] ∧ s.hw.engine = .busy snap0 ∧ .busy ∈ s.registerMap ∧ ∀ n ∈ s.linkOk, s.ticksLeft < n) ∧
    (∀ n ∈ (flying.place (encode .waitIdle)).linkOk, (flying.place (encode .waitIdle)).ticksLeft < n) ∧
    ∀ n ∈ { flying with linkOk := none }.linkOk, flying.ticksLeft < n := by decide

theorem witness_CtrlWritesReachThePeripheral : live.hw.engine = .idle ∧ flying.hw.engine = .busy snap0 := by decide

theorem witness_OverlapSpoilsTheTransfer : flying.hw.engine = .busy snap0 := by decide

theorem witness_IdleWritesStore : live.hw.engine = .idle ∧ (6 : Fin 8) ≠ 7 ∧ (0x2010 : CtrlWord).getLsbD 8 = false ∧
    (0x2110 : CtrlWord).getLsbD 8 = true := by decide

theorem witness_CompletionAppendsRecord : live.hw.engine = .idle ∧ flying.hw.engine = .busy snap0 := by decide

/-- Lengths 0, 1, 128, 129 and 255, and the first and last bit of a transfer. -/
theorem witness_SerialiseOrdersBits : (0 : Byte).toNat = 0 ∧ 128 < (129 : Byte).toNat ∧ 128 < (255 : Byte).toNat ∧
    0 < (1 : Byte).toNat ∧ (128 : Byte).toNat ≤ 128 ∧ 0 = (0 : Fin 8).val * 16 + 0 ∧ 127 = (7 : Fin 8).val * 16 + 15 := by
  decide

theorem witness_SlaveLinesFollowAss : snap0.ass = true ∧ { snap0 with ass := false }.ass = false ∧
    { live.hw with engine := .busy { snap0 with ass := false } }.engine = .busy { snap0 with ass := false } := by decide

/-- The corners of the ranges, and one value outside each. -/
theorem witness_EncodeBuildsTheFrame :
    (((1 : Int) = 0 ∨ (1 : Int) = 1) ∧ (0 ≤ (0x7F : Int) ∧ (0x7F : Int) ≤ 0x7F) ∧ 0 ≤ (0xFF : Int) ∧ (0xFF : Int) ≤ 0xFF) ∧
    ¬((2 : Int) = 0 ∨ (2 : Int) = 1) ∧ ¬((0x80 : Int) ≤ 0x7F) ∧ ¬((0x100 : Int) ≤ 0xFF) ∧ ¬(0 ≤ (-1 : Int)) := by decide

theorem witness_FirstTransmitStartsOneTransfer : live.shadow.goBusy = false ∧ live.tick.hw.engine = .idle ∧
    live.LinkCarries transmitRegs := by decide

theorem witness_TransmitWritesUnderEverySchedule : flying.LinkCarries transmitRegs ∧ (-1 : Int) < 0 ∧
    (2 : Int) ^ 16 ≤ 0x10000 := by decide

/-- The first, the ninth and the tenth write fail. -/
theorem witness_TransmitFailureIsPrecise :
    (transmitRegs[0]? = some (.data 0) ∧ dead.LinkCarries (transmitRegs.take 0) ∧ dead.linkOk = some 0) ∧
    (transmitRegs[8]? = some .ctrl ∧ { flying with linkOk := some 8 }.LinkCarries (transmitRegs.take 8) ∧
      { flying with linkOk := some 8 }.linkOk = some 8) ∧
    (transmitRegs[9]? = some .ctrl ∧ { live with linkOk := some 9 }.LinkCarries (transmitRegs.take 9) ∧
      { live with linkOk := some 9 }.linkOk = some 9) := by decide

theorem witness_LaterTransmitOverlapsOrRepeats : started.shadow.goBusy = true ∧ started.tick.hw.engine = .idle ∧
    started.LinkCarries transmitRegs := by decide

theorem witness_BackToBackTransmitSpoilsTransfer :
    { flying with ticksLeft := 10 }.hw.engine = .busy snap0 ∧ 10 ≤ { flying with ticksLeft := 10 }.ticksLeft ∧
    { flying with ticksLeft := 10 }.LinkCarries transmitRegs := by decide

theorem witness_FirstTransmitSendsFrameMsbFirst : live.shadow.goBusy = false ∧ live.tick.hw.engine = .idle ∧
    live.LinkCarries transmitRegs ∧ live.shadow.dataLen = 16 ∧ live.shadow.lsbFirst = false := by decide

theorem witness_FrameRowsTransmitTheirFrame : tableFrame (.frameR 0x7F 0xFF) = some 0xFFFF ∧
    tableFrame (.pixCtrl true true 0 0) = some 0x22C0 ∧ live.shadow.goBusy = false ∧ live.tick.hw.engine = .idle ∧
    live.LinkCarries transmitRegs := by decide

theorem witness_CfgPixelSendsThreeFrames : pixelSum 0xF 1 1 3 < 256 ∧
    live.LinkCarries (transmitRegs ++ transmitRegs ++ transmitRegs) := by decide

theorem witness_CfgPixelRefusalsComeAfterTheirWrites : (-1 : Int) < 0 ∧ (0xFF : Int) < 0x100 ∧
    live.LinkCarries transmitRegs ∧ live.LinkCarries (transmitRegs ++ transmitRegs) ∧
    255 < pixelSum (0 : Int).toNat (2 : Int).toNat (0 : Int).toNat (0 : Int).toNat := by decide

theorem witness_StepRunsTheDecodedPacket : (live.place (encode .start)).inbox = encode .start :: [] ∧
    decode (encode .start) = .ok .start ∧ decode (.command 0x11 []) = .error (.illegalCommand 0x11 []) ∧
    live.inbox = [] ∧ decodeTableWord 8 0x0C = some .start := by decide

/-- A state with a transfer in flight is good, and a step from it answers a next state. -/
theorem witness_EveryStepKeepsTheInvariant : flying.Inv ∧ ∃ t, step flying = .next t := by
  have h : 8 ≤ 2 ^ Config.divWidth := by exact_mod_cast eight_le
  refine ⟨⟨?_, ?_, ?_, ?_, ?_, ?_, rfl, ?_⟩, _, rfl⟩
  · show 4 < _
    omega
  · show 0 < _
    omega
  · intro snap e
    cases e
    show 0 < _
    omega
  · exact fun r hr => absurd hr List.not_mem_nil
  · intro snap e hc
    cases e
    cases hc
  · exact fun r hr => absurd hr List.not_mem_nil
  · exact fun r hr => absurd hr List.not_mem_nil

theorem witness_StickyFlagsStaySet :
    (let s := { started with hw := { started.hw with overlap := true } }
     s.shadow.goBusy = true ∧ s.hw.overlap = true ∧ step s = .next s.tick) := ⟨rfl, rfl, rfl⟩

theorem witness_ObservationsOnlyGrow : ∃ t, step (live.place (encode .start)) = .next t := ⟨_, rfl⟩

/-- For each shadow field, an instruction that changes it. -/
theorem witness_ShadowWrittenOnlyByItsOperation :
    seen (.setDataLen 8) live (fun t => t.shadow.dataLen) = some 8 ∧
    seen (.setRxNeg true) live (fun t => t.shadow.rxNeg) = some true ∧
    seen (.setTxNeg true) live (fun t => t.shadow.txNeg) = some true ∧
    seen (.setLsbFirst true) live (fun t => t.shadow.lsbFirst) = some true ∧
    seen (.setIe true) live (fun t => t.shadow.ie) = some true ∧
    seen (.setAss false) live (fun t => t.shadow.ass) = some false ∧
    seen (.setSs 1) live (fun t => t.shadow.ssMask) = some 1 ∧
    seen (.wrBank [1, 0, 0, 0, 0, 0, 0, 0]) live (fun t => t.shadow.bank[0]) = some 1 ∧
    seen .start live (fun t => t.shadow.goBusy) = some true ∧
    seen (.pixAddr 1) live (fun t => (t.shadow.bank[0], t.shadow.goBusy)) = some (0x2001, true) := by decide

theorem witness_setDiv_writes : seen (.setDiv 7) { live with hw := { live.hw with div := 4 } }
    (fun t => (t.shadow.clkDiv, t.hw.div)) = some (7, 7) := by
  have h : operandDivider 7 = .ok 7 := operandDivider_ok ⟨by omega, by have := eight_le; omega⟩
  simp only [seen, exec, execSetDiv, h]
  decide

/-- For each hardware register, an instruction that changes it, and one that sets the overlap flag. -/
theorem witness_HardwareWrittenOnlyByItsOperation :
    seen (.setSs 1) live (fun t => t.hw.ss) = some 1 ∧ live.hw.ss = 0 ∧
    seen (.pixAddr 1) live (fun t => t.hw.data[0]) = some 0x2001 ∧ live.hw.data[0] = 0 ∧
    seen .start live (fun t => t.hw.ctrl) = some 0x2110 ∧ live.hw.ctrl = 0 ∧
    seen (.ctrlGo true false false false false 16) flying (fun t => t.hw.overlap) = some true ∧
    flying.hw.overlap = false := by decide

theorem witness_ShadowAndReadOperationsLeaveHardware : (∃ t, exec (.setIe true) live = .next t) ∧
    (∃ t, exec (.encodeFrame 0 0x20 1) live = .next t) ∧ (∃ t, exec .isBusy flying = .next t) ∧
    ∃ t, exec .waitIdle flying = .next t := ⟨⟨_, rfl⟩, ⟨_, rfl⟩, ⟨_, rfl⟩, _, rfl⟩

theorem witness_RangeErrorsHaveNoEffect : ∃ t, exec (.setSs 0x100) live = .next t ∧
    t.results = live.results ++ [.err (.range .slaveSelect 0x100)] := ⟨_, rfl, by decide⟩

theorem witness_TypeErrorIsNeverRaised : ∃ t, exec (.setRxNeg true) live = .next t := ⟨_, rfl⟩

theorem witness_TransportErrorsArePrecise : (∃ t, exec .isBusy dead = .next t ∧ t.trace = dead.trace ++ [.failed .busy]) ∧
    ∃ t, exec .isBusy live = .next t ∧ t.trace = live.trace ++ [.read .busy 0] :=
  ⟨⟨_, rfl, by decide⟩, _, rfl, by decide⟩

theorem witness_CoreReadsOnlyBusy :
    (∃ t, exec .isBusy flying = .next t ∧ t.trace = flying.trace ++ [.read .busy 1]) ∧
    ∃ t, exec .start live = .next t ∧ t.trace = live.trace ++ [.write .ctrl 0x2110] :=
  ⟨⟨_, rfl, by decide⟩, _, rfl, by decide⟩

/-- A transfer that is due completes during the operation. -/
theorem witness_OnlyResetAborts : ∃ t, exec .isBusy { flying with ticksLeft := 0 } = .next t ∧ Instr.isBusy ≠ .reset ∧
    t.wire = [snap0.completedRecord] := ⟨_, rfl, by decide, rfl⟩

theorem witness_CoreIsBlindToThePeripheral : Instr.start ≠ .isBusy ∧ Instr.start ≠ .waitIdle ∧ live.SameCore flying ∧
    live.linkOk = flying.linkOk ∧ live.hw.engine ≠ flying.hw.engine :=
  ⟨by decide, by decide, ⟨rfl, rfl, rfl, rfl, rfl, rfl⟩, rfl, by decide⟩

/-- Idle; due at once; not yet due, and the scheduling points up to completion and after it. -/
theorem witness_SchedulingPointsEndTheTransfer : live.hw.engine = .idle ∧
    ((flyingFor 0).hw.engine = .busy snap0 ∧ (flyingFor 0).ticksLeft = 0) ∧
    (flying.hw.engine = .busy snap0 ∧ 0 < flying.ticksLeft ∧ 20 ≤ flying.ticksLeft ∧ 21 > flying.ticksLeft) := by decide

/-- A transfer that ends after the first write, after the seventh, and one that just outlasts all eight; a link that
never fails. -/
theorem witness_WrBankDuringTransfer :
    ((flyingFor 1).hw.engine = .busy snap0 ∧ 0 < (flyingFor 1).ticksLeft ∧ (flyingFor 1).LinkCarries dataRegs) ∧
    (0 < (flyingFor 7).ticksLeft ∧ (flyingFor 7).ticksLeft < 8) ∧ 8 ≤ (flyingFor 8).ticksLeft ∧
    { flyingFor 8 with linkOk := none }.LinkCarries dataRegs := by decide

/-- The first write fails; the last one does, with the transfer still in flight, or ended just before it. -/
theorem witness_WrBankFailureDuringTransfer :
    (flyingDead.hw.engine = .busy snap0 ∧ 0 < flyingDead.ticksLeft ∧ flyingDead.LinkCarries (dataRegs.take 0) ∧
      flyingDead.linkOk = some 0) ∧
    ({ flyingFor 8 with linkOk := some 7 }.LinkCarries (dataRegs.take 7) ∧
      { flyingFor 8 with linkOk := some 7 }.linkOk = some 7 ∧ 7 < (flyingFor 8).ticksLeft) ∧
    (0 < (flyingFor 7).ticksLeft ∧ (flyingFor 7).ticksLeft ≤ 7) := by decide

/-- The transfer ends after the first write, before the pre-start write, and before START's write; goBusy 0 and 1. -/
theorem witness_TransmitMeetsEndingTransfer :
    ((flyingFor 1).hw.engine = .busy snap0 ∧ 0 < (flyingFor 1).ticksLeft ∧ (flyingFor 1).ticksLeft < 10 ∧
      (flyingFor 1).LinkCarries transmitRegs ∧ (flyingFor 1).shadow.goBusy = false) ∧
    ({ flyingFor 8 with shadow := started.shadow }.shadow.goBusy = true ∧ (flyingFor 8).ticksLeft < 9) ∧
    ((flyingFor 9).ticksLeft = 9 ∧ (flyingFor 9).ticksLeft < 10) := by decide

/-- The first write of each transaction, and the last of the third, by the count; the ninth by an absent name. -/
theorem witness_CfgPixelFailureIsPrecise :
    (transmitRegs[0]? = some (.data 0) ∧ dead.LinkCarries (transmitRegs.take 0) ∧ dead.linkOk = some 0) ∧
    (transmitRegs[8]? = some .ctrl ∧ { live with registerMap := dataRegs }.LinkCarries (transmitRegs.take 8) ∧
      Reg.ctrl ∉ { live with registerMap := dataRegs }.registerMap) ∧
    ({ live with linkOk := some 10 }.LinkCarries (transmitRegs ++ transmitRegs.take 0) ∧
      { live with linkOk := some 10 }.linkOk = some (10 + 0)) ∧
    (transmitRegs[9]? = some .ctrl ∧ pixelSum (0xF : Int).toNat (1 : Int).toNat (1 : Int).toNat (3 : Int).toNat < 256 ∧
      { flying with linkOk := some 29 }.LinkCarries (transmitRegs ++ transmitRegs ++ transmitRegs.take 9) ∧
      { flying with linkOk := some 29 }.linkOk = some (20 + 9)) := by decide

end Sys2Proof.Tests
end

section
/-! The three cases of a step (R12, R58; logs 1, 4), and the table word placed for fetching (log 18). -/

namespace Sys2Proof.Machine

theorem step_of_inbox_nil {s : State} (h : s.inbox = []) : step s = .next s.tick := by
  simp [step, State.fetch, h]

theorem step_of_decode_ok {s : State} {p : Packet} {rest : List Packet} {i : Instr}
    (h : s.inbox = p :: rest) (hd : decode p = .ok i) : step s = exec i s.tick := by
  simp [step, State.fetch, h, hd]

theorem step_of_decode_error {s : State} {p : Packet} {rest : List Packet} {e : DecodeError}
    (h : s.inbox = p :: rest) (hd : decode p = .error e) : step s = .refused (refuseDecode e) := by
  simp [step, State.fetch, h, hd]

@[simp] theorem State.withFetchWord_inbox (s : State) (nbits w : Nat) :
    (s.withFetchWord nbits w).inbox = packetOfTable nbits w :: s.inbox := rfl

theorem decodeTableWord_eq_some_iff {nbits w : Nat} {i : Instr} :
    decodeTableWord nbits w = some i ↔ decode (packetOfTable nbits w) = .ok i := by
  cases h : decode (packetOfTable nbits w) <;> simp [decodeTableWord, h]

/-- Settles O40: one equation per case of the step; a table word is the packet at the head of the inbox, and the
table's reading of it is the decoder's. -/
theorem stepRunsTheDecodedPacket : Obligations.StepRunsTheDecodedPacket := by
  refine ⟨fun _ _ _ _ => step_of_decode_ok, fun _ _ _ _ => step_of_decode_error,
    fun _ => step_of_inbox_nil, ?_⟩
  intro s nbits w i h
  exact step_of_decode_ok (s.withFetchWord_inbox nbits w) (decodeTableWord_eq_some_iff.mp h)

end Sys2Proof.Machine
end

section
/-! What an executed instruction and a step leave behind, on every path: the peripheral's side as a list of allowed
writes and scheduling points (R42, R43, R145, R148). -/

namespace Sys2Proof.Machine

variable {s t u : State} {i : Instr}

/-- How a step closes once the calls have led to `u`: the current packet stays (WAITIDLE, log 12), it is delivered
(log 3), or the host gets a result (R40). -/
inductive State.Closes (u : State) : State → Prop
  | goesOn : u.Closes u
  | delivered : u.Closes u.delivered
  | answered (r : OpResult) : u.Closes (u.answer r)

theorem State.Closes.shadow (h : u.Closes t) : t.shadow = u.shadow := by cases h <;> rfl
theorem State.Closes.hw (h : u.Closes t) : t.hw = u.hw := by cases h <;> rfl
theorem State.Closes.wire (h : u.Closes t) : t.wire = u.wire := by cases h <;> rfl
theorem State.Closes.trace (h : u.Closes t) : t.trace = u.trace := by cases h <;> rfl
theorem State.Closes.registerMap (h : u.Closes t) : t.registerMap = u.registerMap := by cases h <;> rfl

/-- Closing appends at most one result, and the operation index counts it (R21, R40). -/
theorem State.Closes.results (h : u.Closes t) :
    ∃ rs, t.results = u.results ++ rs ∧ t.opIndex = u.opIndex + rs.length ∧ rs.length ≤ 1 := by
  cases h with
  | goesOn => exact ⟨[], by simp⟩
  | delivered => exact ⟨[], by simp⟩
  | answered r => exact ⟨[r], by simp⟩

theorem Call.toHost_closes {α : Type} (f : α → Value) (c : Call α) : c.state.Closes (c.toHost f) := by
  cases c with
  | done v u => exact .answered _
  | failed e u => exact .answered _

/-- Calls on every path, read at the state they end in. -/
theorem Call.Within.state {α : Type} {W : RegWrite → Prop} {c : Call α} (h : Call.Within W s c) :
    State.Within W s c.state ∧ ∃ es, c.state.trace = s.trace ++ es := by
  cases c with
  | done v u =>
    obtain ⟨hu, es, he, _⟩ := h
    exact ⟨hu, es, he⟩
  | failed e u =>
    obtain ⟨hu, es, r, _, he, _⟩ := h
    exact ⟨hu, es ++ [.failed r], by simp only [Call.state, he, List.append_assoc]⟩

/-- An instruction makes only the writes it is allowed, appends to the trace, and closes. -/
theorem exec_within (h : exec i s = .next t) :
    ∃ u, State.Within (Instr.Allowed i) s u ∧ (∃ es, u.trace = s.trace ++ es) ∧ u.Closes t := by
  cases exec_ended h with
  | range c n ht => exact ⟨s, .refl _ s, ⟨[], by simp⟩, ht ▸ .answered _⟩
  | call c f ht hc =>
    obtain ⟨hw, htrace⟩ := hc.state
    exact ⟨c.state, hw, htrace, ht ▸ c.toHost_closes f⟩
  | plain v x ht =>
    exact ⟨s.setShadow x, .of_hw rfl rfl rfl rfl rfl rfl, ⟨[], by simp⟩, ht ▸ .answered _⟩
  | poll c v u hc hu ht =>
    obtain ⟨hw, htrace⟩ := hc.state
    exact ⟨c.state, hw, htrace, by rw [hu, ht]; exact .goesOn⟩
  | delivered w hw ht =>
    exact ⟨s.hwWrite w, .hwWrite w hw s, ⟨[], by simp [(s.hwWrite_coreKept w).trace]⟩, ht ▸ .delivered⟩

/-- A step is a scheduling point and then what its instruction does. -/
theorem step_within (h : step s = .next t) :
    ∃ W u, State.Within W s u ∧ (∃ es, u.trace = s.trace ++ es) ∧ u.Closes t := by
  rcases step_cases h with ⟨_, rfl⟩ | ⟨i, hi⟩
  · exact ⟨fun _ => False, s.tick, .tick s, ⟨[], by simp⟩, .goesOn⟩
  · obtain ⟨u, hu, htrace, hclose⟩ := exec_within hi
    exact ⟨Instr.Allowed i, u, (State.Within.tick s).trans hu, by simpa using htrace, hclose⟩

/-- Settles O44: scheduling points and writes of registers only append to the records, calls only append to the trace,
and closing appends the result. -/
theorem observationsOnlyGrow : Obligations.ObservationsOnlyGrow := by
  intro s t h
  obtain ⟨W, u, hu, ⟨es, htrace⟩, hclose⟩ := step_within h
  obtain ⟨ws, hwire, _⟩ := hu.wire
  obtain ⟨rs, hresults, hindex, hlen⟩ := hclose.results
  rw [hu.results] at hresults
  rw [hu.opIndex] at hindex
  exact ⟨⟨es, hclose.trace.trans htrace⟩, ⟨ws, hclose.wire.trans hwire⟩, ⟨rs, hresults, hindex, hlen⟩,
    hclose.registerMap.trans hu.registerMap⟩

end Sys2Proof.Machine
end

section
/-! Which instruction may write which hardware register (R43, R145, R148). -/

namespace Sys2Proof.Machine

variable {i : Instr}

theorem Instr.Allowed.divider {v : Nat} (h : Instr.Allowed i (.divider v)) : ∃ v, i = .setDiv v := by
  cases i <;> simp_all [Instr.Allowed]

theorem Instr.Allowed.ss {m : Byte} (h : Instr.Allowed i (.ss m)) : ∃ m, i = .setSs m := by
  cases i <;> simp_all [Instr.Allowed]

theorem Instr.Allowed.reset {b : Bool} (h : Instr.Allowed i (.reset b)) : i = .reset := by
  cases i <;> simp_all [Instr.Allowed]

theorem Instr.Allowed.data {k : Fin 8} {v : Slot} (h : Instr.Allowed i (.data k v)) :
    (∃ vs, i = .wrBank vs) ∨ sendsFrames i = true := by
  cases i <;> simp_all [Instr.Allowed]

theorem Instr.Allowed.ctrl {v : CtrlWord} (h : Instr.Allowed i (.ctrl v)) :
    i = .start ∨ sendsFrames i = true ∨ writesCtrl i = true := by
  cases i <;> simp_all [Instr.Allowed, writesCtrl]

/-- The instructions that may write a transfer-affecting register (R142). -/
theorem Instr.Allowed.affects {w : RegWrite} (h : Instr.Allowed i w) (ha : RegWrite.Affects w) :
    (∃ v, i = .setDiv v) ∨ (∃ vs, i = .wrBank vs) ∨ i = .start ∨ sendsFrames i = true ∨ writesCtrl i = true := by
  cases w with
  | ctrl v => exact .inr (.inr h.ctrl)
  | divider v => exact .inl h.divider
  | data k v =>
    rcases h.data with hb | hf
    · exact .inr (.inl hb)
    · exact .inr (.inr (.inr (.inl hf)))
  | ss m => exact ha.elim
  | reset b => exact ha.elim

/-- A flag that is never cleared changes only by being set. -/
theorem flag_set_of_ne {a b : Bool} (hmono : a = true → b = true) (hne : b ≠ a) : a = false ∧ b = true := by
  cases a with
  | true => exact absurd (hmono rfl) hne
  | false => exact ⟨rfl, by simpa using hne⟩

/-- Settles O46: a register that changed was written by an allowed write or by a reset, and the overlap flag by an
allowed write of a transfer-affecting register. -/
theorem hardwareWrittenOnlyByItsOperation : Obligations.HardwareWrittenOnlyByItsOperation := by
  intro i s t h
  obtain ⟨u, hu, _, hclose⟩ := exec_within h
  rw [hclose.hw]
  refine ⟨fun hd => ?_, fun hd => ?_, fun hd => ?_, fun hd => ?_, fun ho => ?_⟩
  · rcases hu.div hd with ⟨_, hw⟩ | hr
    · exact .inl hw.divider
    · exact .inr hr.reset
  · rcases hu.ss hd with ⟨_, hw⟩ | hr
    · exact .inl hw.ss
    · exact .inr hr.reset
  · rcases hu.data hd with ⟨_, _, hw⟩ | hr
    · exact hw.data.imp_right .inr
    · exact .inr (.inl hr.reset)
  · rcases hu.ctrl hd with ⟨_, hw⟩ | hr
    · exact hw.ctrl.imp_right .inr
    · exact .inr (.inl hr.reset)
  · obtain ⟨w, hw, ha⟩ := hu.overlapOnly ho
    exact ⟨(flag_set_of_ne hu.overlapMono ho).2, hw.affects ha⟩

end Sys2Proof.Machine
end

section
/-! What an executed instruction does to the shadow (R43, R23, R24, R125). -/

namespace Sys2Proof.Machine

variable {s t u : State} {i : Instr} {x y : Shadow}

/-- A pulse of any length leaves the core alone. -/
theorem State.applyPulse_coreKept (n : Fin 4) (s : State) : s.CoreKept (s.applyPulse n) := by
  rcases applyPulse_cases n s with h | h <;> rw [h]
  · exact .refl s
  · exact s.hwWrite_coreKept (.reset true)

theorem pulseReset_shadow (s : State) : (pulseReset s).state.shadow = s.shadow := by
  by_cases h : s.LinkUp .reset
  · rw [pulseReset_carried h]
    exact (s.tick.applyPulse_coreKept 3).shadow.trans s.tick_shadow
  · rw [pulseReset_failed h]
    exact (s.tick.applyPulse_coreKept _).shadow.trans s.tick_shadow

@[simp] theorem State.readReg_shadow (r : Reg) (s : State) : (s.readReg r).2.shadow = s.shadow := by cases r <;> rfl
@[simp] theorem State.readReg_hw (r : Reg) (s : State) : (s.readReg r).2.hw = s.hw := by cases r <;> rfl
@[simp] theorem State.readReg_wire (r : Reg) (s : State) : (s.readReg r).2.wire = s.wire := by cases r <;> rfl

/-- A read leaves the peripheral and its records as the scheduling point before it left them, and the shadow as it was
(R55, R125). -/
theorem memRead_state (r : Reg) (s : State) : (memRead r s).state.hw = s.tick.hw ∧
    (memRead r s).state.wire = s.tick.wire ∧ (memRead r s).state.shadow = s.shadow := by
  by_cases h : s.LinkUp r
  · rw [memRead_carried h]; simp [Call.state]
  · rw [memRead_failed h]; simp [Call.state, State.linkFailed]

theorem memRead_shadow (r : Reg) (s : State) : (memRead r s).state.shadow = s.shadow := by
  obtain ⟨_, _, hshadow⟩ := memRead_state r s
  exact hshadow

theorem waitIdlePolled_closes (c : Call Nat) : c.state.Closes (waitIdlePolled c) := by
  cases c with
  | done v u =>
    by_cases hv : busyTest v = true
    · simp only [waitIdlePolled, hv, if_true]; exact .goesOn
    · simp only [waitIdlePolled, hv]; exact .answered _
  | failed e u => exact .answered _

/-- Which field of the shadow an instruction may write, and to what (R43). -/
inductive ShadowStep : Instr → Shadow → Shadow → Prop
  | kept (i : Instr) (x : Shadow) : ShadowStep i x x
  | dataLen (n : Int) (x : Shadow) (v : Byte) : ShadowStep (.setDataLen n) x { x with dataLen := v }
  | rxNeg (b : Bool) (x : Shadow) : ShadowStep (.setRxNeg b) x { x with rxNeg := b }
  | txNeg (b : Bool) (x : Shadow) : ShadowStep (.setTxNeg b) x { x with txNeg := b }
  | lsbFirst (b : Bool) (x : Shadow) : ShadowStep (.setLsbFirst b) x { x with lsbFirst := b }
  | ie (b : Bool) (x : Shadow) : ShadowStep (.setIe b) x { x with ie := b }
  | ass (b : Bool) (x : Shadow) : ShadowStep (.setAss b) x { x with ass := b }
  | clkDiv (v : Int) (x : Shadow) (d : Nat) : ShadowStep (.setDiv v) x { x with clkDiv := d }
  | ssMask (m : Int) (x : Shadow) (v : Byte) : ShadowStep (.setSs m) x { x with ssMask := v }
  | bank (vs : List Int) (x : Shadow) (b : Bank) : ShadowStep (.wrBank vs) x { x with bank := b }
  | goBusy (x : Shadow) : ShadowStep .start x { x with goBusy := true }
  | frames {i : Instr} {x y : Shadow} (hi : sendsFrames i = true) (h : Shadow.TransmitStep x y) : ShadowStep i x y

theorem ShadowStep.of_eq (h : y = x) : ShadowStep i x y := h ▸ .kept i x

/-- A rejected operand leaves the shadow as it was (R207). -/
theorem ShadowStep.checked {α : Type} {c : Except OpError α} {rest : α → State}
    (h : ∀ v, ShadowStep i s.shadow (rest v).shadow) : ShadowStep i s.shadow (checked c s rest).shadow := by
  cases c with
  | ok v => exact h v
  | error e => exact .kept i s.shadow

/-- The shadow after an operation is the one its calls left. -/
theorem ShadowStep.toHost {α : Type} {f : α → Value} {c : Call α} (hc : c.state.shadow = y) (h : ShadowStep i x y) :
    ShadowStep i x (c.toHost f).shadow := by
  rwa [(c.toHost_closes f).shadow, hc]

/-- Frames write the shadow as TRANSMIT does. -/
theorem ShadowStep.sendFrame (hi : sendsFrames i = true) (w : Frame) (s : State) :
    ShadowStep i s.shadow (sendFrame w s).shadow :=
  .toHost rfl (.frames hi (transmitCalls_step w s))

/-- A CFGPIXEL that answers closes where the calls of its frames ended (R190, R207). -/
theorem execCfgPixel_closes {addr h lo we pe m : Int} (e : execCfgPixel addr h lo we pe m s = .next t) :
    (sendFrames (pixelFrames addr h lo we pe m).1 s).state.Closes t := by
  unfold execCfgPixel at e
  split at e
  next ws hp =>
    cases e
    exact hp ▸ Call.toHost_closes _ _
  next ws stop hp =>
    rw [hp]
    cases hc : sendFrames ws s with
    | done v u => rw [hc] at e; cases e
    | failed err u => rw [hc] at e; cases e; exact .answered _

/-- Every instruction writes the shadow only as its case of the shadow step says (R43). -/
theorem exec_shadowStep (h : exec i s = .next t) : ShadowStep i s.shadow t.shadow := by
  cases i with
  | setDataLen n => cases h; exact .checked fun v => .dataLen n _ v
  | setRxNeg b => cases h; exact .rxNeg b _
  | setTxNeg b => cases h; exact .txNeg b _
  | setLsbFirst b => cases h; exact .lsbFirst b _
  | setIe b => cases h; exact .ie b _
  | setAss b => cases h; exact .ass b _
  | setDiv v =>
    cases h
    exact .checked fun d => .toHost (memWrite_shadow _ _) (.clkDiv v _ d)
  | setSs m =>
    cases h
    exact .checked fun v => .toHost (memWrite_shadow _ _) (.ssMask m _ v)
  | wrBank vs =>
    cases h
    exact .checked fun b => .toHost (memWrites_shadow _ _) (.bank vs _ b)
  | reset => cases h; exact .toHost (pulseReset_shadow s) (.kept _ _)
  | isBusy => cases h; exact .toHost (memRead_shadow .busy s) (.kept _ _)
  | start => cases h; exact .toHost (startCalls_shadow s) (.goBusy _)
  | waitIdle => cases h; exact .of_eq ((waitIdlePolled_closes _).shadow.trans (memRead_shadow .busy s))
  | encodeFrame d a p =>
    rw [exec, execEncodeFrame] at h
    split at h
    · cases h; exact .kept _ _
    · cases h
  | transmit word =>
    cases h
    exact .checked fun w => .sendFrame rfl w s
  | cfgPixel addr h' lo we pe m =>
    rw [(execCfgPixel_closes h).shadow]
    exact .frames rfl (sendFrames_step _ s)
  | frameW a p => cases h; exact .sendFrame rfl _ s
  | frameR a p => cases h; exact .sendFrame rfl _ s
  | pixAddr p => cases h; exact .sendFrame rfl _ s
  | pixDacLo p => cases h; exact .sendFrame rfl _ s
  | pixCtrl w e m h' => cases h; exact .sendFrame rfl _ s
  | ctrlCfg => cases h; exact .of_eq (s.hwWrite_coreKept _).shadow
  | ctrlGo => cases h; exact .of_eq (s.hwWrite_coreKept _).shadow

/-- A shadow step never clears goBusy (R24). -/
theorem ShadowStep.goBusy_mono (h : ShadowStep i x y) : x.goBusy = true → y.goBusy = true := by
  cases h with
  | goBusy => exact fun _ => rfl
  | frames _ h =>
    obtain ⟨b, g, rfl, hg⟩ := h
    exact hg
  | _ => exact id

/-- Settles O45: only its own case of the shadow step writes a field, and none clears goBusy. -/
theorem shadowWrittenOnlyByItsOperation : Obligations.ShadowWrittenOnlyByItsOperation := by
  intro i s t h
  have hstep := exec_shadowStep h
  generalize s.shadow = x, t.shadow = y at hstep ⊢
  have hset := flag_set_of_ne hstep.goBusy_mono
  cases hstep with
  | frames hi h =>
    obtain ⟨b, g, rfl, _⟩ := h
    simpa [hi] using hset
  | _ => simp

/-- Settles O43: no case of the shadow step clears goBusy, and no write and no scheduling point clears the overlap
flag. -/
theorem stickyFlagsStaySet : Obligations.StickyFlagsStaySet := by
  intro s t h
  refine ⟨fun hg => ?_, fun ho => ?_⟩
  · rcases step_cases h with ⟨_, rfl⟩ | ⟨i, hi⟩
    · simpa using hg
    · exact (exec_shadowStep hi).goBusy_mono (by simpa using hg)
  · obtain ⟨W, u, hu, _, hclose⟩ := step_within h
    rw [hclose.hw]
    exact hu.overlapMono ho

end Sys2Proof.Machine
end

section
/-! Operations that leave the peripheral alone (R43, R55, R107), and the state after initialization (R22, R35). -/

namespace Sys2Proof.Machine

variable {s t : State} {i : Instr}

/-- Setters and ENCODE change the shadow and answer, and nothing else (R107, R170). -/
theorem exec_setter_or_encode (h : exec i s = .next t)
    (hi : (∃ n, i = .setDataLen n) ∨ (∃ b, i = .setRxNeg b ∨ i = .setTxNeg b ∨ i = .setLsbFirst b ∨ i = .setIe b ∨
      i = .setAss b) ∨ (∃ d a p, i = .encodeFrame d a p)) :
    ∃ x r, t = (s.setShadow x).answer r := by
  rcases hi with ⟨n, rfl⟩ | ⟨b, rfl | rfl | rfl | rfl | rfl⟩ | ⟨d, a, p, rfl⟩
  · rw [exec, execSetDataLen] at h
    cases hn : operandDataLen n with
    | ok v => rw [hn] at h; cases h; exact ⟨_, _, rfl⟩
    | error e => rw [hn] at h; cases h; exact ⟨s.shadow, _, rfl⟩
  iterate 5 cases h; exact ⟨_, _, rfl⟩
  · rw [exec, execEncodeFrame] at h
    split at h
    · cases h; exact ⟨s.shadow, _, rfl⟩
    · cases h

/-- ISBUSY and WAITIDLE close after one read of BUSY (R124, R141; log 12). -/
theorem exec_busyRead_closes (h : exec i s = .next t) (hi : i = .isBusy ∨ i = .waitIdle) :
    (memRead .busy s).state.Closes t := by
  rcases hi with rfl | rfl
  · cases h; exact Call.toHost_closes _ _
  · cases h; exact waitIdlePolled_closes _

/-- Settles O47: a setter or ENCODE changes the shadow and answers; ISBUSY and WAITIDLE make one read. -/
theorem shadowAndReadOperationsLeaveHardware : Obligations.ShadowAndReadOperationsLeaveHardware := by
  intro i s t h
  refine ⟨fun hi => ?_, fun hi => ?_⟩
  · obtain ⟨x, r, rfl⟩ := exec_setter_or_encode h hi
    exact ⟨rfl, rfl, rfl, rfl⟩
  · have hclose := exec_busyRead_closes h hi
    rw [hclose.hw, hclose.wire, hclose.shadow]
    exact memRead_state .busy s

/-- The reset divider 4 fits DIV_WIDTH (R22; log 11). -/
theorem four_lt_two_pow_divWidth : 4 < 2 ^ Config.divWidth :=
  calc 4 < 2 ^ 3 := by decide
    _ ≤ 2 ^ Config.divWidth := Nat.pow_le_pow_right (by decide) (Nat.le_add_right 3 _)

theorem launchDiv_lt : Config.launchDiv < 2 ^ Config.divWidth := Nat.mod_lt _ (Nat.two_pow_pos _)

theorem reset_inv : State.reset.Inv where
  shadowDiv := four_lt_two_pow_divWidth
  hwDiv := launchDiv_lt
  snapDiv _ h := nomatch h
  recordDiv _ h := nomatch h
  corruptMarked _ h := nomatch h
  recordsSound _ h := nomatch h
  resultsCounted := rfl
  eventsFit _ h := nomatch h

/-- Settles O42: the two dividers fit, and there is no transfer, record, result or event yet. -/
theorem initialStateIsGood : Obligations.InitialStateIsGood := ⟨reset_inv, rfl, rfl⟩

end Sys2Proof.Machine
end

section
/-! The good states are closed under every step (R53, R145, R148 to R150, R21), and what the core puts on the bus
(R46, R60, R69, R153). -/

namespace Sys2Proof.Machine

variable {s t u : State} {i : Instr} {W : RegWrite → Prop} {e : BusEvent}

/-! ### The bus events of an instruction -/

/-- An event that calls with writes in `W` may put on the bus: a write of `W`, a read of BUSY, or a failed call. -/
def BusEvent.Of (W : RegWrite → Prop) (e : BusEvent) : Prop := EventOf W e ∨ ∃ r, e = .failed r

/-- Calls on every path only append events of their own writes, reads of BUSY and failed calls. -/
theorem Call.Within.events {α : Type} {c : Call α} (h : Call.Within W s c) :
    ∃ es, c.state.trace = s.trace ++ es ∧ ∀ e ∈ es, BusEvent.Of W e := by
  cases c with
  | done v u =>
    obtain ⟨_, es, htrace, hes⟩ := h
    exact ⟨es, htrace, fun e he => .inl (hes e he)⟩
  | failed err u =>
    obtain ⟨_, es, r, _, htrace, hes⟩ := h
    refine ⟨es ++ [.failed r], by rw [Call.state, htrace, List.append_assoc], fun e he => ?_⟩
    rcases List.mem_append.mp he with he | he
    · exact .inl (hes e he)
    · exact .inr ⟨r, List.mem_singleton.mp he⟩

/-- What an instruction appends to the trace (R39, R47 to R50). -/
theorem exec_events (h : exec i s = .next t) :
    ∃ es, t.trace = s.trace ++ es ∧ ∀ e ∈ es, BusEvent.Of (Instr.Allowed i) e := by
  cases exec_ended h with
  | range c n ht => exact ⟨[], by simp [ht, State.ended], by simp⟩
  | call c f ht hc =>
    rw [ht, (c.toHost_closes f).trace]
    exact hc.events
  | plain v x ht => exact ⟨[], by simp [ht, returnOk], by simp⟩
  | poll c v u hc hu ht =>
    rw [hu] at hc
    exact ht ▸ hc.events
  | delivered w hw ht => exact ⟨[], by simp [ht, (s.hwWrite_coreKept w).trace], by simp⟩

/-- Events of writes that fit carry values that fit (R53), and so do reads of BUSY. -/
theorem BusEvent.Of.fits (hW : ∀ w, W w → RegWrite.Fits w) (h : BusEvent.Of W e) : e.Fits := by
  rcases h with (⟨w, hw, rfl⟩ | ⟨v, rfl, hv⟩) | ⟨r, rfl⟩
  · exact hW w hw
  · have hbusy : 1 < 2 ^ Config.busyRegWidth := Nat.one_lt_two_pow (by rw [Config.busyRegWidth]; omega)
    show v < 2 ^ Config.busyRegWidth
    omega
  · trivial

/-- A read is of BUSY and answers 0 or 1. -/
theorem BusEvent.Of.read {r : Reg} {v : Nat} (h : BusEvent.Of W (.read r v)) : r = .busy ∧ (v = 0 ∨ v = 1) := by
  rcases h with (⟨w, _, he⟩ | ⟨v', he, hv⟩) | ⟨r', he⟩
  · cases he
  · cases he; exact ⟨rfl, hv⟩
  · cases he

theorem RegWrite.reg_ne_busy (w : RegWrite) : w.reg ≠ .busy := by cases w <;> exact Reg.noConfusion

/-- A write is never of BUSY. -/
theorem BusEvent.Of.write {r : Reg} {v : Nat} (h : BusEvent.Of W (.write r v)) : r ≠ .busy := by
  rcases h with (⟨w, _, he⟩ | ⟨v', he, _⟩) | ⟨r', he⟩
  · cases he; exact RegWrite.reg_ne_busy w
  · cases he
  · cases he

/-- Settles O51: every event an instruction appends is of an allowed write, a read of BUSY or a failed call, and a value
that fits the 14 bits of CTRL has no bit above 13. -/
theorem coreReadsOnlyBusy : Obligations.CoreReadsOnlyBusy := by
  intro i s t es h htrace
  obtain ⟨es', htrace', hes⟩ := exec_events h
  obtain rfl : es = es' := List.append_cancel_left (htrace.symm.trans htrace')
  refine ⟨fun r v he => (hes _ he).read, fun r v he => (hes _ he).write, fun v he k hk => ?_⟩
  have hfits : v < 2 ^ 14 := (hes _ he).fits fun _ => Instr.Allowed.fits
  exact Nat.testBit_eq_false_of_lt (hfits.trans_le (Nat.pow_le_pow_right (by decide) hk))

/-! ### The invariant -/

/-- The peripheral's part of the invariant. -/
theorem State.Inv.periph (h : s.Inv) : s.PeriphInv :=
  ⟨h.hwDiv, h.snapDiv, h.recordDiv, h.corruptMarked, h.recordsSound⟩

/-- The peripheral's part is about the peripheral and its records only. -/
theorem State.PeriphInv.of_eq (h : s.PeriphInv) (hhw : t.hw = s.hw) (hwire : t.wire = s.wire) : t.PeriphInv where
  hwDiv := hhw ▸ h.hwDiv
  snapDiv := hhw ▸ h.snapDiv
  recordDiv := hwire ▸ h.recordDiv
  corruptMarked := hhw ▸ h.corruptMarked
  recordsSound := hhw ▸ hwire ▸ h.recordsSound

/-- The invariant from the peripheral's part and the core's. -/
theorem State.PeriphInv.inv (h : s.PeriphInv) (hdiv : s.shadow.clkDiv < 2 ^ Config.divWidth)
    (hcount : s.results.length = s.opIndex) (hfit : ∀ e ∈ s.trace, e.Fits) : s.Inv :=
  ⟨hdiv, h.hwDiv, h.snapDiv, h.recordDiv, h.corruptMarked, h.recordsSound, hcount, hfit⟩

/-- A scheduling point keeps the invariant (R149, R150). -/
theorem State.Inv.tick (h : s.Inv) : s.tick.Inv :=
  have hperiph := (State.Within.tick (W := fun _ => False) s).inv (fun _ hw => hw.elim) h.periph
  hperiph.inv (by simpa using h.shadowDiv) (by simpa using h.resultsCounted) (by simpa using h.eventsFit)

/-- A divider that is accepted fits DIV_WIDTH (R120). -/
theorem operandDivider_lt {v : Int} {d : Nat} (h : operandDivider v = .ok d) : d < 2 ^ Config.divWidth := by
  by_cases hv : InRange 0 (2 ^ Config.divWidth - 1) v
  · rw [operandDivider_ok hv] at h
    cases h
    have hcast : ((2 ^ Config.divWidth : Nat) : Int) = 2 ^ Config.divWidth := by push_cast; rfl
    omega
  · rw [operandDivider_bad hv] at h
    cases h

/-- Only SETDIV writes the shadow's divider, and it writes one that fits (R43, R120). -/
theorem exec_clkDiv_lt (h : exec i s = .next t) (hs : s.shadow.clkDiv < 2 ^ Config.divWidth) :
    t.shadow.clkDiv < 2 ^ Config.divWidth := by
  by_cases hkept : t.shadow.clkDiv = s.shadow.clkDiv
  · rwa [hkept]
  · obtain ⟨_, _, _, _, _, _, hwriter, _⟩ := shadowWrittenOnlyByItsOperation i s t h
    obtain ⟨v, rfl⟩ := hwriter hkept
    rw [exec, execSetDiv] at h
    cases hv : operandDivider v with
    | ok d =>
      rw [hv] at h
      cases h
      rw [checked, (Call.toHost_closes _ _).shadow, memWrite_shadow]
      exact operandDivider_lt hv
    | error e =>
      rw [hv] at h
      cases h
      exact hs

/-- Every instruction keeps the invariant. -/
theorem State.Inv.exec (hs : s.Inv) (h : exec i s = .next t) : t.Inv := by
  obtain ⟨u, hu, _, hclose⟩ := exec_within h
  obtain ⟨rs, hresults, hindex, _⟩ := hclose.results
  obtain ⟨es, htrace, hes⟩ := exec_events h
  have hallowed : ∀ w, Instr.Allowed i w → RegWrite.Fits w := fun _ => Instr.Allowed.fits
  have hperiph : t.PeriphInv := (hu.inv hallowed hs.periph).of_eq hclose.hw hclose.wire
  refine hperiph.inv (exec_clkDiv_lt h hs.shadowDiv) ?_ fun e he => ?_
  · rw [hresults, hindex, hu.results, hu.opIndex, List.length_append, hs.resultsCounted]
  · rcases List.mem_append.mp (htrace ▸ he) with he | he
    · exact hs.eventsFit e he
    · exact (hes e he).fits hallowed

/-- Settles O41: a step is a scheduling point and then one instruction, or the scheduling point alone. -/
theorem everyStepKeepsTheInvariant : Obligations.EveryStepKeepsTheInvariant := by
  intro s t hs h
  rcases step_cases h with ⟨_, rfl⟩ | ⟨i, hi⟩
  · exact hs.tick
  · exact hs.tick.exec hi

end Sys2Proof.Machine
end

section
/-! What a pulse on RESET can do to the peripheral, whole or cut off (R48, R148, R204). -/

namespace Sys2Proof.Machine

/-- A scheduling point does not change the overlap flag (R149). -/
@[simp] theorem State.tick_overlap (s : State) : s.tick.hw.overlap = s.hw.overlap := by
  rcases s.tick_cases with ⟨_, h⟩ | ⟨_, _, _, h⟩ | ⟨_, _, _, h⟩ <;> rw [h] <;> rfl

/-- A reset clears the registers and appends the aborted record of the transfer in flight, if there is one (R148). -/
theorem State.resetPeripheral_eq (s : State) : ∃ ws,
    s.resetPeripheral = { s with hw := s.hw.cleared, wire := s.wire ++ ws } ∧
    (s.hw.engine = .idle → ws = []) ∧ ∀ snap, s.hw.engine = .busy snap → ws = [snap.abortedRecord] := by
  cases h : s.hw.engine with
  | idle => exact ⟨[], by simp [State.resetPeripheral, State.setHw, h], by simp, by simp⟩
  | busy snap =>
    exact ⟨[snap.abortedRecord], by simp [State.resetPeripheral, State.setHw, State.addRecord, h], by simp, by simp⟩

/-- A pulse of any length leaves the peripheral alone, or resets it and ends a transfer in flight with its aborted
record (R48, R148). -/
theorem State.applyPulse_eq (n : Fin 4) (s : State) : ∃ hw ws,
    s.applyPulse n = { s with hw := hw, wire := s.wire ++ ws } ∧
    (hw = s.hw ∧ ws = [] ∨ hw = s.hw.cleared ∧
      (s.hw.engine = .idle → ws = []) ∧ ∀ snap, s.hw.engine = .busy snap → ws = [snap.abortedRecord]) := by
  rcases applyPulse_cases n s with h | h
  · exact ⟨s.hw, [], by simp [h], .inl ⟨rfl, rfl⟩⟩
  · obtain ⟨ws, hreset, hws⟩ := s.resetPeripheral_eq
    exact ⟨s.hw.cleared, ws, h.trans hreset, .inr ⟨rfl, hws⟩⟩

/-- Settles O16: the writes of a failed pulse that reached the peripheral are the whole reset or nothing. -/
theorem resetFailureIsAllOrNothing : Obligations.ResetFailureIsAllOrNothing := by
  intro s hf
  obtain ⟨hw, ws, hpulse, hcases⟩ := s.tick.applyPulse_eq (Config.pulseReached s.tick.drawn)
  refine ⟨raise (.transport .reset) ((s.tick.applyPulse (Config.pulseReached s.tick.drawn)).linkFailed .reset),
    hw, ws, ?_, ?_, ?_⟩
  · rw [exec, execReset, pulseReset_failed hf.not_linkUp, Call.toHost]
  · rw [hpulse, State.sameBut_iff]
    simp [raise, State.linkFailed, State.ended]
  · rw [← s.tick_overlap]
    exact hcases

end Sys2Proof.Machine
end

section
/-! The transfer that the first TRANSMIT of a run starts, and the bits it drives (R144, R150, R171). -/

namespace Sys2Proof.Machine

variable {s : State}

/-- The transfer that a first TRANSMIT of `w` starts: the shadow's fields and slots, with `w` in slot 0 (R144, R171). -/
def State.firstSnap (w : Slot) (s : State) : Snap :=
  { s.hw.snapOf s.shadow with data := s.shadow.bank.set 0 w }

/-- A control word with goBusy = 1, written on an Idle engine, starts the transfer of its fields and the data registers
(R144). -/
theorem hwWrite_ctrlWord_starts (x : Shadow) (hg : x.goBusy = true) (hi : s.hw.engine = .idle) :
    (s.hwWrite (.ctrl x.ctrlWord)).SameBut
      { s with hw := { s.hw with ctrl := x.ctrlWord, engine := .busy (s.hw.snapOf x) } } := by
  rw [hwWrite_go_idle hi ((shadow_ctrlWord_goBusy x).trans hg), State.startTransfer, snapshot_ctrlWord]
  exact ⟨s.linkOk, Config.transferTicks s.drawn, s.drawn + 1, rfl⟩

/-- START on an Idle engine when its call succeeds (R140, R144). -/
theorem startCalls_idle (hi : s.hw.engine = .idle) (hl : s.LinkUp .ctrl) :
    ∃ u, startCalls s = .done () u ∧ u.SameBut { s with
      shadow := { s.shadow with goBusy := true },
      hw := { s.hw with
        ctrl := ({ s.shadow with goBusy := true } : Shadow).ctrlWord,
        engine := .busy (s.hw.snapOf s.shadow) },
      trace := s.trace ++ [.write .ctrl ({ s.shadow with goBusy := true } : Shadow).ctrlWord.toNat] } := by
  refine ⟨_, startCalls_carried hl, ?_⟩
  rw [State.tick_of_idle hi]
  obtain ⟨link, ticks, drawn, hgo⟩ := hwWrite_ctrlWord_starts (s := s.setShadow { s.shadow with goBusy := true })
    { s.shadow with goBusy := true } rfl hi
  rw [hgo]
  exact ⟨linkAfter 1 link, ticks, drawn, rfl⟩

/-- An Idle machine after the first nine writes of a TRANSMIT of `w` with goBusy = 0: all of them are stored (R143, R146,
R171). -/
def State.bankSent (w : Slot) (s : State) : State :=
  { s with
    shadow := { s.shadow with bank := s.shadow.bank.set 0 w },
    hw := { s.hw with ctrl := s.shadow.ctrlWord, data := s.shadow.bank.set 0 w },
    trace := s.trace ++ (bankEvents (s.shadow.bank.set 0 w) ++ [.write .ctrl s.shadow.ctrlWord.toNat]),
    linkOk := linkAfter 9 s.linkOk }

theorem memWrites_bankSent (w : Slot) (hg : s.shadow.goBusy = false) (hi : s.hw.engine = .idle)
    (hl : s.LinkCarries (dataRegs ++ [.ctrl])) :
    memWrites (bankWrites (s.shadow.bank.set 0 w) ++ [.ctrl s.shadow.ctrlWord])
      (s.setShadow { s.shadow with bank := s.shadow.bank.set 0 w }) = .done () (s.bankSent w) := by
  have hstores : ∀ x ∈ bankWrites (s.shadow.bank.set 0 w) ++ [.ctrl s.shadow.ctrlWord], RegWrite.Stores x := by
    intro x hx
    rcases List.mem_append.mp hx with hx | hx
    · exact bankWrites_stores _ x hx
    · rw [List.mem_singleton.mp hx]
      exact (shadow_ctrlWord_goBusy s.shadow).trans hg
  rw [memWrites_idle _ (s.setShadow { s.shadow with bank := s.shadow.bank.set 0 w }) hi hstores hl, List.foldl_append,
    State.setShadow_hw, foldl_bankWrites]
  rfl

/-- The calls of a first TRANSMIT on an Idle engine: of its ten writes the last starts the one transfer (R171). -/
theorem transmitCalls_first (w : Slot) (hg : s.shadow.goBusy = false) (hi : s.hw.engine = .idle)
    (hl : s.LinkCarries transmitRegs) : ∃ u, transmitCalls w s = .done () u ∧ u.SameBut { s with
      shadow := s.shadow.transmitted w,
      hw := { s.hw with
        ctrl := ({ s.shadow with goBusy := true } : Shadow).ctrlWord,
        data := s.shadow.bank.set 0 w,
        engine := .busy (s.firstSnap w) },
      trace := s.trace ++ transmitEvents w s.shadow } := by
  have hlast : (s.bankSent w).LinkUp .ctrl :=
    (State.LinkCarries.rest (rs := dataRegs ++ [Reg.ctrl]) (rs' := [Reg.ctrl]) (t := s.bankSent w) hl rfl rfl).head
  obtain ⟨u, hu, hsame⟩ := startCalls_idle (s := s.bankSent w) hi hlast
  refine ⟨u, ?_, ?_⟩
  · rw [transmitCalls_eq, memWrites_bankSent w hg hi (State.LinkCarries.mono (rs' := [.ctrl]) hl), Call.andThen, hu]
  · rw [State.sameBut_iff] at hsame ⊢
    simpa [State.bankSent, State.firstSnap, Hw.snapOf, Shadow.transmitted, transmitEvents, Shadow.ctrlWord] using hsame

/-- A transfer of 16 bits, MSB first, drives slot 0 from bit 15 down (R150). -/
theorem serialise_slot0_msbFirst {snap : Snap} {w : Slot} (hn : snap.dataLen = 16) (hmsb : snap.lsbFirst = false)
    (h0 : snap.data[0] = w) : serialise snap = .bits ((List.range 16).map fun i => w.getLsbD (15 - i)) := by
  have hlen : snap.dataLen.toNat = 16 := by rw [hn]; rfl
  have hrev : (List.range 16).reverse = (List.range 16).map (15 - ·) := by decide
  have hbit : ∀ i < 16, snap.dataBit i = w.getLsbD i := by
    intro i hi
    rw [Snap.dataBit, Nat.div_eq_of_lt hi, Nat.mod_eq_of_lt hi, ← h0]
    simp [List.getD]
  rw [serialise, hlen, if_neg (by decide), hmsb, if_neg (by decide), hrev, List.map_map]
  exact congrArg Mosi.bits (List.map_congr_left fun i _ => hbit (15 - i) (by omega))

/-- Settles O36: the one transfer of a first TRANSMIT carries the word in slot 0, and its completion drives it. -/
theorem firstTransmitSendsFrameMsbFirst : Obligations.FirstTransmitSendsFrameMsbFirst := by
  intro w s hg hi hl hlen hmsb
  obtain ⟨u, hu, hsame⟩ := transmitCalls_first w (s := s.tick) (by simpa using hg) hi (State.linkCarries_tick.mpr hl)
  obtain ⟨_, hhw, hwire, _⟩ := State.sameBut_iff.mp hsame
  have hbusy : (returnOk .unit u).hw.engine = .busy (s.tick.firstSnap w) := congrArg Hw.engine hhw
  refine ⟨returnOk .unit u, (s.tick.firstSnap w).completedRecord, ?_, ?_, ?_, rfl, ?_⟩
  · rw [execTransmit_toNat, transmitCalls_idle w hi, hu, Call.toHost]
  · rw [State.complete_of_busy hbusy]
    exact congrArg (· ++ _) hwire
  · rw [State.complete_of_busy hbusy]
    rfl
  · exact serialise_slot0_msbFirst (by simp [State.firstSnap, Hw.snapOf, hlen])
      (by simp [State.firstSnap, Hw.snapOf, hmsb]) (by simp [State.firstSnap])

end Sys2Proof.Machine
end

section
/-! What the core does is the same under every schedule (R39, R58): two runs of an instruction from states with the same
core, call by call. -/

namespace Sys2Proof.Machine

variable {s s' t t' : State}

/-! ### Two states with the same core, before calls: `CoreKept`, which is about the link too -/

theorem State.CoreKept.symm (h : s.CoreKept s') : s'.CoreKept s :=
  ⟨h.shadow.symm, h.trace.symm, h.results.symm, h.opIndex.symm, h.registerMap.symm, h.inbox.symm, h.linkOk.symm⟩

theorem State.SameCore.coreKept (h : s.SameCore s') (hl : s.linkOk = s'.linkOk) : s.CoreKept s' := by
  obtain ⟨hshadow, htrace, hresults, hindex, hmap, hinbox⟩ := h
  exact ⟨hshadow.symm, htrace.symm, hresults.symm, hindex.symm, hmap.symm, hinbox.symm, hl.symm⟩

theorem State.CoreKept.sameCore (h : s.CoreKept s') : s.SameCore s' :=
  ⟨h.shadow.symm, h.trace.symm, h.results.symm, h.opIndex.symm, h.registerMap.symm, h.inbox.symm⟩

/-- What the peripheral does in either run leaves the cores the same. -/
theorem State.CoreKept.square (h : s.CoreKept s') (ht : s.CoreKept t) (ht' : s'.CoreKept t') : t.CoreKept t' :=
  (ht.symm.trans h).trans ht'

theorem State.CoreKept.tick (h : s.CoreKept s') : s.tick.CoreKept s'.tick := h.square s.tick_coreKept s'.tick_coreKept

theorem State.CoreKept.hwWrite (w : RegWrite) (h : s.CoreKept s') : (s.hwWrite w).CoreKept (s'.hwWrite w) :=
  h.square (s.hwWrite_coreKept w) (s'.hwWrite_coreKept w)

theorem State.CoreKept.setShadow (x : Shadow) (h : s.CoreKept s') : (s.setShadow x).CoreKept (s'.setShadow x) :=
  ⟨rfl, h.trace, h.results, h.opIndex, h.registerMap, h.inbox, h.linkOk⟩

/-- A call that succeeds puts the same events on both traces and spends the same of both links. -/
theorem State.CoreKept.carried (h : s.CoreKept s') (es : List BusEvent) :
    (s.carried.emit es).CoreKept (s'.carried.emit es) :=
  ⟨h.shadow, congrArg (· ++ es) h.trace, h.results, h.opIndex, h.registerMap, h.inbox, congrArg (linkAfter 1) h.linkOk⟩

/-- A call that fails draws the rest of the link anew (log 5), so that the links may differ after it. -/
theorem State.CoreKept.linkFailed (h : s.CoreKept s') (r : Reg) : (s.linkFailed r).SameCore (s'.linkFailed r) :=
  ⟨h.shadow.symm, congrArg (· ++ [BusEvent.failed r]) h.trace.symm, h.results.symm, h.opIndex.symm, h.registerMap.symm,
    h.inbox.symm⟩

theorem State.CoreKept.linkUp_iff (h : s.CoreKept s') (r : Reg) : s'.LinkUp r ↔ s.LinkUp r := by
  rw [State.LinkUp, State.LinkUp, h.registerMap, h.linkOk]

theorem State.SameCore.answer (h : s.SameCore s') (r : OpResult) : (s.answer r).SameCore (s'.answer r) := by
  obtain ⟨hshadow, htrace, hresults, hindex, hmap, hinbox⟩ := h
  exact ⟨hshadow, htrace, congrArg (· ++ [r]) hresults, congrArg (· + 1) hindex, hmap, congrArg List.tail hinbox⟩

theorem State.SameCore.delivered (h : s.SameCore s') : s.delivered.SameCore s'.delivered := by
  obtain ⟨hshadow, htrace, hresults, hindex, hmap, hinbox⟩ := h
  exact ⟨hshadow, htrace, hresults, hindex, hmap, congrArg List.tail hinbox⟩

/-! ### Calls -/

/-- Calls that came to the same in two runs, as far as the core can tell. -/
inductive Call.Alike {α : Type} : Call α → Call α → Prop
  | done (v : α) {s s' : State} (h : s.CoreKept s') : Call.Alike (.done v s) (.done v s')
  | failed (e : OpError) {s s' : State} (h : s.SameCore s') : Call.Alike (.failed e s) (.failed e s')

theorem Call.Alike.andThen {α β : Type} {c c' : Call α} {f : α → State → Call β} (h : Call.Alike c c')
    (hf : ∀ v s s', State.CoreKept s s' → Call.Alike (f v s) (f v s')) : Call.Alike (c.andThen f) (c'.andThen f) := by
  cases h with
  | done v h => exact hf v _ _ h
  | failed e h => exact .failed e h

theorem Call.Alike.toHost {α : Type} {c c' : Call α} (h : Call.Alike c c') (f : α → Value) :
    (c.toHost f).SameCore (c'.toHost f) := by
  cases h with
  | done v h => exact h.sameCore.answer (.ok (f v))
  | failed e h => exact h.answer (.err e)

theorem memWrite_alike (w : RegWrite) (h : s.CoreKept s') : Call.Alike (memWrite w s) (memWrite w s') := by
  by_cases hl : s.LinkUp w.reg
  · rw [memWrite_carried hl, memWrite_carried ((h.linkUp_iff _).mpr hl)]
    exact .done () ((h.tick.hwWrite w).carried _)
  · rw [memWrite_failed hl, memWrite_failed (mt (h.linkUp_iff _).mp hl)]
    have hreached : ∀ (b : Bool) (u : State), u.CoreKept (if b then u.hwWrite w else u) := by
      intro b u
      cases b
      · exact .refl u
      · exact u.hwWrite_coreKept w
    exact .failed _ ((h.tick.square (hreached _ _) (hreached _ _)).linkFailed w.reg)

theorem memWrites_alike : ∀ (ws : List RegWrite) {s s' : State}, s.CoreKept s' →
    Call.Alike (memWrites ws s) (memWrites ws s')
  | [], _, _, h => .done () h
  | w :: ws, _, _, h => (memWrite_alike w h).andThen fun _ _ _ => memWrites_alike ws

theorem pulseReset_alike (h : s.CoreKept s') : Call.Alike (pulseReset s) (pulseReset s') := by
  have hpulse (n n' : Fin 4) : (s.tick.applyPulse n).CoreKept (s'.tick.applyPulse n') :=
    h.tick.square (s.tick.applyPulse_coreKept n) (s'.tick.applyPulse_coreKept n')
  by_cases hl : s.LinkUp .reset
  · rw [pulseReset_carried hl, pulseReset_carried ((h.linkUp_iff _).mpr hl)]
    exact .done () ((hpulse 3 3).carried _)
  · rw [pulseReset_failed hl, pulseReset_failed (mt (h.linkUp_iff _).mp hl)]
    exact .failed _ ((hpulse _ _).linkFailed .reset)

theorem startCalls_alike (h : s.CoreKept s') : Call.Alike (startCalls s) (startCalls s') := by
  rw [startCalls, startCalls, h.shadow]
  exact memWrite_alike _ (h.setShadow _)

theorem transmitCalls_alike (w : Slot) (h : s.CoreKept s') : Call.Alike (transmitCalls w s) (transmitCalls w s') := by
  rw [transmitCalls_eq, transmitCalls_eq, h.shadow]
  exact (memWrites_alike _ (h.setShadow _)).andThen fun _ _ _ => startCalls_alike

theorem sendFrames_alike : ∀ (ws : List Frame) {s s' : State}, s.CoreKept s' →
    Call.Alike (sendFrames ws s) (sendFrames ws s')
  | [], _, _, h => .done () h
  | w :: ws, _, _, h => (transmitCalls_alike w h).andThen fun _ _ _ => sendFrames_alike ws

/-! ### Outcomes -/

/-- Two runs of an operation answer with the same core, or refuse with the same refusal. -/
def SameOutcome (o o' : Host.Outcome State Fault Refusal) : Prop :=
  (∃ t t', o = .next t ∧ o' = .next t' ∧ t.SameCore t') ∨ ∃ r, o = .refused r ∧ o' = .refused r

theorem SameOutcome.next (h : t.SameCore t') : SameOutcome (.next t) (.next t') := .inl ⟨t, t', rfl, rfl, h⟩

theorem SameOutcome.refused (r : Refusal) : SameOutcome (.refused r) (.refused r) := .inr ⟨r, rfl, rfl⟩

/-- A check sees the operand only (R207). -/
theorem State.CoreKept.checked {α : Type} {rest rest' : α → State} (h : s.CoreKept s') (x : Except OpError α)
    (hrest : ∀ v, (rest v).SameCore (rest' v)) : (checked x s rest).SameCore (checked x s' rest') := by
  cases x with
  | ok v => exact hrest v
  | error e => exact h.sameCore.answer (.err e)

/-- A setter sees the shadow only (R107). -/
theorem State.CoreKept.setShadowField (h : s.CoreKept s') (x : Shadow) :
    (setShadowField x s).SameCore (setShadowField x s') := (h.setShadow x).sameCore.answer (.ok .unit)

theorem State.CoreKept.sendFrame (h : s.CoreKept s') (w : Frame) : (sendFrame w s).SameCore (sendFrame w s') :=
  (transmitCalls_alike w h).toHost _

theorem State.CoreKept.execCfgPixel (h : s.CoreKept s') (addr hi lo we pe m : Int) :
    SameOutcome (execCfgPixel addr hi lo we pe m s) (execCfgPixel addr hi lo we pe m s') := by
  unfold Machine.execCfgPixel
  split
  next ws _ => exact .next ((sendFrames_alike ws h).toHost _)
  next ws stop _ =>
    have hcalls := sendFrames_alike ws h
    generalize sendFrames ws s = c, sendFrames ws s' = c' at hcalls
    cases hcalls with
    | done v h => rw [refusedAfter, refusedAfter, h.trace]; exact .refused _
    | failed e h => exact .next (h.answer (.err e))

theorem State.CoreKept.execEncodeFrame (h : s.CoreKept s') (d a p : Int) :
    SameOutcome (execEncodeFrame d a p s) (execEncodeFrame d a p s') := by
  unfold Machine.execEncodeFrame
  split
  next w _ => exact .next (h.sameCore.answer (.ok (.word w)))
  next => exact h.trace ▸ .refused _

/-- Every instruction that does not read BUSY has the same outcome for the core in both runs. -/
theorem exec_sameOutcome (i : Instr) (hb : i ≠ .isBusy) (hw : i ≠ .waitIdle) (h : s.CoreKept s') :
    SameOutcome (exec i s) (exec i s') := by
  have hshadow := h.shadow
  cases i with
  | setDataLen n => exact .next (h.checked _ fun v => hshadow ▸ h.setShadowField _)
  | setRxNeg b => exact .next (hshadow ▸ h.setShadowField _)
  | setTxNeg b => exact .next (hshadow ▸ h.setShadowField _)
  | setLsbFirst b => exact .next (hshadow ▸ h.setShadowField _)
  | setIe b => exact .next (hshadow ▸ h.setShadowField _)
  | setAss b => exact .next (hshadow ▸ h.setShadowField _)
  | setDiv v => exact .next (h.checked _ fun d => (memWrite_alike _ (hshadow ▸ h.setShadow _)).toHost _)
  | setSs m => exact .next (h.checked _ fun x => (memWrite_alike _ (hshadow ▸ h.setShadow _)).toHost _)
  | wrBank vs => exact .next (h.checked _ fun b => (memWrites_alike _ (hshadow ▸ h.setShadow _)).toHost _)
  | reset => exact .next ((pulseReset_alike h).toHost _)
  | isBusy => exact absurd rfl hb
  | start => exact .next ((startCalls_alike h).toHost _)
  | waitIdle => exact absurd rfl hw
  | encodeFrame d a p => exact h.execEncodeFrame d a p
  | transmit word => exact .next (h.checked _ h.sendFrame)
  | cfgPixel addr hi lo we pe m => exact h.execCfgPixel addr hi lo we pe m
  | frameW a p => exact .next (h.sendFrame _)
  | frameR a p => exact .next (h.sendFrame _)
  | pixAddr p => exact .next (h.sendFrame _)
  | pixDacLo p => exact .next (h.sendFrame _)
  | pixCtrl w e m hi => exact .next (h.sendFrame _)
  | ctrlCfg => exact .next (h.hwWrite _).sameCore.delivered
  | ctrlGo => exact .next (h.hwWrite _).sameCore.delivered

/-- Settles O54: two states with the same core and link stay so call by call, up to a failing call, which ends the
operation. -/
theorem coreIsBlindToThePeripheral : Obligations.CoreIsBlindToThePeripheral :=
  fun i _ _ hb hw hcore hl => exec_sameOutcome i hb hw (hcore.coreKept hl)

end Sys2Proof.Machine
end

section
/-! The fields of the packed words (R69, R70, R73, R76): a word is the packing of its own fields, and what it is as an
integer. -/

namespace Sys2Proof.Machine

open Sys2Proof

/-! ### Every word is the packing of its fields -/

/-- A frame is the packing of its direction bit, its address and its payload (R73). -/
theorem frame_fields (w : Frame) : frame (w.getLsbD 15) (w.extractLsb' 8 7) (w.extractLsb' 0 8) = w := by
  apply BitVec.eq_of_getLsbD_eq
  intro i hi
  rw [frame_getLsbD]
  split
  next h => rw [h]
  next h =>
    split
    next h8 => simp only [BitVec.getLsbD_extractLsb', h8, decide_true, Bool.true_and, Nat.zero_add]
    next h8 =>
      rw [BitVec.getLsbD_extractLsb', decide_eq_true (by omega : i - 8 < 7), Bool.true_and,
        Nat.add_sub_cancel' (by omega : 8 ≤ i)]

/-- A control word is the packing of its seven fields (R69, R70). -/
theorem pack_fields (v : CtrlWord) : pack (v.getLsbD 13) (v.getLsbD 12) (v.getLsbD 11) (v.getLsbD 10) (v.getLsbD 9)
    (v.getLsbD 8) (v.extractLsb' 0 8) = v := by
  apply BitVec.eq_of_getLsbD_eq
  intro i hi
  rw [pack_getLsbD]
  split_ifs with h13 h12 h11 h10 h9 h8
  · rw [h13]
  · rw [h12]
  · rw [h11]
  · rw [h10]
  · rw [h9]
  · rw [h8]
  · rw [BitVec.getLsbD_extractLsb', decide_eq_true (by omega : i < 8), Bool.true_and, Nat.zero_add]

/-- A pixel-control payload is the packing of its four fields (R76). -/
theorem pixelByte_fields (p : Byte) :
    pixelByte (p.getLsbD 7) (p.getLsbD 6) (p.extractLsb' 4 2) (p.extractLsb' 0 4) = p := by
  apply BitVec.eq_of_getLsbD_eq
  intro i hi
  rw [pixelByte_getLsbD]
  split_ifs with h7 h6 h4
  · rw [h7]
  · rw [h6]
  · rw [BitVec.getLsbD_extractLsb', decide_eq_true h4, Bool.true_and, Nat.zero_add]
  · rw [BitVec.getLsbD_extractLsb', decide_eq_true (by omega : i - 4 < 2), Bool.true_and,
      Nat.add_sub_cancel' (by omega : 4 ≤ i)]

/-! ### The fields of a packed word -/

theorem pixelByte_mask (w e : Bool) (m : BitVec 2) (h : BitVec 4) : (pixelByte w e m h).extractLsb' 4 2 = m := by
  apply BitVec.eq_of_getLsbD_eq
  intro i hi
  rw [BitVec.getLsbD_extractLsb', pixelByte_getLsbD, decide_eq_true hi, Bool.true_and, if_neg (by omega),
    if_neg (by omega), if_neg (by omega), Nat.add_sub_cancel_left]

theorem pixelByte_dacHigh4 (w e : Bool) (m : BitVec 2) (h : BitVec 4) : (pixelByte w e m h).extractLsb' 0 4 = h := by
  apply BitVec.eq_of_getLsbD_eq
  intro i hi
  rw [BitVec.getLsbD_extractLsb', pixelByte_getLsbD, decide_eq_true hi, Bool.true_and, Nat.zero_add, if_neg (by omega),
    if_neg (by omega), if_pos hi]

/-- The low bits of a frame are those of its payload. -/
theorem frame_getLsbD_low (d : Bool) (a : BitVec 7) (p : Byte) {i : Nat} (hi : i < 8) :
    (frame d a p).getLsbD i = p.getLsbD i := by
  rw [frame_getLsbD, if_neg (by omega), if_pos hi]

/-- A field inside the payload is the payload's. -/
theorem frame_extract_low (d : Bool) (a : BitVec 7) (p : Byte) {k n : Nat} (hk : k + n ≤ 8) :
    (frame d a p).extractLsb' k n = p.extractLsb' k n := by
  apply BitVec.eq_of_getLsbD_eq
  intro i hi
  rw [BitVec.getLsbD_extractLsb', BitVec.getLsbD_extractLsb', frame_getLsbD_low d a p (by omega)]

/-! ### Packed words as integers -/

theorem bitAt_toNat {n k : Nat} (hk : k < n) (b : Bool) : (bitAt n k b).toNat = b.toNat <<< k := by
  cases b with
  | false => simp [bitAt]
  | true =>
    have hpow : 2 ^ k < 2 ^ n := Nat.pow_lt_pow_right (by decide) hk
    rw [bitAt, BitVec.toNat_shiftLeft, BitVec.toNat_setWidth]
    show (1 % 2 ^ n) <<< k % 2 ^ n = 1 <<< k
    rw [Nat.mod_eq_of_lt (Nat.one_lt_two_pow (by omega)), Nat.shiftLeft_eq, Nat.one_mul, Nat.mod_eq_of_lt hpow]

/-- OR is sum where the fields do not overlap (R70, R100). -/
theorem shiftLeft_or_eq_add {x k : Nat} (hx : x < 2 ^ k) (a : Nat) : a <<< k ||| x = a * 2 ^ k + x := by
  rw [← Nat.shiftLeft_add_eq_or_of_lt hx, Nat.shiftLeft_eq]

/-- The control word as an integer, by OR (R70). -/
theorem pack_toNat_or (ass ie lsb txNeg rxNeg goBusy : Bool) (dataLen : Byte) :
    (pack ass ie lsb txNeg rxNeg goBusy dataLen).toNat =
      (ass.toNat <<< 13) ||| (ie.toNat <<< 12) ||| (lsb.toNat <<< 11) ||| (txNeg.toNat <<< 10) |||
        (rxNeg.toNat <<< 9) ||| (goBusy.toNat <<< 8) ||| dataLen.toNat := by
  have hlen : (dataLen.setWidth 14).toNat = dataLen.toNat := BitVec.toNat_setWidth_of_le (by decide)
  simp only [pack, BitVec.toNat_or, hlen]
  rw [bitAt_toNat (by decide), bitAt_toNat (by decide), bitAt_toNat (by decide), bitAt_toNat (by decide),
    bitAt_toNat (by decide), bitAt_toNat (by decide)]

/-- The control word as an integer, by sum (R70). -/
theorem pack_toNat_add (ass ie lsb txNeg rxNeg goBusy : Bool) (dataLen : Byte) :
    (pack ass ie lsb txNeg rxNeg goBusy dataLen).toNat =
      ass.toNat * 8192 + ie.toNat * 4096 + lsb.toNat * 2048 + txNeg.toNat * 1024 + rxNeg.toNat * 512 +
        goBusy.toNat * 256 + dataLen.toNat := by
  have hlen := dataLen.isLt
  have h8 := goBusy.toNat_lt
  have h9 := rxNeg.toNat_lt
  have h10 := txNeg.toNat_lt
  have h11 := lsb.toNat_lt
  have h12 := ie.toNat_lt
  simp only [pack_toNat_or, Nat.or_assoc]
  rw [shiftLeft_or_eq_add (k := 8) (by omega), shiftLeft_or_eq_add (k := 9) (by omega),
    shiftLeft_or_eq_add (k := 10) (by omega), shiftLeft_or_eq_add (k := 11) (by omega),
    shiftLeft_or_eq_add (k := 12) (by omega), shiftLeft_or_eq_add (k := 13) (by omega)]
  omega

/-- Settles O2: the fields stand in disjoint bits, so the packed word is their OR and their sum. -/
theorem packIsTheFormula : Obligations.PackIsTheFormula :=
  ⟨fun ass ie lsb txNeg rxNeg goBusy dataLen => ⟨pack_toNat_or ass ie lsb txNeg rxNeg goBusy dataLen,
      pack_toNat_add ass ie lsb txNeg rxNeg goBusy dataLen⟩,
    fun _ => rfl, rfl, rfl, rfl⟩

/-- The pixel-control payload as an integer (R76). -/
theorem pixelByte_toNat (w e : Bool) (m : BitVec 2) (h : BitVec 4) :
    (pixelByte w e m h).toNat = w.toNat * 128 + e.toNat * 64 + m.toNat * 16 + h.toNat := by
  have hh := h.isLt
  have hm := m.isLt
  have he := e.toNat_lt
  have hhigh : (h.setWidth 8).toNat = h.toNat := BitVec.toNat_setWidth_of_le (by decide)
  have hmask : (m.setWidth 8 <<< 4).toNat = m.toNat <<< 4 := by
    rw [BitVec.toNat_shiftLeft, BitVec.toNat_setWidth_of_le (by decide), Nat.shiftLeft_eq]
    omega
  simp only [pixelByte, BitVec.toNat_or, hhigh, hmask, Nat.or_assoc]
  rw [bitAt_toNat (by decide), bitAt_toNat (by decide), shiftLeft_or_eq_add (k := 4) (by omega),
    shiftLeft_or_eq_add (k := 6) (by omega), shiftLeft_or_eq_add (k := 7) (by omega)]
  omega

end Sys2Proof.Machine
end

section
/-! The decoder and the encoder are inverse (R66, R67, R71, R73, R76). -/

namespace Sys2Proof.Machine

open Sys2Proof

variable {i : Instr}

/-! ### What a frame and a CTRL value decode to -/

/-- A read frame (R73, R74). -/
theorem decodeFrame_read (a : BitVec 7) (p : Byte) : decodeFrame (frame true a p) = .frameR a p := by
  simp only [decodeFrame, frame_addr, frame_payload, frame_getLsbD, if_true]

/-- A write frame: the row of its address (R57, R73). -/
theorem decodeFrame_write (a : BitVec 7) (p : Byte) : decodeFrame (frame false a p) =
    if a = 0x20 then .pixAddr p else if a = 0x21 then .pixDacLo p
    else if a = 0x22 then .pixCtrl (p.getLsbD 7) (p.getLsbD 6) (p.extractLsb' 4 2) (p.extractLsb' 0 4)
    else .frameW a p := by
  have hdirection : (frame false a p).getLsbD 15 = false := by rw [frame_getLsbD, if_pos rfl]
  simp only [decodeFrame, hdirection, frame_addr, frame_payload, frame_getLsbD_low false a p (by decide : 7 < 8),
    frame_getLsbD_low false a p (by decide : 6 < 8), frame_extract_low false a p (by decide : 4 + 2 ≤ 8),
    frame_extract_low false a p (by decide : 0 + 4 ≤ 8), Bool.false_eq_true, if_false]

theorem namedPixelAddress_iff (a : BitVec 7) : namedPixelAddress a = true ↔ a = 0x20 ∨ a = 0x21 ∨ a = 0x22 := by
  simp [namedPixelAddress, or_assoc]

theorem Instr.wellFormed_frameW_iff (a : BitVec 7) (p : Byte) :
    (Instr.frameW a p).WellFormed ↔ a ≠ 0x20 ∧ a ≠ 0x21 ∧ a ≠ 0x22 := by
  rw [Instr.WellFormed, Instr.wellFormed, Bool.not_eq_true', ← Bool.not_eq_true, namedPixelAddress_iff]
  simp only [not_or, ne_eq]

/-- A CTRL value is the row of its bit 8, with its other fields (R71). -/
theorem decodeCtrl_pack (ass ie lsb txNeg rxNeg goBusy : Bool) (dataLen : Byte) :
    decodeCtrl (pack ass ie lsb txNeg rxNeg goBusy dataLen) =
      if goBusy then .ctrlGo ass ie lsb txNeg rxNeg dataLen else .ctrlCfg ass ie lsb txNeg rxNeg dataLen := by
  simp [-BitVec.getLsbD_eq_getElem, decodeCtrl, pack_getLsbD, pack_dataLen]

/-! ### Decoding after encoding -/

/-- Settles O3: a command by its code and the shape of its operands, a frame by its direction and address, a CTRL value
by its bit 8; the fields are read back from the packed word. -/
theorem decodeOfEncodeIsTheInstruction : Obligations.DecodeOfEncodeIsTheInstruction := by
  intro i hi
  cases i with
  | frameW a p =>
    obtain ⟨h20, h21, h22⟩ := (Instr.wellFormed_frameW_iff a p).mp hi
    rw [encode, decode, decodeFrame_write, if_neg h20, if_neg h21, if_neg h22]
  | frameR a p => rw [encode, decode, decodeFrame_read]
  | pixAddr p => rw [encode, decode, decodeFrame_write, if_pos rfl]
  | pixDacLo p => rw [encode, decode, decodeFrame_write, if_neg (by decide), if_pos rfl]
  | pixCtrl w e m h =>
    rw [encode, decode, decodeFrame_write, if_neg (by decide), if_neg (by decide), if_pos rfl, pixelByte_mask,
      pixelByte_dacHigh4, pixelByte_getLsbD, pixelByte_getLsbD]
    rfl
  | ctrlCfg ass ie lsb txNeg rxNeg dataLen => rw [encode, decode, decodeCtrl_pack]; rfl
  | ctrlGo ass ie lsb txNeg rxNeg dataLen => rw [encode, decode, decodeCtrl_pack]; rfl
  | _ => rfl

/-! ### Encoding after decoding -/

/-- Every frame is the packet of a well-formed instruction (R73). -/
theorem exists_encode_eq_frame (w : Frame) : ∃ i : Instr, i.WellFormed ∧ encode i = .frame w := by
  rw [← frame_fields w]
  generalize w.getLsbD 15 = d, w.extractLsb' 8 7 = a, w.extractLsb' 0 8 = p
  cases d with
  | true => exact ⟨.frameR a p, rfl, rfl⟩
  | false =>
    by_cases h20 : a = 0x20
    · exact ⟨.pixAddr p, rfl, by rw [h20, encode]⟩
    by_cases h21 : a = 0x21
    · exact ⟨.pixDacLo p, rfl, by rw [h21, encode]⟩
    by_cases h22 : a = 0x22
    · exact ⟨.pixCtrl (p.getLsbD 7) (p.getLsbD 6) (p.extractLsb' 4 2) (p.extractLsb' 0 4), rfl,
        by rw [h22, encode, pixelByte_fields]⟩
    exact ⟨.frameW a p, (Instr.wellFormed_frameW_iff a p).mpr ⟨h20, h21, h22⟩, rfl⟩

/-- Every CTRL value is the packet of a well-formed instruction (R71). -/
theorem exists_encode_eq_ctrl (v : CtrlWord) : ∃ i : Instr, i.WellFormed ∧ encode i = .ctrl v := by
  rw [← pack_fields v]
  cases v.getLsbD 8 with
  | true => exact ⟨.ctrlGo _ _ _ _ _ _, rfl, rfl⟩
  | false => exact ⟨.ctrlCfg _ _ _ _ _ _, rfl, rfl⟩

/-- A packet of a well-formed instruction decodes to no other instruction. -/
theorem encode_of_decode_of_exists {p : Packet} (hp : ∃ j : Instr, j.WellFormed ∧ encode j = p)
    (h : decode p = .ok i) : encode i = p ∧ i.WellFormed := by
  obtain ⟨j, hj, rfl⟩ := hp
  obtain rfl : j = i := Except.ok.inj ((decodeOfEncodeIsTheInstruction j hj).symm.trans h)
  exact ⟨rfl, hj⟩

/-- An instruction whose packet is a command is well-formed (R67). -/
theorem wellFormed_of_encode_eq_command {op : BitVec 8} {xs : List Operand} (h : encode i = .command op xs) :
    i.WellFormed := by
  cases i with
  | frameW a p => cases h
  | _ => rfl

/-- A command is the packet of the instruction it decodes to: its code is one of R66, with the operands of that code. Any
other command is IllegalCommand (R67). -/
theorem decodeCommand_cases (op : BitVec 8) (xs : List Operand) :
    (∃ i, decodeCommand op xs = .ok i ∧ encode i = .command op xs) ∨
    decodeCommand op xs = .error (.illegalCommand op xs) := by
  unfold decodeCommand
  split
  case h_17 => exact .inr rfl
  all_goals
    next hop => exact .inl ⟨_, rfl, congrArg (Packet.command · _) (BitVec.eq_of_toNat_eq hop.symm)⟩

/-- A command that decodes is the packet of its instruction. -/
theorem encode_of_decodeCommand {op : BitVec 8} {xs : List Operand} (h : decodeCommand op xs = .ok i) :
    encode i = .command op xs := by
  rcases decodeCommand_cases op xs with ⟨j, hj, henc⟩ | herror
  · rwa [Except.ok.inj (hj.symm.trans h)] at henc
  · cases herror.symm.trans h

/-- Settles O4: a command by its code and operands; every frame and every CTRL value is the packet of an instruction, and
decoding gives that one back. -/
theorem decodedPacketsEncodeBack : Obligations.DecodedPacketsEncodeBack := by
  intro p i h
  cases p with
  | command op xs =>
    have henc := encode_of_decodeCommand h
    exact ⟨henc, wellFormed_of_encode_eq_command henc⟩
  | frame w => exact encode_of_decode_of_exists (exists_encode_eq_frame w) h
  | ctrl v => exact encode_of_decode_of_exists (exists_encode_eq_ctrl v) h

/-! ### Illegal commands -/

/-- The codes of R66 are 0x01 to 0x10. -/
theorem code_of_encode_eq_command {op : BitVec 8} {xs : List Operand} (h : encode i = .command op xs) :
    0 < op.toNat ∧ op.toNat ≤ 0x10 := by
  cases i <;> cases h <;> decide

/-- Settles O5: a command that decodes is the packet of its instruction, whose code is 0x01 to 0x10; any other command is
the decode error that the step refuses. -/
theorem illegalCommandsAreRefused : Obligations.IllegalCommandsAreRefused := by
  refine ⟨fun op xs rest s hillegal hinbox => ?_, fun op xs i h => ?_, fun _ => rfl⟩
  · rcases decodeCommand_cases op xs with ⟨i, _, henc⟩ | herror
    · obtain ⟨hpos, hle⟩ := code_of_encode_eq_command henc
      rcases hillegal with rfl | hhigh | hnone
      · exact absurd hpos (by decide)
      · omega
      · exact absurd henc (hnone i)
    · exact step_of_decode_error hinbox herror
  · rw [← h]
    exact decodeOfEncodeIsTheInstruction i (wellFormed_of_encode_eq_command h)

/-! ### Words of the tables -/

/-- Settles O6: each word, written out from the tables, is evaluated by the decoder. -/
theorem writtenWordsDecode : Obligations.WrittenWordsDecode :=
  ⟨rfl, rfl, rfl, rfl, rfl, rfl, rfl, rfl, rfl, rfl⟩

end Sys2Proof.Machine
end

section
/-! A CTRL value delivered to the peripheral (R71, R143 to R145; log 3). -/

namespace Sys2Proof.Machine

open Sys2Proof

variable {s t : State}

/-- Bit 8 of a packed control word is its go bit (R71). -/
theorem pack_getLsbD_go (ass ie lsb txNeg rxNeg goBusy : Bool) (dataLen : Byte) :
    (pack ass ie lsb txNeg rxNeg goBusy dataLen).getLsbD 8 = goBusy := by
  rw [pack_getLsbD, if_neg (by decide), if_neg (by decide), if_neg (by decide), if_neg (by decide), if_neg (by decide),
    if_pos rfl]

theorem State.SameBut.delivered (h : t.SameBut s) : t.delivered.SameBut s.delivered := by
  obtain ⟨link, ticks, drawn, rfl⟩ := h
  exact ⟨link, ticks, drawn, rfl⟩

/-- Any CTRL write while Busy is an overlap: CTRL holds its old or its new value (R145). -/
theorem hwWrite_ctrl_busy {snap : Snap} (hb : s.hw.engine = .busy snap) (v : CtrlWord) :
    ∃ c, (s.hwWrite (.ctrl v)).SameBut
        { s with hw := { s.hw with ctrl := c, engine := .busy snap.spoiled, overlap := true } } ∧
      (c = s.hw.ctrl ∨ c = v) := by
  rw [hwWrite_busy_overlap hb (.ctrl v) (.inl ⟨v, rfl⟩)]
  obtain ⟨c, hc, hhw⟩ := overlapWrite_ctrl v snap s
  exact ⟨c, State.sameBut_iff.mpr ⟨rfl, hhw, rfl, rfl, rfl, rfl, rfl, rfl⟩, hc⟩

/-- Settles O23: while Idle bit 8 chooses between storing the value and starting the transfer of its fields; while Busy
either write is an overlap. -/
theorem ctrlWritesReachThePeripheral : Obligations.CtrlWritesReachThePeripheral := by
  intro ass ie lsb txNeg rxNeg dataLen s
  refine ⟨fun hi => ?_, fun hi => ?_, fun snap hb => ?_, fun snap hb => ?_⟩
  · rw [exec, execCtrlCfg, hwWrite_cfg_idle hi (pack_getLsbD_go ..)]
    rfl
  · have hstart := hwWrite_ctrlWord_starts { s.shadow with
      ass := ass, ie := ie, lsbFirst := lsb, txNeg := txNeg, rxNeg := rxNeg, goBusy := true, dataLen := dataLen } rfl hi
    exact ⟨_, rfl, hstart.delivered⟩
  · obtain ⟨c, hsame, hc⟩ := hwWrite_ctrl_busy hb (pack ass ie lsb txNeg rxNeg false dataLen)
    exact ⟨_, c, rfl, hsame.delivered, hc⟩
  · obtain ⟨c, hsame, hc⟩ := hwWrite_ctrl_busy hb (pack ass ie lsb txNeg rxNeg true dataLen)
    exact ⟨_, c, rfl, hsame.delivered, hc⟩

end Sys2Proof.Machine
end

section
/-! The frame rows are sent as TRANSMIT sends their word (R73, R80, R173; log 2). -/

namespace Sys2Proof.Machine

open Sys2Proof

variable {s : State} {i : Instr} {w : Frame}

/-- A frame as the word of its integer (R73). -/
theorem frame_eq_ofNat (d : Bool) (a : BitVec 7) (p : Byte) :
    frame d a p = BitVec.ofNat 16 (d.toNat * 32768 + a.toNat * 256 + p.toNat) := by
  rw [← frame_toNat, BitVec.ofNat_toNat, BitVec.setWidth_eq]

/-- The table's frame of a row is the encoder's (R57, R73, R76). -/
theorem encode_of_tableFrame (h : tableFrame i = some w) : encode i = .frame w := by
  cases i with
  | frameW a p | frameR a p | pixAddr p | pixDacLo p =>
    cases h
    rw [encode, frame_eq_ofNat]
    simp
  | pixCtrl w' e m hi =>
    cases h
    rw [encode, frame_eq_ofNat, pixelByte_toNat]
    simp [← Nat.add_assoc]
  | _ => cases h

/-- An instruction whose packet is a frame sends that frame, whatever the row (R173). -/
theorem exec_of_encode_eq_frame (h : encode i = .frame w) (s : State) : exec i s = .next (sendFrame w s) := by
  cases i with
  | frameW a p | frameR a p | pixAddr p | pixDacLo p | pixCtrl w' e m hi => cases h; rfl
  | _ => cases h

/-- What a frame sent first on an Idle engine does: the ten writes, the one transfer, and `Ok(unit)` (R171). -/
theorem sendFrame_first (w : Frame) (hg : s.shadow.goBusy = false) (hi : s.tick.hw.engine = .idle)
    (hl : s.LinkCarries transmitRegs) : (sendFrame w s).SameBut (State.ended (.ok .unit) { s.tick with
      shadow := s.shadow.transmitted w,
      hw := { s.tick.hw with
        ctrl := ({ s.shadow with goBusy := true } : Shadow).ctrlWord,
        data := s.shadow.bank.set 0 w,
        engine := .busy (s.tick.firstSnap w) },
      trace := s.trace ++ transmitEvents w s.shadow }) := by
  obtain ⟨u, hu, link, ticks, drawn, rfl⟩ :=
    transmitCalls_first w (s := s.tick) (by simpa using hg) hi (State.linkCarries_tick.mpr hl)
  rw [sendFrame, transmitCalls_idle w hi, hu]
  simp only [State.tick_shadow, State.tick_trace]
  exact ⟨link, ticks, drawn, rfl⟩

/-- Settles O37: every frame row sends the frame of the table, which is what TRANSMIT of that word does. -/
theorem frameRowsTransmitTheirFrame : Obligations.FrameRowsTransmitTheirFrame := by
  intro i w s h
  have hexec := exec_of_encode_eq_frame (encode_of_tableFrame h) s
  refine ⟨hexec.trans (execTransmit_toNat w s).symm, fun hg hi hl => ?_⟩
  obtain ⟨hshadow, hhw, _, htrace, hresults, _⟩ := State.sameBut_iff.mp (sendFrame_first w hg hi hl)
  refine ⟨_, s.tick.firstSnap w, hexec, htrace, hshadow, congrArg Hw.engine hhw, ?_, ?_⟩
  · simp only [State.firstSnap, State.tick_shadow]
  · exact hresults.trans (congrArg (· ++ _) s.tick_results)

end Sys2Proof.Machine
end

section
/-! The control-field setters: which bits of the control word each one writes (R101 to R106, R108). -/

namespace Sys2Proof.Machine

open Sys2Proof

/-- The bits of the shadow's control word, field by field (R70, R100). -/
theorem Shadow.ctrlWord_getLsbD (x : Shadow) (k : Nat) : x.ctrlWord.getLsbD k =
    if k = 13 then x.ass else if k = 12 then x.ie else if k = 11 then x.lsbFirst else if k = 10 then x.txNeg
    else if k = 9 then x.rxNeg else if k = 8 then x.goBusy else x.dataLen.getLsbD k :=
  pack_getLsbD ..

/-- A word that has `b` at bit `j` and agrees with `v` at every other bit is `v` with bit `j` written. -/
theorem getLsbD_bit_written {n j : Nat} {b : Bool} {v w : BitVec n} (hbit : w.getLsbD j = b)
    (hrest : ∀ k, k ≠ j → w.getLsbD k = v.getLsbD k) (k : Nat) :
    w.getLsbD k = if k = j then b else v.getLsbD k := by
  split
  next h => rw [h, hbit]
  next h => exact hrest k h

/-- Settles O7: a setter's field stands at its own bit of the word, and at every other bit the word reads a field that
the setter left alone. -/
theorem booleanSettersChangeTheirBit : Obligations.BooleanSettersChangeTheirBit := by
  intro b s
  refine ⟨⟨rfl, fun k _ => getLsbD_bit_written (Shadow.ctrlWord_getLsbD _ 9) (fun k hk => ?_) k⟩,
    ⟨rfl, fun k _ => getLsbD_bit_written (Shadow.ctrlWord_getLsbD _ 10) (fun k hk => ?_) k⟩,
    ⟨rfl, fun k _ => getLsbD_bit_written (Shadow.ctrlWord_getLsbD _ 11) (fun k hk => ?_) k⟩,
    ⟨rfl, fun k _ => getLsbD_bit_written (Shadow.ctrlWord_getLsbD _ 12) (fun k hk => ?_) k⟩,
    ⟨rfl, fun k _ => getLsbD_bit_written (Shadow.ctrlWord_getLsbD _ 13) (fun k hk => ?_) k⟩⟩
  all_goals simp only [Shadow.ctrlWord_getLsbD, if_neg hk]

/-- The data length stands below bit 8, so no other bit depends on it (R108). -/
theorem Shadow.ctrlWord_getLsbD_setDataLen (x : Shadow) (v : Byte) {k : Nat} (hk : 8 ≤ k) :
    ({ x with dataLen := v } : Shadow).ctrlWord.getLsbD k = x.ctrlWord.getLsbD k := by
  simp only [Shadow.ctrlWord_getLsbD, BitVec.getLsbD_of_ge _ k hk]

/-- An integer in range is the value of the byte made of it. -/
theorem toNat_ofInt_of_inRange {n : Int} (h : InRange 0 255 n) : ((BitVec.ofInt 8 n).toNat : Int) = n := by
  obtain ⟨hlo, hhi⟩ := h
  rw [BitVec.toNat_ofInt]
  omega

/-- SETDATALEN of a value in range (R101). -/
theorem exec_setDataLen_ok {n : Int} (h : InRange 0 255 n) (s : State) : exec (.setDataLen n) s =
    .next (State.ended (.ok .unit) { s with shadow := { s.shadow with dataLen := BitVec.ofInt 8 n } }) := by
  rw [exec, execSetDataLen, operandDataLen_ok h]
  rfl

/-- SETDATALEN of a value out of range (R101). -/
theorem exec_setDataLen_bad {n : Int} (h : ¬ InRange 0 255 n) (s : State) :
    exec (.setDataLen n) s = .next (s.ended (.err (.range .dataLength n))) := by
  rw [exec, execSetDataLen, operandDataLen_bad h]
  rfl

/-- Settles O8: the check decides between the write of the low byte, which is the data length's field, and the error
raised before any effect. -/
theorem setDataLenSetsLowBits : Obligations.SetDataLenSetsLowBits := by
  intro n s
  refine ⟨fun h => ⟨BitVec.ofInt 8 n, toNat_ofInt_of_inRange h, exec_setDataLen_ok h s, pack_dataLen ..,
    fun _ hk => s.shadow.ctrlWord_getLsbD_setDataLen _ hk⟩, fun h => exec_setDataLen_bad (fun hin => ?_) s⟩
  obtain ⟨hlo, hhi⟩ := hin
  omega

end Sys2Proof.Machine
end

section
/-! How a call and an answer act on a state that is known but for the bookkeeping of free values (R39, R40, R50), and
an operation that is a shadow write and then one register write. -/

namespace Sys2Proof.Machine

open Sys2Proof

variable {s t : State} {w : RegWrite} {x : Shadow} {h : Hw}

theorem State.SameBut.refl (s : State) : s.SameBut s := ⟨s.linkOk, s.ticksLeft, s.drawn, rfl⟩

theorem State.SameBut.answer (e : t.SameBut s) (r : OpResult) : (t.answer r).SameBut (s.ended r) := by
  obtain ⟨link, ticks, drawn, rfl⟩ := e
  exact ⟨link, ticks, drawn, rfl⟩

theorem State.SameBut.carried (e : t.SameBut s) (es : List BusEvent) :
    (t.carried.emit es).SameBut { s with trace := s.trace ++ es } := by
  obtain ⟨link, ticks, drawn, rfl⟩ := e
  exact ⟨linkAfter 1 link, ticks, drawn, rfl⟩

theorem State.SameBut.linkFailed (e : t.SameBut s) (r : Reg) :
    (t.linkFailed r).SameBut { s with trace := s.trace ++ [.failed r] } := by
  obtain ⟨link, ticks, drawn, rfl⟩ := e
  exact ⟨_, ticks, drawn + 1, rfl⟩

/-- A storing write while Idle changes its register and nothing else (R143, R146, R147). -/
theorem hwWrite_idle_sameBut (hi : s.hw.engine = .idle) (hw : RegWrite.Stores w) :
    (s.hwWrite w).SameBut { s with hw := s.hw.store w } := by
  rw [hwWrite_stores hi hw]
  exact .refl (s.storeWrite w)

/-- An overlapped write is stored or not; either way the transfer in flight is spoiled and the flag is set (R145). -/
theorem overlapWrite_sameBut (w : RegWrite) (snap : Snap) (s : State) : ∃ h, (h = s.hw ∨ h = s.hw.store w) ∧
    (s.overlapWrite w snap).SameBut { s with hw := { h with engine := .busy snap.spoiled, overlap := true } } := by
  refine ⟨if Config.collisionKeepsOld s.drawn then s.hw else s.hw.store w, ?_, s.linkOk, s.ticksLeft, s.drawn + 1, rfl⟩
  split
  · exact .inl rfl
  · exact .inr rfl

/-- A shadow write and one register write that is carried, when the peripheral's reaction leaves `h` (R120, R121). -/
theorem shadowThenWrite_carried (f : Unit → Value) (hl : s.LinkUp w.reg)
    (hr : ((s.tick.setShadow x).hwWrite w).SameBut { s.tick with shadow := x, hw := h }) :
    ((memWrite w (s.setShadow x)).toHost f).SameBut (State.ended (.ok (f ()))
      { s.tick with shadow := x, hw := h, trace := s.trace ++ [w.event] }) := by
  rw [memWrite_shadow_carried x hl, ← s.tick_trace]
  exact (hr.carried [w.event]).answer _

/-- A shadow write and one register write that fails: the peripheral is untouched or has reacted (R50, R120, R121). -/
theorem shadowThenWrite_failed (f : Unit → Value) (hf : s.LinkFails w.reg)
    (hr : ((s.tick.setShadow x).hwWrite w).SameBut { s.tick with shadow := x, hw := h }) :
    ∃ h', ((memWrite w (s.setShadow x)).toHost f).SameBut (State.ended (.err (.transport w.reg))
        { s.tick with shadow := x, hw := h', trace := s.trace ++ [.failed w.reg] }) ∧ (h' = s.tick.hw ∨ h' = h) := by
  rw [memWrite_shadow_failed x hf.not_linkUp, ← s.tick_trace]
  split
  · exact ⟨h, (hr.linkFailed w.reg).answer _, .inr rfl⟩
  · have hkept : (s.tick.setShadow x).SameBut { s.tick with shadow := x, hw := s.tick.hw } :=
      ⟨s.tick.linkOk, s.tick.ticksLeft, s.tick.drawn, rfl⟩
    exact ⟨s.tick.hw, (hkept.linkFailed w.reg).answer _, .inl rfl⟩

end Sys2Proof.Machine
end

section
/-! SETDIV and SETSS: the operand check, then the shadow, then the register (R120, R121, R145). -/

namespace Sys2Proof.Machine

open Sys2Proof

theorem exec_setDiv_ok {v : Int} (h : 0 ≤ v ∧ v < 2 ^ Config.divWidth) (s : State) : exec (.setDiv v) s =
    .next ((memWrite (.divider v.toNat) (s.setShadow { s.shadow with clkDiv := v.toNat })).toHost fun _ => .unit) := by
  obtain ⟨hlo, hhi⟩ := h
  rw [exec, execSetDiv, operandDivider_ok ⟨hlo, Int.le_sub_one_of_lt hhi⟩]
  rfl

theorem exec_setDiv_bad {v : Int} (h : v < 0 ∨ 2 ^ Config.divWidth ≤ v) (s : State) :
    exec (.setDiv v) s = .next (s.ended (.err (.range .divider v))) := by
  have hout : ¬ InRange 0 (2 ^ Config.divWidth - 1) v := by
    rintro ⟨hlo, hhi⟩
    omega
  rw [exec, execSetDiv, operandDivider_bad hout]
  rfl

theorem exec_setSs_ok {m : Int} (h : InRange 0 255 m) (s : State) : exec (.setSs m) s =
    .next ((memWrite (.ss (BitVec.ofInt 8 m))
      (s.setShadow { s.shadow with ssMask := BitVec.ofInt 8 m })).toHost fun _ => .unit) := by
  rw [exec, execSetSs, operandSlaveSelect_ok h]
  rfl

theorem exec_setSs_bad {m : Int} (h : ¬ InRange 0 255 m) (s : State) :
    exec (.setSs m) s = .next (s.ended (.err (.range .slaveSelect m))) := by
  rw [exec, execSetSs, operandSlaveSelect_bad h]
  rfl

/-- Settles O9: on an Idle engine the reaction to the write is to store it, and the error of the check is raised before
any effect. -/
theorem setDivWritesShadowThenDivider : Obligations.SetDivWritesShadowThenDivider := by
  intro v s
  refine ⟨fun hv hi => ?_, fun hv => exec_setDiv_bad hv s⟩
  have hreact := hwWrite_idle_sameBut (s := s.tick.setShadow { s.shadow with clkDiv := v.toNat })
    (w := .divider v.toNat) hi trivial
  refine ⟨fun hl => ?_, fun hf => ?_⟩
  · have hsame := shadowThenWrite_carried (fun _ => .unit) hl.head hreact
    obtain ⟨_, hhw, _⟩ := State.sameBut_iff.mp hsame
    exact ⟨_, exec_setDiv_ok hv s, hsame, congrArg Hw.div hhw⟩
  · obtain ⟨h, hsame, hh⟩ := shadowThenWrite_failed (fun _ => .unit) hf hreact
    exact ⟨_, h, exec_setDiv_ok hv s, hsame, hh⟩

/-- The reaction to a write of DIVIDER while Busy (R145). -/
theorem hwWrite_divider_busy {s : State} {snap : Snap} (hb : s.hw.engine = .busy snap) (v : Nat) :
    ∃ d, (d = s.hw.div ∨ d = v) ∧ (s.hwWrite (.divider v)).SameBut
      { s with hw := { s.hw with div := d, engine := .busy snap.spoiled, overlap := true } } := by
  rw [hwWrite_busy_overlap hb _ (.inr (.inl ⟨v, rfl⟩))]
  obtain ⟨h, rfl | rfl, hsame⟩ := overlapWrite_sameBut (.divider v) snap s
  · exact ⟨s.hw.div, .inl rfl, hsame⟩
  · exact ⟨v, .inr rfl, hsame⟩

/-- Settles O10: with a transfer in flight the reaction to the write is an overlap. -/
theorem setDivWhileBusyOverlaps : Obligations.SetDivWhileBusyOverlaps := by
  intro v s snap hv hb
  obtain ⟨d, hd, hreact⟩ := hwWrite_divider_busy (s := s.tick.setShadow { s.shadow with clkDiv := v.toNat }) hb v.toNat
  refine ⟨fun hl => ?_, fun hf => ?_⟩
  · exact ⟨_, d, exec_setDiv_ok hv s, shadowThenWrite_carried (fun _ => .unit) hl.head hreact, hd⟩
  · obtain ⟨h, hsame, hh⟩ := shadowThenWrite_failed (fun _ => .unit) hf hreact
    exact ⟨_, h, exec_setDiv_ok hv s, hsame, hh.imp_right fun e => ⟨d, e, hd⟩⟩

/-- Settles O11: SS is stored in either engine state. -/
theorem setSsWritesShadowThenSs : Obligations.SetSsWritesShadowThenSs := by
  intro m s
  refine ⟨fun hm => ?_, fun hm => exec_setSs_bad (fun hin => ?_) s⟩
  · have hreact := State.SameBut.refl
      ((s.tick.setShadow { s.shadow with ssMask := BitVec.ofInt 8 m }).hwWrite (.ss (BitVec.ofInt 8 m)))
    refine ⟨BitVec.ofInt 8 m, toNat_ofInt_of_inRange hm, fun hl => ?_, fun hf => ?_⟩
    · have hsame := shadowThenWrite_carried (fun _ => .unit) hl.head hreact
      obtain ⟨_, hhw, _⟩ := State.sameBut_iff.mp hsame
      exact ⟨_, exec_setSs_ok hm s, hsame, congrArg (fun h => h.ss.toNat) hhw⟩
    · obtain ⟨h, hsame, hh⟩ := shadowThenWrite_failed (fun _ => .unit) hf hreact
      exact ⟨_, h, exec_setSs_ok hm s, hsame, hh⟩
  · obtain ⟨hlo, hhi⟩ := hin
    omega

end Sys2Proof.Machine
end

section
/-! ISBUSY: one read of BUSY and the strict test (R124, R153). -/

namespace Sys2Proof.Machine

open Sys2Proof

variable {s : State}

/-- ISBUSY when its read is carried (R49, R124). -/
theorem exec_isBusy_carried (hl : s.LinkUp .busy) : ∃ t, exec .isBusy s = .next t ∧
    t.SameBut (State.ended (.ok (.bool (busyTest s.tick.hw.busyValue)))
      { s.tick with trace := s.trace ++ [.read .busy s.tick.hw.busyValue] }) := by
  refine ⟨_, rfl, ?_⟩
  rw [memRead_carried hl, ← s.tick_trace]
  exact ((State.SameBut.refl s.tick).carried _).answer _

/-- ISBUSY when its read fails (R50, R124). -/
theorem exec_isBusy_failed (hf : s.LinkFails .busy) : ∃ t, exec .isBusy s = .next t ∧
    t.SameBut (State.ended (.err (.transport .busy)) { s.tick with trace := s.trace ++ [.failed .busy] }) := by
  refine ⟨_, rfl, ?_⟩
  rw [memRead_failed hf.not_linkUp, ← s.tick_trace]
  exact ((State.SameBut.refl s.tick).linkFailed _).answer _

theorem Hw.busyValue_of_idle {hw : Hw} (h : hw.engine = .idle) : hw.busyValue = 0 := by
  simp [Hw.busyValue, Hw.isBusy, h]

theorem Hw.busyValue_of_busy {hw : Hw} {snap : Snap} (h : hw.engine = .busy snap) : hw.busyValue = 1 := by
  simp [Hw.busyValue, Hw.isBusy, h]

/-- Settles O17: BUSY reads 0 while Idle and 1 while Busy, and only 1 passes the test. -/
theorem isBusyReportsTheEngine : Obligations.IsBusyReportsTheEngine := by
  refine ⟨fun s => ⟨fun hl => ⟨fun hi => ?_, fun snap hb => ?_⟩, exec_isBusy_failed⟩, fun v => beq_iff_eq⟩
  · have h := exec_isBusy_carried hl.head
    rwa [Hw.busyValue_of_idle hi] at h
  · have h := exec_isBusy_carried hl.head
    rwa [Hw.busyValue_of_busy hb] at h

end Sys2Proof.Machine
end

section
/-! The operand checks of WRBANK (R122, R207). -/

namespace Sys2Proof.Machine

open Sys2Proof

/-- An integer fits a slot when it is the value of a slot (R122). -/
theorem fitsSlot_iff (v : Int) : FitsSlot v ↔ ∃ x : Slot, (x.toNat : Int) = v := by
  constructor
  · rintro ⟨hlo, hhi⟩
    exact ⟨BitVec.ofInt 16 v, by rw [BitVec.toNat_ofInt]; omega⟩
  · rintro ⟨x, rfl⟩
    exact fitsSlot_toNat x

/-- A list of the wrong length is rejected for its length (R122). -/
theorem operandBank_badLength {vs : List Int} (h : vs.length ≠ 8) :
    operandBank vs = .error (.range .bankLength vs.length) := dif_neg h

/-- Eight integers are rejected for the first one that does not fit (R122, R207). -/
theorem operandBank_badSlot {vs : List Int} {k : Nat} (h : vs.length = 8) (hk : firstBadSlot 0 vs = some k) :
    operandBank vs = .error (.range .slotWidth k) := by
  rw [operandBank, dif_pos h, hk]

/-- A rejected operand of WRBANK is the result, and nothing else changes (R207). -/
theorem exec_wrBank_bad {vs : List Int} {e : OpError} (h : operandBank vs = .error e) (s : State) :
    exec (.wrBank vs) s = .next (s.ended (.err e)) := by
  rw [exec, execWrBank, h]
  rfl

/-- Settles O14: the length is checked first, then the slots from 0 up. -/
theorem wrBankRangeErrors : Obligations.WrBankRangeErrors := by
  intro vs s
  refine ⟨fun hlen => exec_wrBank_bad (operandBank_badLength hlen) s, fun k hlen hfit hbad => ?_⟩
  have hlt : k.val < vs.length := by omega
  have hfirst : firstBadSlot 0 vs = some (0 + k.val) := by
    refine firstBadSlot_some 0 k vs (fun j hj => ?_) ⟨vs[k.val], List.getElem?_eq_getElem hlt, fun hf => ?_⟩
    · obtain ⟨x, hx⟩ := hfit j hj
      exact ⟨x.toNat, hx, fitsSlot_toNat x⟩
    · obtain ⟨x, hx⟩ := (fitsSlot_iff _).mp hf
      exact hbad x (hx ▸ List.getElem?_eq_getElem hlt)
  rw [Nat.zero_add] at hfirst
  exact exec_wrBank_bad (operandBank_badSlot hlen hfirst) s

end Sys2Proof.Machine
end

section
/-! WRBANK as its eight calls: what they leave of the core on every path, and which data registers a bank that was cut
off has reached (R58, R122, R206). -/

namespace Sys2Proof.Machine

open Sys2Proof

variable {s u : State} {b : Bank} {k : Fin 8}

/-- A WRBANK whose calls are carried: all but the peripheral and its records is known (R58, R122). -/
theorem exec_wrBank_carried (b : Bank) (hl : s.LinkCarries dataRegs) : ∃ u,
    memWrites (bankWrites b) (s.setShadow { s.shadow with bank := b }) = .done () u ∧
    exec (.wrBank (bankInts b)) s = .next (u.answer (.ok .unit)) ∧
    (u.answer (.ok .unit)).SameBut (State.ended (.ok .unit) { s with
      shadow := { s.shadow with bank := b }, hw := u.hw, wire := u.wire, trace := s.trace ++ bankEvents b }) := by
  obtain ⟨u, hu, hshadow, htrace, hresults, hindex, hmap, hinbox, _⟩ :=
    memWrites_carried (bankWrites b) (s.setShadow { s.shadow with bank := b }) hl
  refine ⟨u, hu, by rw [execWrBank_bank, hu]; rfl, State.SameBut.answer ?_ _⟩
  exact State.sameBut_iff.mpr ⟨hshadow, rfl, rfl, htrace, hresults, hindex, hmap, hinbox⟩

/-- A WRBANK whose `k`-th call fails: all but the peripheral and its records is known (R122, R206). -/
theorem exec_wrBank_failed (b : Bank) (hl : s.LinkCarries (dataRegs.take k))
    (hf : .data k ∉ s.registerMap ∨ s.linkOk = some k.val) : ∃ u,
    memWrites (bankWrites b) (s.setShadow { s.shadow with bank := b }) = .failed (.transport (.data k)) u ∧
    exec (.wrBank (bankInts b)) s = .next (u.answer (.err (.transport (.data k)))) ∧
    (u.answer (.err (.transport (.data k)))).SameBut (State.ended (.err (.transport (.data k))) { s with
      shadow := { s.shadow with bank := b }, hw := u.hw, wire := u.wire,
      trace := s.trace ++ (bankEvents b).take k ++ [.failed (.data k)] }) := by
  obtain ⟨u, hu, hshadow, htrace, hresults, hindex, hmap, hinbox⟩ :=
    memWrites_fails (s := s.setShadow { s.shadow with bank := b }) (bank_at b k)
      (by rwa [List.map_take, bankWrites_regs]) hf
  rw [List.map_take, bankWrites_events] at htrace
  refine ⟨u, hu, by rw [execWrBank_bank, hu]; rfl, State.SameBut.answer ?_ _⟩
  exact State.sameBut_iff.mpr ⟨hshadow, rfl, rfl, htrace, hresults, hindex, hmap, hinbox⟩

/-- What the data registers hold after a bank `b` whose `k`-th write failed, where they held `old`: those before `k` the
new value or, as far as they stand before `n`, either; those after `k` the old one; register `k` either. -/
def CutOffBank (b old data : Bank) (k : Fin 8) (n : Nat) : Prop :=
  (∀ j : Fin 8, j < k → data[j] = b[j] ∨ j.val < n ∧ data[j] = old[j]) ∧
  (∀ j : Fin 8, k < j → data[j] = old[j]) ∧ (data[k] = b[k] ∨ data[k] = old[k])

/-- Storing some of the writes up to the `k`-th, and among them all from `n` to before `k`, leaves a bank cut off at
`k`. -/
theorem foldl_cutOffBank {kept : List RegWrite} {n : Nat} (hsub : kept.Sublist ((bankWrites b).take (k + 1)))
    (hmust : ∀ j : Fin 8, n ≤ j.val → j < k → Reg.data j ∈ kept.map RegWrite.reg) (h : Hw) :
    ∃ data, kept.foldl (fun h w => h.store w) h = { h with data := data } ∧ CutOffBank b h.data data k n := by
  obtain ⟨data, hfold, hdata⟩ :=
    foldl_slots kept h ((bankWrites_slotsOf b).sub fun x hx => List.mem_of_mem_take (hsub.subset hx))
  have heither : ∀ j : Fin 8, data[j] = b[j] ∨ data[j] = h.data[j] := fun j => by
    rw [hdata j]
    split
    · exact .inl rfl
    · exact .inr rfl
  refine ⟨data, hfold, fun j hj => ?_, fun j hj => ?_, heither k⟩
  · by_cases hn : n ≤ j.val
    · exact .inl ((hdata j).trans (if_pos (hmust j hn hj)))
    · exact (heither j).imp_right fun e => ⟨Nat.lt_of_not_le hn, e⟩
  · refine (hdata j).trans (if_neg fun hmem => ?_)
    have hlt := (mem_regs_take b (k + 1) (by omega) j).mp ((hsub.map _).subset hmem)
    omega

/-- The writes of a bank from slot `n` on reach, after `m` of them, every slot before `n + m`. -/
theorem data_mem_slice (b : Bank) {n m : Nat} {j : Fin 8} (hn : n ≤ j.val) (hm : j.val < n + m) :
    Reg.data j ∈ (((bankWrites b).drop n).take m).map RegWrite.reg := by
  have hget : (((bankWrites b).drop n).take m)[j.val - n]? = some (.data j b[j]) := by
    rw [List.getElem?_take_of_lt (by omega), List.getElem?_drop, Nat.add_sub_cancel' hn, bank_at]
  exact List.mem_map.mpr ⟨_, List.mem_of_getElem? hget, rfl⟩

/-- Storing writes on an Idle engine of which the `k`-th fails: the ones before it are stored, and it is or is not. -/
theorem memWrites_idle_cutOff {ws : List RegWrite} {k : Nat} {w : RegWrite} (hi : s.hw.engine = .idle)
    (hs : ∀ x ∈ ws, RegWrite.Stores x) (hk : ws[k]? = some w) (hl : s.LinkCarries ((ws.take k).map RegWrite.reg))
    (hf : w.reg ∉ s.registerMap ∨ s.linkOk = some k) : ∃ u m, memWrites ws s = .failed (.transport w.reg) u ∧
      u.wire = s.wire ∧ (m = k ∨ m = k + 1) ∧ u.hw = (ws.take m).foldl (fun h w => h.store w) s.hw := by
  obtain ⟨u, hu, hwire, hhw | hhw⟩ := memWrites_idle_fails hi hs hk hl hf
  · exact ⟨u, k, hu, hwire, .inl rfl, hhw⟩
  · refine ⟨u, k + 1, hu, hwire, .inr rfl, hhw.trans ?_⟩
    rw [List.take_add_one, hk, Option.toList_some, List.foldl_concat]

end Sys2Proof.Machine
end


section
/-! WRBANK on an Idle engine, whole or cut off (R122, R146, R206). -/

namespace Sys2Proof.Machine

open Sys2Proof

variable {s t u : State} {b : Bank} {k : Fin 8} {x : Shadow} {h : Hw} {es : List BusEvent} {r : OpResult}

/-- A scheduling point acts on the peripheral and its records only, so the rest may be read before it or after it. -/
theorem State.SameBut.after_tick
    (e : t.SameBut (State.ended r { s with shadow := x, hw := h, wire := s.tick.wire, trace := es })) :
    t.SameBut (State.ended r { s.tick with shadow := x, hw := h, trace := es }) := by
  rw [State.sameBut_iff] at e ⊢
  simpa [State.ended] using e

/-- A bank whose calls are carried on an Idle engine is stored (R146). -/
theorem memWrites_bank_idle_stored (hi : s.tick.hw.engine = .idle) (hl : s.LinkCarries dataRegs)
    (hu : memWrites (bankWrites b) (s.setShadow x) = .done () u) :
    u.hw = { s.tick.hw with data := b } ∧ u.wire = s.tick.wire := by
  have hstored := memWrites_bank_idle b [] x hi
  rw [List.append_nil, hu, memWrites_idle _ (s.tick.setShadow x) hi (bankWrites_stores b)
    (State.linkCarries_tick.mpr hl), foldl_bankWrites] at hstored
  cases hstored
  exact ⟨rfl, rfl⟩

/-- A bank of which the `k`-th call fails on an Idle engine is stored up to there (R206). -/
theorem memWrites_bank_idle_cutOff (hi : s.tick.hw.engine = .idle) (hl : s.LinkCarries (dataRegs.take k))
    (hf : .data k ∉ s.registerMap ∨ s.linkOk = some k.val)
    (hu : memWrites (bankWrites b) (s.setShadow x) = .failed (.transport (.data k)) u) :
    ∃ data, u.hw = { s.tick.hw with data := data } ∧ u.wire = s.tick.wire ∧
      CutOffBank b s.tick.hw.data data k 0 := by
  obtain ⟨u', m, hu', hwire, hm, hhw⟩ := memWrites_idle_cutOff (s := s.tick.setShadow x) hi (bankWrites_stores b)
    (bank_at b k) (by rw [List.map_take, bankWrites_regs]; exact State.linkCarries_tick.mpr hl)
    (by rwa [State.setShadow_registerMap, State.setShadow_linkOk, State.tick_registerMap, State.tick_linkOk])
  have hcalls := memWrites_bank_idle b [] x hi
  rw [List.append_nil, hu, hu'] at hcalls
  cases hcalls
  have hsub : ((bankWrites b).take m).Sublist ((bankWrites b).take (k + 1)) :=
    (List.take_prefix_take_left (by omega)).sublist
  obtain ⟨data, hfold, hcut⟩ := foldl_cutOffBank (n := 0) hsub
    (fun j _ hj => (mem_regs_take b m (by omega) j).mpr (by omega)) s.tick.hw
  exact ⟨data, hhw.trans hfold, hwire, hcut⟩

/-- Settles O12: on an Idle engine the eight writes are stored. -/
theorem wrBankWritesEightSlotsInOrder : Obligations.WrBankWritesEightSlotsInOrder := by
  intro b s hl
  obtain ⟨u, hu, hexec, hsame⟩ := exec_wrBank_carried b hl
  obtain ⟨hshadow, _, _, htrace, hresults, hindex, _⟩ := State.sameBut_iff.mp hsame
  refine ⟨_, hexec, hshadow, htrace, hresults, hindex, fun hi => ?_⟩
  obtain ⟨hhw, hwire⟩ := memWrites_bank_idle_stored hi hl hu
  rw [hhw, hwire] at hsame
  exact hsame.after_tick

/-- Settles O13: on an Idle engine the writes before the `k`-th are stored, and the `k`-th may be. -/
theorem wrBankFailureIsPrecise : Obligations.WrBankFailureIsPrecise := by
  intro b k s hl hf
  obtain ⟨u, hu, hexec, hsame⟩ := exec_wrBank_failed b hl hf
  obtain ⟨hshadow, _, _, htrace, hresults, hindex, _⟩ := State.sameBut_iff.mp hsame
  refine ⟨_, hexec, hshadow, htrace, hresults, hindex, fun hi => ?_⟩
  obtain ⟨data, hhw, hwire, hbefore, hafter, hat⟩ := memWrites_bank_idle_cutOff hi hl hf hu
  rw [hhw, hwire] at hsame
  exact ⟨data, hsame.after_tick, fun j hj => (hbefore j hj).resolve_right fun ⟨hneg, _⟩ => Nat.not_lt_zero _ hneg,
    hafter, hat⟩

end Sys2Proof.Machine
end

section
/-! WRBANK with a transfer in flight, whole or cut off (R122, R145, R149, R206; log 4). -/

namespace Sys2Proof.Machine

open Sys2Proof

variable {s t u : State} {b : Bank} {k : Fin 8} {snap : Snap} {w : RegWrite}

/-- Settles O56: the bank's writes are overlapped until the transfer ends and stored from then on. -/
theorem wrBankDuringTransfer : Obligations.WrBankDuringTransfer := by
  intro b s snap hb h0 hl
  obtain ⟨u, hu, hexec, hsame⟩ := exec_wrBank_carried b hl
  obtain ⟨u', data, hu', _, _, _, _, _, _, _, hdata, houtlasts, hends⟩ :=
    memWrites_bank_busy b (s.setShadow { s.shadow with bank := b }) snap hb h0 hl
  obtain ⟨_, rfl⟩ := Call.done.inj (hu.symm.trans hu')
  refine ⟨_, data, hexec, hdata, fun h8 => ?_, fun h8 => ?_⟩
  · obtain ⟨hhw, hwire, _⟩ := houtlasts h8
    rwa [hhw, hwire] at hsame
  · obtain ⟨hhw, hwire⟩ := hends h8
    rwa [hhw, hwire] at hsame

/-- A write of a transfer-affecting register that fails while a transfer outlasts it: it did not reach the peripheral,
or it is stored or not and the transfer is spoiled (R50, R145). -/
theorem memWrite_outlasted_failed (hb : s.hw.engine = .busy snap) (h0 : 0 < s.ticksLeft)
    (hw : (∃ v, w = .ctrl v) ∨ (∃ v, w = .divider v) ∨ (∃ k v, w = .data k v)) (hf : ¬ s.LinkUp w.reg) :
    ∃ u, memWrite w s = .failed (.transport w.reg) u ∧ u.wire = s.wire ∧
      (u.hw = s.hw ∨ ∃ kept : List RegWrite, kept.Sublist [w] ∧
        u.hw = { kept.foldl (fun h w => h.store w) s.hw with engine := .busy snap.spoiled, overlap := true }) := by
  rw [memWrite_failed hf, State.tick_of_later hb h0]
  refine ⟨_, rfl, ?_⟩
  split
  · rw [hwWrite_busy_overlap (s := s.setTicks (s.ticksLeft - 1)) hb w hw]
    obtain ⟨h, hh, hsame⟩ := overlapWrite_sameBut w snap (s.setTicks (s.ticksLeft - 1))
    obtain ⟨_, hhw, hwire, _⟩ := State.sameBut_iff.mp hsame
    refine ⟨hwire, .inr ?_⟩
    rcases hh with rfl | rfl
    · exact ⟨[], List.nil_sublist _, hhw⟩
    · exact ⟨[w], List.Sublist.refl _, hhw⟩
  · exact ⟨rfl, .inl rfl⟩

/-- Writes of transfer-affecting registers of which the `k`-th fails while a transfer outlasts them: the transfer is
spoiled, unless the failed write is the first and did not reach the peripheral (R50, R145, R206). -/
theorem memWrites_outlasted_failed {ws : List RegWrite} {k : Nat} (hb : s.hw.engine = .busy snap)
    (hk : ws[k]? = some w) (ht : k < s.ticksLeft)
    (hw : ∀ w ∈ ws, (∃ v, w = .ctrl v) ∨ (∃ v, w = .divider v) ∨ (∃ k v, w = .data k v))
    (hl : s.LinkCarries ((ws.take k).map RegWrite.reg)) (hf : w.reg ∉ s.registerMap ∨ s.linkOk = some k) :
    ∃ (u : State) (kept : List RegWrite), memWrites ws s = .failed (.transport w.reg) u ∧
      kept.Sublist (ws.take (k + 1)) ∧ u.wire = s.wire ∧
      (u.hw = { kept.foldl (fun h w => h.store w) s.hw with engine := .busy snap.spoiled, overlap := true } ∨
       k = 0 ∧ kept = [] ∧ u.hw = s.hw) := by
  have hlen : (ws.take k).length = k := List.length_take_of_le (List.getElem?_eq_some_iff.mp hk).1.le
  have hsucc : ws.take (k + 1) = ws.take k ++ [w] := by rw [List.take_add_one, hk, Option.toList_some]
  have haffects := hw w (List.mem_of_getElem? hk)
  obtain ⟨t, hbefore, _, _, _, _, hmap, _, hlink⟩ := memWrites_carried _ s hl
  have hdown : ¬ t.LinkUp w.reg := not_linkUp_after hmap (hlen ▸ hlink) hf
  rw [memWrites_at hk hbefore hdown, hsucc]
  rcases Nat.eq_zero_or_pos k with rfl | hpos
  · cases hbefore
    obtain ⟨u, hu, hwire, hhw | ⟨last, hlast, hhw⟩⟩ := memWrite_outlasted_failed hb ht haffects hdown
    · exact ⟨u, [], hu, List.nil_sublist _, hwire, .inr ⟨rfl, rfl, hhw⟩⟩
    · exact ⟨u, last, hu, hlast, hwire, .inl hhw⟩
  · have hne : ws.take k ≠ [] := List.length_pos_iff.mp (hlen.symm ▸ hpos)
    obtain ⟨t', kept, hdone, hkept, hspoiled, hwire, hticks⟩ := memWrites_overlap (ws.take k) s snap hb (by omega)
      (fun x hx => hw x (List.mem_of_mem_take hx)) hl hne
    obtain ⟨_, rfl⟩ := Call.done.inj (hbefore.symm.trans hdone)
    obtain ⟨u, hu, hwire', hhw | ⟨last, hlast, hhw⟩⟩ :=
      memWrite_outlasted_failed (snap := snap.spoiled) (by rw [hspoiled]) (by omega) haffects hdown
    · exact ⟨u, kept, hu, hkept.trans (List.sublist_append_left _ _), hwire'.trans hwire, .inl (hhw.trans hspoiled)⟩
    · refine ⟨u, kept ++ last, hu, hkept.append hlast, hwire'.trans hwire, .inl ?_⟩
      rw [hhw, hspoiled, foldl_store_keeps, ← List.foldl_append]
      rfl

/-- A bank whose `k`-th write fails while a transfer outlasts it. -/
theorem memWrites_bank_outlasted_cutOff (hb : s.hw.engine = .busy snap) (hk : k.val < s.ticksLeft)
    (hl : s.LinkCarries (((bankWrites b).take k).map RegWrite.reg))
    (hf : .data k ∉ s.registerMap ∨ s.linkOk = some k.val)
    (hu : memWrites (bankWrites b) s = .failed (.transport (.data k)) u) :
    CutOffBank b s.hw.data u.hw.data k s.ticksLeft ∧ u.wire = s.wire ∧
      (u.hw = { s.hw with data := u.hw.data, engine := .busy snap.spoiled, overlap := true } ∨
       k = 0 ∧ u.hw = s.hw) := by
  obtain ⟨u', kept, hu', hsub, hwire, hhw⟩ :=
    memWrites_outlasted_failed hb (bank_at b k) hk (bank_affects b) hl hf
  obtain ⟨_, rfl⟩ := Call.failed.inj (hu.symm.trans hu')
  obtain ⟨data, hfold, hcut⟩ := foldl_cutOffBank (n := s.ticksLeft) hsub (fun j hn hj => by omega) s.hw
  rcases hhw with hhw | ⟨h0, rfl, hhw⟩
  · rw [hhw, hfold]
    exact ⟨hcut, hwire, .inl rfl⟩
  · rw [hhw]
    exact ⟨congrArg Hw.data hfold ▸ hcut, hwire, .inr ⟨Fin.ext h0, rfl⟩⟩

/-- A bank whose `k`-th write fails after the end of a transfer that was in flight at its start. -/
theorem memWrites_bank_ending_cutOff (hb : s.hw.engine = .busy snap) (h0 : 0 < s.ticksLeft) (hk : s.ticksLeft ≤ k.val)
    (hl : s.LinkCarries (((bankWrites b).take k).map RegWrite.reg))
    (hf : .data k ∉ s.registerMap ∨ s.linkOk = some k.val)
    (hu : memWrites (bankWrites b) s = .failed (.transport (.data k)) u) :
    CutOffBank b s.hw.data u.hw.data k s.ticksLeft ∧ u.wire = s.wire ++ [snap.spoiled.completedRecord] ∧
      u.hw = { s.hw with data := u.hw.data, engine := .idle, overlap := true } := by
  have hlen : ((bankWrites b).take k).length = k := List.length_take_of_le (Nat.le_of_lt k.isLt)
  have hcarried : s.LinkCarries (((bankWrites b).take s.ticksLeft).map RegWrite.reg) := by
    simpa only [List.take_take, Nat.min_eq_left hk] using carries_take s.ticksLeft hl
  obtain ⟨v, kept, hrest, hkept, hvhw, hvwire, _, _, _, _, hmap, _, hlink⟩ :=
    memWrites_ending (bankWrites b) s snap hb h0 (hk.trans_lt k.isLt) (bank_affects b) hcarried
  have hnext : ((bankWrites b).drop s.ticksLeft)[k - s.ticksLeft]? = some (.data k b[k]) := by
    rw [List.getElem?_drop, Nat.add_sub_cancel' hk, bank_at]
  have hcarried' : v.LinkCarries ((((bankWrites b).drop s.ticksLeft).take (k - s.ticksLeft)).map RegWrite.reg) := by
    simpa only [List.drop_take] using carries_drop hl (hlen.symm ▸ hk) hmap hlink
  obtain ⟨u', m, hu', hwire, hm, hhw⟩ := memWrites_idle_cutOff (s := v) (by rw [hvhw])
    (fun x hx => bankWrites_stores b x (List.mem_of_mem_drop hx)) hnext hcarried'
    (hf.imp (fun h => hmap ▸ h) fun h => by rw [hlink, h, linkAfter_some])
  rw [hu, hu'] at hrest
  cases hrest
  have hsub : (kept ++ ((bankWrites b).drop s.ticksLeft).take m).Sublist ((bankWrites b).take (k + 1)) := by
    refine (hkept.append_right _).trans ?_
    rw [← List.take_add]
    exact (List.take_prefix_take_left (by omega)).sublist
  have hmust : ∀ j : Fin 8, s.ticksLeft ≤ j.val → j < k →
      Reg.data j ∈ (kept ++ ((bankWrites b).drop s.ticksLeft).take m).map RegWrite.reg := fun j hn hj => by
    rw [List.map_append]
    exact List.mem_append_right _ (data_mem_slice b hn (by omega))
  obtain ⟨data, hfold, hcut⟩ := foldl_cutOffBank hsub hmust s.hw
  rw [hhw, hvhw, foldl_store_keeps, ← List.foldl_append, hfold]
  exact ⟨hcut, hwire.trans hvwire, rfl⟩

/-- Settles O57: the failed write falls while the transfer is in flight, or after its end. -/
theorem wrBankFailureDuringTransfer : Obligations.WrBankFailureDuringTransfer := by
  intro b k s snap hb h0 hl hf
  obtain ⟨u, hu, hexec, hsame⟩ := exec_wrBank_failed b hl hf
  have hregs : (s.setShadow { s.shadow with bank := b }).LinkCarries (((bankWrites b).take k).map RegWrite.reg) := by
    rwa [List.map_take, bankWrites_regs]
  rcases Nat.lt_or_ge k s.ticksLeft with hk | hk
  · obtain ⟨⟨hbefore, hafter, hat⟩, hwire, hhw⟩ :=
      memWrites_bank_outlasted_cutOff (s := s.setShadow { s.shadow with bank := b }) hb hk hregs hf hu
    exact ⟨_, u.hw, [], hexec, by rw [List.append_nil]; rwa [hwire] at hsame, hbefore, hafter, hat,
      fun _ => ⟨rfl, hhw⟩, fun h => absurd hk (Nat.not_lt.mpr h)⟩
  · obtain ⟨⟨hbefore, hafter, hat⟩, hwire, hhw⟩ :=
      memWrites_bank_ending_cutOff (s := s.setShadow { s.shadow with bank := b }) hb h0 hk hregs hf hu
    exact ⟨_, u.hw, _, hexec, by rwa [hwire] at hsame, hbefore, hafter, hat,
      fun h => absurd h (Nat.not_lt.mpr hk), fun _ => ⟨rfl, hhw⟩⟩

end Sys2Proof.Machine
end

section
/-! RESET whose pulse is carried (R48, R123, R148, R232). -/

namespace Sys2Proof.Machine

open Sys2Proof

/-- The three writes 0, 1, 0 of a whole pulse are one reset (R48, R148). -/
theorem State.applyPulse_whole (s : State) : s.applyPulse 3 = s.resetPeripheral := rfl

/-- Settles O15: the carried pulse is one reset, and its three writes are what the trace shows. -/
theorem resetClearsHardwareNotShadow : Obligations.ResetClearsHardwareNotShadow := by
  intro s hl
  obtain ⟨ws, hreset, hidle, hbusy⟩ := s.tick.resetPeripheral_eq
  refine ⟨_, ws, rfl, ?_, hidle, hbusy⟩
  rw [pulseReset_carried hl.head, State.applyPulse_whole, hreset, ← s.tick_trace, ← s.tick_overlap]
  exact ((State.SameBut.refl _).carried _).answer _

end Sys2Proof.Machine
end

section
/-! START: goBusy first, then one CTRL write that starts a transfer, is an overlap, or fails (R140, R144, R145). -/

namespace Sys2Proof.Machine

open Sys2Proof

variable {s : State}

/-- The peripheral's reaction to START's CTRL write while Idle: the transfer of the shadow's fields starts (R144). -/
theorem startWrite_idle (hi : s.tick.hw.engine = .idle) :
    ((s.tick.setShadow { s.shadow with goBusy := true }).hwWrite
      (.ctrl ({ s.shadow with goBusy := true } : Shadow).ctrlWord)).SameBut { s.tick with
        shadow := { s.shadow with goBusy := true },
        hw := { s.tick.hw with
          ctrl := ({ s.shadow with goBusy := true } : Shadow).ctrlWord,
          engine := .busy (s.tick.hw.snapOf s.shadow) } } :=
  hwWrite_ctrlWord_starts (s := s.tick.setShadow { s.shadow with goBusy := true }) { s.shadow with goBusy := true } rfl hi

/-- Settles O18: the one call is carried, and the word has goBusy at bit 8. -/
theorem startBeginsTransfer : Obligations.StartBeginsTransfer := by
  intro s hi hl
  exact ⟨_, _, rfl, rfl, ctrlWord_started_getLsbD s.shadow,
    shadowThenWrite_carried (fun _ => .unit) hl.head (startWrite_idle hi)⟩

/-- Settles O19: the one call is carried, and the peripheral's reaction to any CTRL write while Busy is an overlap. -/
theorem startWhileBusyOverlaps : Obligations.StartWhileBusyOverlaps := by
  intro s snap hb hl
  obtain ⟨c, hreact, hc⟩ := hwWrite_ctrl_busy (s := s.tick.setShadow { s.shadow with goBusy := true }) hb
    ({ s.shadow with goBusy := true } : Shadow).ctrlWord
  exact ⟨_, _, c, rfl, rfl, shadowThenWrite_carried (fun _ => .unit) hl.head hreact, hc⟩

/-- Settles O20: the failed write did not reach the peripheral, or had its reaction in that engine state. -/
theorem startFailureKeepsGoBusy : Obligations.StartFailureKeepsGoBusy := by
  intro s hf
  cases hengine : s.tick.hw.engine with
  | idle =>
    obtain ⟨h, hsame, hh⟩ := shadowThenWrite_failed (fun _ => .unit) hf (startWrite_idle hengine)
    exact ⟨_, h, _, rfl, rfl, hsame, fun _ => hh, fun _ => Engine.noConfusion⟩
  | busy snap =>
    obtain ⟨c, hreact, hc⟩ := hwWrite_ctrl_busy (s := s.tick.setShadow { s.shadow with goBusy := true }) hengine
      ({ s.shadow with goBusy := true } : Shadow).ctrlWord
    obtain ⟨h, hsame, hh⟩ := shadowThenWrite_failed (fun _ => .unit) hf hreact
    refine ⟨_, h, _, rfl, rfl, hsame, Engine.noConfusion, fun _ hb => ?_⟩
    cases hb
    exact hh.imp_right fun e => ⟨c, e, hc⟩

end Sys2Proof.Machine
end

section
/-! Scheduling points one after the other (R149, R155; log 4). -/

namespace Sys2Proof.Machine

open Sys2Proof

variable {s : State} {snap : Snap}

/-- Until a transfer is due, scheduling points only count down. -/
theorem State.tick_iterate_outlasted (hb : s.hw.engine = .busy snap) {n : Nat} (hn : n ≤ s.ticksLeft) :
    State.tick^[n] s = s.setTicks (s.ticksLeft - n) := by
  induction n with
  | zero => rfl
  | succ n ih =>
    rw [Function.iterate_succ_apply', ih (by omega),
      State.tick_of_later (s := s.setTicks (s.ticksLeft - n)) hb (Nat.sub_pos_of_lt hn)]
    rfl

/-- The scheduling point at which a transfer is due completes it. -/
theorem State.tick_eq_complete (hb : s.hw.engine = .busy snap) (hn : s.ticksLeft = 0) : s.tick = s.complete := by
  rw [State.tick_of_due hb hn, State.complete_of_busy hb]

/-- From the point at which it is due on, the transfer has completed, and nothing more happens. -/
theorem State.tick_iterate_completes (hb : s.hw.engine = .busy snap) {n : Nat} (hn : s.ticksLeft < n) :
    State.tick^[n] s = s.complete.setTicks 0 := by
  obtain ⟨m, rfl⟩ := Nat.exists_eq_add_of_lt hn
  have hdone : (s.setTicks 0).tick = s.complete.setTicks 0 := by
    rw [State.tick_of_due (s := s.setTicks 0) hb rfl, State.complete_of_busy hb]
    rfl
  have hidle : (s.complete.setTicks 0).tick = s.complete.setTicks 0 := by
    rw [State.complete_of_busy hb]
    exact State.tick_of_idle rfl
  rw [show s.ticksLeft + m + 1 = m + (1 + s.ticksLeft) by omega, Function.iterate_add_apply,
    Function.iterate_add_apply, State.tick_iterate_outlasted hb le_rfl, Nat.sub_self, Function.iterate_one, hdone,
    Function.iterate_fixed hidle]

/-- Settles O55: one scheduling point by its cases, several by counting them down. -/
theorem schedulingPointsEndTheTransfer : Obligations.SchedulingPointsEndTheTransfer :=
  fun _ => ⟨State.tick_of_idle, fun _ hb => ⟨State.tick_eq_complete hb, State.tick_of_later hb,
    fun _ => State.tick_iterate_outlasted hb, fun _ => State.tick_iterate_completes hb⟩⟩

end Sys2Proof.Machine
end

section
/-! WAITIDLE: one poll of its loop, and the loop until the transfer in flight has completed (R141, R155; logs 4, 12): a
step spends two scheduling points, its own and that of its read. -/

namespace Sys2Proof.Machine

open Sys2Proof

variable {s : State} {snap : Snap} {rest : List Packet}

/-- A poll that reads 0 ends the operation (R141). -/
theorem exec_waitIdle_idle (hi : s.tick.hw.engine = .idle) (hl : s.LinkUp .busy) : ∃ t, exec .waitIdle s = .next t ∧
    t.SameBut (State.ended (.ok .unit) { s.tick with trace := s.trace ++ [.read .busy 0] }) := by
  refine ⟨_, rfl, ?_⟩
  rw [memRead_carried hl, State.readReg, Hw.busyValue_of_idle hi, ← s.tick_trace]
  exact ((State.SameBut.refl s.tick).carried _).answer _

/-- A poll that reads 1 leaves the operation the current one (R141; log 12). -/
theorem exec_waitIdle_busy (hb : s.tick.hw.engine = .busy snap) (hl : s.LinkUp .busy) : exec .waitIdle s =
    .next { s.tick with trace := s.trace ++ [.read .busy 1], linkOk := linkAfter 1 s.linkOk } := by
  rw [exec, execWaitIdle, memRead_carried hl, State.readReg, Hw.busyValue_of_busy hb, ← s.tick_trace, ← s.tick_linkOk]
  rfl

/-- A poll whose read fails ends the operation (R141, R204). -/
theorem exec_waitIdle_failed (hf : s.LinkFails .busy) : ∃ t, exec .waitIdle s = .next t ∧
    t.SameBut (State.ended (.err (.transport .busy)) { s.tick with trace := s.trace ++ [.failed .busy] }) := by
  refine ⟨_, rfl, ?_⟩
  rw [memRead_failed hf.not_linkUp, ← s.tick_trace]
  exact ((State.SameBut.refl s.tick).linkFailed _).answer _

/-- Settles O21: the engine decides what the poll reads. -/
theorem waitIdlePollsBusy : Obligations.WaitIdlePollsBusy :=
  fun _ => ⟨fun hl => ⟨fun hi => exec_waitIdle_idle hi hl.head,
    fun _ hb => ⟨_, exec_waitIdle_busy hb hl.head, State.SameBut.refl _⟩⟩, exec_waitIdle_failed⟩

theorem step_waitIdle (h : s.inbox = encode .waitIdle :: rest) : step s = exec .waitIdle s.tick :=
  step_of_decode_ok h rfl

/-- A machine after a step of WAITIDLE whose two scheduling points the transfer in flight outlasts (logs 4, 12). -/
def State.polledOnce (s : State) : State :=
  { s with ticksLeft := s.ticksLeft - 2, trace := s.trace ++ [.read .busy 1], linkOk := linkAfter 1 s.linkOk }

/-- Such a step of WAITIDLE reads 1 and leaves the operation the current one (R141). -/
theorem step_waitIdle_outlasted (hq : s.inbox = encode .waitIdle :: rest) (hb : s.hw.engine = .busy snap)
    (hl : s.LinkUp .busy) (hn : 2 ≤ s.ticksLeft) : step s = .next s.polledOnce := by
  have htick : s.tick.tick = s.setTicks (s.ticksLeft - 2) := State.tick_iterate_outlasted hb hn
  rw [step_waitIdle hq, exec_waitIdle_busy (snap := snap) (by rw [htick]; exact hb) (State.linkUp_tick.mpr hl), htick,
    s.tick_trace, s.tick_linkOk]
  rfl

/-- The step of WAITIDLE during which the transfer completes is its last (R141, R149). -/
theorem step_waitIdle_ends (hq : s.inbox = encode .waitIdle :: rest) (hb : s.hw.engine = .busy snap)
    (hl : s.LinkUp .busy) (hn : s.ticksLeft < 2) : ∃ t, step s = .next t ∧
      t.SameBut (State.ended (.ok .unit) { s with
        hw := { s.hw with engine := .idle },
        wire := s.wire ++ [snap.completedRecord],
        trace := s.trace ++ [.read .busy 0] }) := by
  have htick : s.tick.tick = s.complete.setTicks 0 := State.tick_iterate_completes hb hn
  rw [State.complete_of_busy hb] at htick
  obtain ⟨t, ht, hsame⟩ := exec_waitIdle_idle (s := s.tick) (by rw [htick]; rfl) (State.linkUp_tick.mpr hl)
  refine ⟨t, (step_waitIdle hq).trans ht, ?_⟩
  rw [htick, s.tick_trace] at hsame
  exact hsame

/-- Settles O22: by induction on the scheduling points left, of which each poll that reads 1 spends two. -/
theorem waitIdleReturns : Obligations.WaitIdleReturns := by
  intro s snap rest hq hb hmap hlink
  induction hn : s.ticksLeft using Nat.strong_induction_on generalizing s with
  | _ n ih =>
    subst hn
    have hl : s.LinkUp .busy := ⟨hmap, fun h => Nat.not_lt_zero _ (hlink 0 h)⟩
    rcases Nat.lt_or_ge s.ticksLeft 2 with hlast | hmore
    · obtain ⟨t, ht, hsame⟩ := step_waitIdle_ends hq hb hl hlast
      exact ⟨0, t, Nat.zero_le _, by rw [steps, ht]; rfl, by simpa using hsame⟩
    · have hlink' : ∀ n ∈ s.polledOnce.linkOk, s.polledOnce.ticksLeft < n := fun n hn => by
        obtain ⟨m, hm, rfl⟩ := Option.map_eq_some_iff.mp hn
        have hlt := hlink m hm
        simp only [State.polledOnce]
        omega
      obtain ⟨k, t, hk, ht, hsame⟩ := ih (s.ticksLeft - 2) (by omega) s.polledOnce hq hb hmap hlink' rfl
      refine ⟨k + 1, t, by omega, ?_, ?_⟩
      · rw [steps, step_waitIdle_outlasted hq hb hl hmore]
        exact ht
      · rw [State.sameBut_iff] at hsame ⊢
        simpa [State.polledOnce, State.ended, List.replicate_succ] using hsame

end Sys2Proof.Machine
end

section
/-! The order in which the bits of a transfer leave (R150). -/

namespace Sys2Proof.Machine

open Sys2Proof

variable {snap : Snap}

/-- Bit `bit` of slot `slot` is bit `slot * 16 + bit` of the transfer string (R150). -/
theorem Snap.dataBit_slot (snap : Snap) (slot : Fin 8) {bit : Nat} (hbit : bit < 16) :
    snap.dataBit (slot.val * 16 + bit) = snap.data[slot].getLsbD bit := by
  have hdiv : (slot.val * 16 + bit) / 16 = slot.val := by omega
  have hmod : (slot.val * 16 + bit) % 16 = bit := by omega
  rw [Snap.dataBit, hdiv, hmod]
  simp [List.getD]

/-- A length that the bank does not hold has no bits to give (R150). -/
theorem serialise_unspecified (h : snap.dataLen.toNat = 0 ∨ 128 < snap.dataLen.toNat) :
    serialise snap = .unspecified := if_pos h

theorem serialise_lsbFirst (h0 : 0 < snap.dataLen.toNat) (h128 : snap.dataLen.toNat ≤ 128)
    (hlsb : snap.lsbFirst = true) :
    serialise snap = .bits ((List.range snap.dataLen.toNat).map snap.dataBit) := by
  rw [serialise, if_neg (by omega), if_pos hlsb]

theorem serialise_msbFirst (h0 : 0 < snap.dataLen.toNat) (h128 : snap.dataLen.toNat ≤ 128)
    (hmsb : snap.lsbFirst = false) :
    serialise snap = .bits ((List.range snap.dataLen.toNat).reverse.map snap.dataBit) := by
  rw [serialise, if_neg (by omega), if_neg (by simp [hmsb])]

/-- Settles O27: LSB first bit `i` leaves at time `i`, MSB first it leaves at time `N - 1 - i`. -/
theorem serialiseOrdersBits : Obligations.SerialiseOrdersBits := by
  intro snap
  refine ⟨serialise_unspecified, fun h0 h128 => ?_⟩
  cases horder : snap.lsbFirst with
  | true =>
    refine ⟨_, serialise_lsbFirst h0 h128 horder, by simp, fun i slot bit hi hbit hslot => ?_⟩
    rw [← snap.dataBit_slot slot hbit, ← hslot]
    simp [List.getD, hi]
  | false =>
    refine ⟨_, serialise_msbFirst h0 h128 horder, by simp, fun i slot bit hi hbit hslot => ?_⟩
    have hback : snap.dataLen.toNat - 1 - (snap.dataLen.toNat - 1 - i) = i := by omega
    have htime : snap.dataLen.toNat - 1 - i < (List.range snap.dataLen.toNat).length := by simp; omega
    rw [← snap.dataBit_slot slot hbit, ← hslot, if_neg Bool.false_ne_true, List.getD_eq_getElem?_getD, List.getElem?_map,
      List.getElem?_reverse htime]
    simp [hback, hi]

end Sys2Proof.Machine
end

section
/-! The peripheral's reactions to writes, its completion and its reads (R142 to R149, R152 to R154). -/

namespace Sys2Proof.Machine

open Sys2Proof

variable {s : State} {snap : Snap}

/-- The reaction to a write of DATAk while Busy (R145). -/
theorem hwWrite_data_busy (hb : s.hw.engine = .busy snap) (k : Fin 8) (v : Slot) :
    ∃ x, (s.hwWrite (.data k v)).SameBut
        { s with hw := { s.hw with data := s.hw.data.set k x, engine := .busy snap.spoiled, overlap := true } } ∧
      (x = s.hw.data[k] ∨ x = v) := by
  rw [hwWrite_busy_overlap hb _ (.inr (.inr ⟨k, v, rfl⟩))]
  obtain ⟨h, rfl | rfl, hsame⟩ := overlapWrite_sameBut (.data k v) snap s
  · refine ⟨s.hw.data[k], ?_, .inl rfl⟩
    rw [Fin.getElem_fin, Vector.set_getElem_self]
    exact hsame
  · exact ⟨v, hsame, .inr rfl⟩

/-- Settles O24: the register that is written keeps its old value or takes the new one; SS is no transfer-affecting
register. -/
theorem overlapSpoilsTheTransfer : Obligations.OverlapSpoilsTheTransfer := by
  intro s snap hb
  refine ⟨hwWrite_ctrl_busy hb, fun v => ?_, hwWrite_data_busy hb, fun _ => rfl⟩
  obtain ⟨d, hd, hsame⟩ := hwWrite_divider_busy hb v
  exact ⟨d, hsame, hd⟩

/-- Settles O25: while Idle bit 8 of a CTRL value chooses between storing it and starting the transfer of its fields;
every other write only stores. -/
theorem idleWritesStore : Obligations.IdleWritesStore := by
  refine fun s => ⟨fun hi => ⟨fun v hv => hwWrite_cfg_idle hi hv, fun v hv => ?_, fun k v => ?_,
    fun v => hwWrite_stores (w := .divider v) hi trivial⟩, fun _ => rfl⟩
  · rw [hwWrite_go_idle hi hv]
    exact ⟨s.linkOk, Config.transferTicks s.drawn, s.drawn + 1, rfl⟩
  · refine ⟨s.hw.data.set k v, hwWrite_stores (w := .data k v) hi trivial, Vector.getElem_set_self .., fun j hj => ?_⟩
    exact Vector.getElem_set_ne _ _ fun h => hj (Fin.ext h.symm)

/-- Settles O26: completion by the two states of the engine. -/
theorem completionAppendsRecord : Obligations.CompletionAppendsRecord :=
  fun _ => ⟨State.complete_of_idle, fun _ hb => State.complete_of_busy hb⟩

/-- What a read of CTRL shows, bit by bit: bit 8 is the busy state, every other bit is stored (R154). -/
theorem Hw.ctrlValue_getLsbD (hw : Hw) {k : Nat} (hk : k < 14) :
    hw.ctrlValue.getLsbD k = if k = 8 then hw.isBusy else hw.ctrl.getLsbD k := by
  rw [Hw.ctrlValue, BitVec.getLsbD_or, BitVec.getLsbD_and, BitVec.getLsbD_not, bitAt_getLsbD _ _ _ _ (by omega),
    bitAt_getLsbD _ _ _ _ (by omega)]
  by_cases h : k = 8 <;> simp [h, hk]

theorem Hw.isBusy_eq (hw : Hw) : hw.isBusy = decide (hw.engine ≠ .idle) := by
  cases h : hw.engine <;> simp [Hw.isBusy, h]

/-- No read has another effect than to draw (R55; log 17). -/
theorem State.readReg_sameBut (r : Reg) (s : State) : (s.readReg r).2.SameBut s := by
  cases r with
  | data k => exact ⟨s.linkOk, s.ticksLeft, s.drawn + 1, rfl⟩
  | reset => exact ⟨s.linkOk, s.ticksLeft, s.drawn + 1, rfl⟩
  | _ => exact .refl s

/-- Settles O28: BUSY and bit 8 of CTRL show the engine, and a draw is no wider than its register. -/
theorem readsReturnPeripheralState : Obligations.ReadsReturnPeripheralState := by
  refine fun s => ⟨?_, fun k hk => ?_, rfl, rfl, fun k => (Config.readData s.drawn).isLt,
    (Config.readReset s.drawn).isLt, fun r => s.readReg_sameBut r⟩
  · cases h : s.hw.engine with
    | idle => exact (Hw.busyValue_of_idle h).trans (if_pos rfl).symm
    | busy snap => exact (Hw.busyValue_of_busy h).trans (if_neg Engine.noConfusion).symm
  · rw [← Hw.isBusy_eq]
    exact Hw.ctrlValue_getLsbD s.hw hk

/-- Settles O29: the lines of a transfer by its ass bit; every record of it carries them. -/
theorem slaveLinesFollowAss : Obligations.SlaveLinesFollowAss := by
  refine fun snap => ⟨fun hass => ⟨?_, fun hw hb => ?_⟩, fun hass => ?_, rfl, rfl⟩
  · simp [Snap.ssLines, hass]
  · simp [Hw.slaveLines, hb, hass]
  · simp [Snap.ssLines, hass]

end Sys2Proof.Machine
end

section
/-! ENCODE: the frame of operands in range, and the refusal of any others (R170). -/

namespace Sys2Proof.Machine

open Sys2Proof

variable {d a p : Int}

theorem encodeInRange_iff : EncodeInRange d a p ↔ (d = 0 ∨ d = 1) ∧ (0 ≤ a ∧ a ≤ 0x7F) ∧ (0 ≤ p ∧ p ≤ 0xFF) := by
  rw [EncodeInRange, show InRange 0 1 d ↔ d = 0 ∨ d = 1 by omega]

/-- The frame of operands in range, as an integer (R73, R170). -/
theorem frame_ofInt_toNat (h : EncodeInRange d a p) :
    ((frame (decide (d = 1)) (BitVec.ofInt 7 a) (BitVec.ofInt 8 p)).toNat : Int) = d * 32768 + a * 256 + p := by
  obtain ⟨hd, ha, hp⟩ := encodeInRange_iff.mp h
  have haddr : ((BitVec.ofInt 7 a).toNat : Int) = a := by rw [BitVec.toNat_ofInt]; omega
  have hdir : ((decide (d = 1)).toNat : Int) = d := by rcases hd with rfl | rfl <;> rfl
  rw [frame_toNat]
  push_cast
  rw [hdir, haddr, toNat_ofInt_of_inRange hp]

theorem exec_encodeFrame_ok (h : EncodeInRange d a p) (s : State) : exec (.encodeFrame d a p) s =
    .next (s.ended (.ok (.word (frame (decide (d = 1)) (BitVec.ofInt 7 a) (BitVec.ofInt 8 p))))) := by
  rw [exec, execEncodeFrame, encodeOperands, if_pos h]
  rfl

theorem exec_encodeFrame_bad (h : ¬ EncodeInRange d a p) (s : State) :
    exec (.encodeFrame d a p) s = .refused (.operandRange d a p s.trace) := by
  rw [exec, execEncodeFrame, encodeOperands_bad h]

/-- Settles O30: the range check decides between the packed frame and the refusal, and neither touches the state. -/
theorem encodeBuildsTheFrame : Obligations.EncodeBuildsTheFrame := by
  intro d a p s
  rw [← encodeInRange_iff]
  exact ⟨fun h => ⟨_, exec_encodeFrame_ok h s, frame_ofInt_toNat h⟩, fun h => exec_encodeFrame_bad h s⟩

end Sys2Proof.Machine
end

section
/-! TRANSMIT as its ten calls: what they leave of the core on every path, and the transfer of the first one (R171,
R206). -/

namespace Sys2Proof.Machine

open Sys2Proof

variable {s : State}

/-- A TRANSMIT whose calls are carried: all but the peripheral and its records is known (R58, R171). -/
theorem exec_transmit_carried (w : Slot) (hl : s.LinkCarries transmitRegs) : ∃ u,
    transmitCalls w s = .done () u ∧ exec (.transmit w.toNat) s = .next (u.answer (.ok .unit)) ∧
    (u.answer (.ok .unit)).SameBut (State.ended (.ok .unit) { s with
      shadow := s.shadow.transmitted w, hw := u.hw, wire := u.wire, trace := s.trace ++ transmitEvents w s.shadow }) := by
  obtain ⟨u, hu, hshadow, htrace, hresults, hindex, hmap, hinbox, _⟩ := transmitCalls_core w s hl
  refine ⟨u, hu, by rw [execTransmit_toNat, hu]; rfl, State.SameBut.answer ?_ _⟩
  exact State.sameBut_iff.mpr ⟨hshadow, rfl, rfl, htrace, hresults, hindex, hmap, hinbox⟩

theorem exec_transmit_bad {v : Int} (h : ¬ FitsSlot v) (s : State) :
    exec (.transmit v) s = .next (s.ended (.err (.range .slotWidth 0))) := by
  rw [exec, execTransmit, operandWord_bad h]
  rfl

/-- Settles O31: TRANSMIT sends its word as a frame, and the first one sent on an Idle engine starts the one transfer. -/
theorem firstTransmitStartsOneTransfer : Obligations.FirstTransmitStartsOneTransfer := by
  intro w s hg hi hl
  refine ⟨sendFrame w s, execTransmit_toNat w s, ?_⟩
  simpa only [State.firstSnap, State.tick_shadow] using sendFrame_first w hg hi hl

/-- Settles O32: what is known of the core when all calls are carried does not depend on the engine, and a word that
does not fit is an error before any call. -/
theorem transmitWritesUnderEverySchedule : Obligations.TransmitWritesUnderEverySchedule := by
  refine ⟨fun w s hl => ?_, fun v s hv => exec_transmit_bad (fun hfits => ?_) s⟩
  · obtain ⟨u, _, hexec, hsame⟩ := exec_transmit_carried w hl
    obtain ⟨hshadow, _, _, htrace, hresults, hindex, _⟩ := State.sameBut_iff.mp hsame
    exact ⟨_, hexec, hshadow, htrace, hresults, hindex⟩
  · obtain ⟨hlo, hhi⟩ := hfits
    omega

/-- Settles O33: the failing call ends the TRANSMIT, with the core as the calls before it left it. -/
theorem transmitFailureIsPrecise : Obligations.TransmitFailureIsPrecise := by
  intro w k r s hk hl hf
  obtain ⟨u, hu, hshadow, htrace, hresults, hindex⟩ := transmitCalls_fails (w := w) hk hl hf
  refine ⟨u.answer (.err (.transport r)), by rw [execTransmit_toNat, hu]; rfl, ?_, hshadow,
    congrArg (· ++ [_]) hresults, congrArg (· + 1) hindex⟩
  rw [State.answer_trace, htrace, cutOffEvents, List.append_assoc]

end Sys2Proof.Machine
end

section
/-! A TRANSMIT with a transfer in flight that ends between two of its ten writes (R144, R145, R149, R171; log 4): before
the pre-start write, which then starts a transfer if goBusy was 1, or before START's write, which then starts one. -/

namespace Sys2Proof.Machine

open Sys2Proof

variable {s : State} {snap : Snap} {b : Bank}

/-- The peripheral after a TRANSMIT from the shadow `x` that has met an overlap and then started the transfer
`running`. -/
def Hw.retransmitted (x : Shadow) (data : Bank) (running : Snap) (hw : Hw) : Hw :=
  { hw with
    ctrl := ({ x with goBusy := true } : Shadow).ctrlWord, data := data, engine := .busy running, overlap := true }

/-- The bank part of a TRANSMIT when the transfer in flight ends before the pre-start write: at the scheduling point
before that write, or earlier (R145, R149). -/
theorem memWrites_bank_ended (hb : s.hw.engine = .busy snap) (h0 : 0 < s.ticksLeft) (h8 : s.ticksLeft ≤ 8)
    (hl : s.LinkCarries dataRegs) : ∃ v data, memWrites (bankWrites b) s = .done () v ∧
      v.shadow = s.shadow ∧ v.registerMap = s.registerMap ∧ v.linkOk = linkAfter 8 s.linkOk ∧
      (∀ j : Fin 8, data[j] = b[j] ∨ j.val < s.ticksLeft ∧ data[j] = s.hw.data[j]) ∧
      v.tick.hw = { s.hw with data := data, engine := .idle, overlap := true } ∧
      v.tick.wire = s.wire ++ [snap.spoiled.completedRecord] := by
  obtain ⟨v, data, hv, hshadow, _, _, _, hmap, _, hlink, hdata, houtlasts, hends⟩ :=
    memWrites_bank_busy b s snap hb h0 hl
  refine ⟨v, data, hv, hshadow, hmap, hlink, hdata, ?_⟩
  rcases h8.lt_or_eq with h8 | h8
  · obtain ⟨hhw, hwire⟩ := hends h8
    rw [State.tick_of_idle (by rw [hhw])]
    exact ⟨hhw, hwire⟩
  · obtain ⟨hhw, hwire, hticks⟩ := houtlasts h8.ge
    rw [State.tick_of_due (snap := snap.spoiled) (by rw [hhw]) (by omega), State.setHw_hw, hhw, State.setHw_wire,
      State.addRecord_wire, hwire]
    exact ⟨rfl, rfl⟩

/-- The transfer in flight ends before the pre-start write: the two CTRL writes find the engine Idle. -/
theorem transmitCalls_ends_before_prestart (w : Slot) (hb : s.hw.engine = .busy snap) (h0 : 0 < s.ticksLeft)
    (h8 : s.ticksLeft ≤ 8) (hl : s.LinkCarries transmitRegs) : ∃ t data new running ws,
      transmitCalls w s = .done () t ∧ t.hw = s.hw.retransmitted s.shadow data running ∧
      t.wire = s.wire ++ [snap.spoiled.completedRecord] ++ ws ∧
      (∀ j : Fin 8, data[j] = (s.shadow.bank.set 0 w)[j] ∨ j.val < s.ticksLeft ∧ data[j] = s.hw.data[j]) ∧
      new = { s.hw.snapOf s.shadow with data := data } ∧
      (s.shadow.goBusy = false → running = new ∧ ws = []) ∧
      (s.shadow.goBusy = true → running = new.spoiled ∧ ws = [] ∨ running = new ∧ ws = [new.completedRecord]) := by
  obtain ⟨v, data, hv, hshadow, hmap, hlink, hdata, hhw, hwire⟩ :=
    memWrites_bank_ended (s := s.setShadow { s.shadow with bank := s.shadow.bank.set 0 w })
      (b := s.shadow.bank.set 0 w) hb h0 h8 (State.LinkCarries.mono (rs' := [.ctrl, .ctrl]) hl)
  have hrest : v.LinkCarries [.ctrl, .ctrl] := State.LinkCarries.rest (rs := dataRegs) hl hmap hlink
  obtain ⟨t, new, running, ws, ht, hthw, htwire, hnew, hstart⟩ :=
    ctrlTail _ hshadow (by rw [hhw]) (by rw [hhw]) hrest
  rw [hhw] at hthw hnew
  rw [hwire] at htwire
  exact ⟨t, data, new, running, ws, by rw [transmit_split, hv]; exact ht, hthw, htwire, hdata, hnew, hstart⟩

/-- START when its scheduling point leaves the engine Idle: its write starts a transfer (R144). -/
theorem startCalls_tick_idle (hi : s.tick.hw.engine = .idle) (hl : s.LinkUp .ctrl) : ∃ t, startCalls s = .done () t ∧
    t.hw = { s.tick.hw with
      ctrl := ({ s.shadow with goBusy := true } : Shadow).ctrlWord,
      engine := .busy (s.tick.hw.snapOf s.shadow) } ∧
    t.wire = s.tick.wire := by
  obtain ⟨_, hhw, hwire, _⟩ := State.sameBut_iff.mp (startWrite_idle hi)
  exact ⟨_, startCalls_carried hl, hhw, hwire⟩

/-- The transfer in flight ends before START's write: the pre-start write is overlapped, and START's write alone starts
a transfer. -/
theorem transmitCalls_ends_before_start (w : Slot) (hb : s.hw.engine = .busy snap) (h9 : s.ticksLeft = 9)
    (hl : s.LinkCarries transmitRegs) : ∃ t data, transmitCalls w s = .done () t ∧
      t.hw = s.hw.retransmitted s.shadow data { s.hw.snapOf s.shadow with data := data } ∧
      t.wire = s.wire ++ [snap.spoiled.completedRecord] ∧
      ∀ j : Fin 8, data[j] = (s.shadow.bank.set 0 w)[j] ∨ j.val < s.ticksLeft ∧ data[j] = s.hw.data[j] := by
  have h0 : 0 < s.ticksLeft := by omega
  obtain ⟨v, data, hv, hshadow, _, _, _, hmap, _, hlink, hdata, houtlasts, _⟩ :=
    memWrites_bank_busy (s.shadow.bank.set 0 w) (s.setShadow { s.shadow with bank := s.shadow.bank.set 0 w }) snap hb
      h0 (State.LinkCarries.mono (rs' := [.ctrl, .ctrl]) hl)
  obtain ⟨hhw, hwire, hticks⟩ := houtlasts (h9 ▸ Nat.le_succ 8)
  replace hticks : v.ticksLeft = 1 := by rw [hticks, State.setShadow_ticksLeft, h9]
  have hrest : v.LinkCarries [.ctrl, .ctrl] := State.LinkCarries.rest (rs := dataRegs) hl hmap hlink
  obtain ⟨u, c, hu, _, huhw, huwire, huticks, hushadow, humap, hulink⟩ :=
    ctrl_overlap s.shadow.ctrlWord (sn := snap.spoiled) (by rw [hhw]) (hticks ▸ Nat.one_pos) hrest.head
  have hdue : u.tick = _ := State.tick_of_due (snap := snap.spoiled) (by rw [huhw]; rfl) (by rw [huticks, hticks])
  obtain ⟨t, ht, hthw, htwire⟩ := startCalls_tick_idle (by rw [hdue]; rfl) (hrest.tail humap hulink).head
  refine ⟨t, data, ?_, ?_, ?_, hdata⟩
  · rw [transmit_split, hv]
    simp only [Call.andThen, memWrites, hu, ht]
  · rw [hthw, hdue, State.setHw_hw, huhw, hhw, hushadow, hshadow]
    rfl
  · rw [htwire, hdue, State.setHw_wire, State.addRecord_wire, huwire, hwire]
    rfl

/-- Settles O58: the transfer in flight ends before the pre-start write or before START's write. -/
theorem transmitMeetsEndingTransfer : Obligations.TransmitMeetsEndingTransfer := by
  intro w s snap hb h0 h10 hl
  obtain ⟨u, hu, hexec, hsame⟩ := exec_transmit_carried w hl
  rcases Nat.lt_or_ge s.ticksLeft 9 with h9 | h9
  · obtain ⟨t, data, new, running, ws, ht, hhw, hwire, hdata, hnew, hcold, hwarm⟩ :=
      transmitCalls_ends_before_prestart w hb h0 (Nat.le_of_lt_succ h9) hl
    obtain ⟨_, rfl⟩ := Call.done.inj (hu.symm.trans ht)
    rw [hhw, hwire] at hsame
    exact ⟨_, data, new, running, ws, hexec, hsame, hdata, hnew, fun h => hcold (h.resolve_right h9.ne),
      fun hg _ => hwarm hg⟩
  · obtain ⟨t, data, ht, hhw, hwire, hdata⟩ :=
      transmitCalls_ends_before_start w hb (Nat.le_antisymm (Nat.le_of_lt_succ h10) h9) hl
    obtain ⟨_, rfl⟩ := Call.done.inj (hu.symm.trans ht)
    rw [hhw, hwire] at hsame
    exact ⟨_, data, _, _, [], hexec, by rw [List.append_nil]; exact hsame, hdata, rfl, fun _ => ⟨rfl, rfl⟩,
      fun _ h => absurd h (Nat.not_lt.mpr h9)⟩

end Sys2Proof.Machine
end

section
/-! CFGPIXEL as the frames it sends: which they are and as integers (R190, R191), and what its transactions leave of the
core when all their calls are carried, before a refusal, and when one of them fails (R192, R204, R207). -/

namespace Sys2Proof.Machine

open Sys2Proof

variable {s : State} {addr h lo we pe m : Int} {ws : List Frame}

/-! ### The frames (R190, R191) -/

/-- The frame to 0x20 with the low byte of the address. -/
def pixelAddressFrame (addr : Int) : Frame := frame false 0x20 (pixelAddressByte addr)

/-- The write frame to `a` with payload `p`, both taken as ENCODE takes them. -/
def payloadFrame (a p : Int) : Frame := frame false (BitVec.ofInt 7 a) (BitVec.ofInt 8 p)

theorem pixelAddressFrame_toNat (ha : 0 ≤ addr) : ((pixelAddressFrame addr).toNat : Int) = 0x2000 + addr % 256 := by
  obtain ⟨n, rfl⟩ := Int.eq_ofNat_of_zero_le ha
  rw [pixelAddressFrame, frame_toNat, pixelAddressByte_nat]
  rfl

theorem payloadFrame_toNat {a p : Int} (ha : 0 ≤ a ∧ a ≤ 0x7F) (hp : 0 ≤ p ∧ p ≤ 0xFF) :
    ((payloadFrame a p).toNat : Int) = a * 256 + p := by
  have hframe := frame_ofInt_toNat (encodeInRange_iff.mpr ⟨.inl rfl, ha, hp⟩)
  rwa [Int.zero_mul, Int.zero_add] at hframe

theorem encodeOperands_badPayload {a p : Int} (hp : p < 0 ∨ 0xFF < p) : encodeOperands 0 a p = none :=
  encodeOperands_bad fun ⟨_, _, _, _⟩ => by omega

theorem pixelFrames_negativeAddress (ha : addr < 0) :
    pixelFrames addr h lo we pe m = ([], some (.negativePixelOperand [addr])) :=
  if_pos ha

theorem pixelFrames_badLow (ha : 0 ≤ addr) (hlo : lo < 0 ∨ 0xFF < lo) :
    pixelFrames addr h lo we pe m = ([pixelAddressFrame addr], some (.operandRange 0 0x21 lo)) := by
  rw [pixelFrames, if_neg ha.not_gt, encodeOperands_badPayload hlo]
  rfl

theorem pixelFrames_negativePayload (ha : 0 ≤ addr) (hlo : 0 ≤ lo ∧ lo ≤ 0xFF)
    (hn : h < 0 ∨ we < 0 ∨ pe < 0 ∨ m < 0) : pixelFrames addr h lo we pe m =
      ([pixelAddressFrame addr, payloadFrame 0x21 lo], some (.negativePixelOperand [h, we, pe, m])) := by
  have hnone : pixelPayload h we pe m = none := if_neg (by omega)
  rw [pixelFrames, if_neg ha.not_gt, encodeOperands_ok (by decide) hlo, hnone]
  rfl

theorem pixelFrames_widePayload (ha : 0 ≤ addr) (hlo : 0 ≤ lo ∧ lo ≤ 0xFF) (hn : 0 ≤ h ∧ 0 ≤ we ∧ 0 ≤ pe ∧ 0 ≤ m)
    (hp : 255 < pixelSum h.toNat we.toNat pe.toNat m.toNat) : pixelFrames addr h lo we pe m =
      ([pixelAddressFrame addr, payloadFrame 0x21 lo],
        some (.operandRange 0 0x22 (pixelSum h.toNat we.toNat pe.toNat m.toNat))) := by
  rw [pixelFrames, if_neg ha.not_gt, encodeOperands_ok (by decide) hlo, pixelPayload_nat _ _ _ _ hn]
  dsimp only
  rw [encodeOperands_badPayload (.inr (by omega))]
  rfl

theorem pixelFrames_inRange (ha : 0 ≤ addr) (hlo : 0 ≤ lo ∧ lo ≤ 0xFF) (hn : 0 ≤ h ∧ 0 ≤ we ∧ 0 ≤ pe ∧ 0 ≤ m)
    (hp : pixelSum h.toNat we.toNat pe.toNat m.toNat < 256) : pixelFrames addr h lo we pe m =
      ([pixelAddressFrame addr, payloadFrame 0x21 lo,
        payloadFrame 0x22 (pixelSum h.toNat we.toNat pe.toNat m.toNat)], none) := by
  rw [pixelFrames, if_neg ha.not_gt, encodeOperands_ok (by decide) hlo, pixelPayload_nat _ _ _ _ hn]
  dsimp only
  rw [encodeOperands_ok (by decide) (by omega)]
  rfl

/-! ### The transactions (R58, R192, R207) -/

/-- The registers of the writes of the transactions `ws`, in order (R171). -/
def framesRegs (ws : List Frame) : List Reg := ws.flatMap fun _ => transmitRegs

/-- The shadow after the transactions `ws` (R43, R171). -/
def Shadow.sent (ws : List Frame) (x : Shadow) : Shadow := ws.foldl (fun y w => y.transmitted w) x

/-- The write events of the transactions `ws`, each from the shadow that the one before it left (R171). -/
def framesEvents (ws : List Frame) (x : Shadow) : List BusEvent :=
  (ws.foldl (fun (p : List BusEvent × Shadow) w => (p.1 ++ transmitEvents w p.2, p.2.transmitted w)) ([], x)).1

theorem transmitEvents_length (w : Slot) (x : Shadow) : (transmitEvents w x).length = 10 := rfl

theorem sendFrames_append (ws ws' : List Frame) (s : State) :
    sendFrames (ws ++ ws') s = (sendFrames ws s).andThen fun _ t => sendFrames ws' t := by
  induction ws generalizing s with
  | nil => rfl
  | cons w ws ih =>
    rw [List.cons_append, sendFrames, sendFrames]
    cases transmitCalls w s with
    | done v t => exact ih t
    | failed e t => rfl

/-- Transactions of which one fails at its k-th write: those before it are sent, and none follows (R192, R204). -/
theorem sendFrames_fails {w : Frame} {rest : List Frame} {k : Nat} {r : Reg} (hk : transmitRegs[k]? = some r)
    (hl : s.LinkCarries (framesRegs ws ++ transmitRegs.take k))
    (hf : r ∉ s.registerMap ∨ s.linkOk = some (10 * ws.length + k)) :
    ∃ t, sendFrames (ws ++ w :: rest) s = .failed (.transport r) t ∧
      t.shadow = (s.shadow.sent ws).cutOff w k ∧
      t.trace = s.trace ++ framesEvents ws s.shadow ++ cutOffEvents w k r (s.shadow.sent ws) ∧
      t.results = s.results ∧ t.opIndex = s.opIndex := by
  obtain ⟨u, hu, hshadow, hresults, hindex, hmap, hlink, htrace⟩ := sendFrames_core ws s hl.mono
  have hlen : (framesRegs ws).length = 10 * ws.length := by simp [framesRegs, transmitRegs, dataRegs, Nat.mul_comm]
  have hcarries : u.LinkCarries (transmitRegs.take k) := hl.rest hmap (hlen ▸ hlink)
  have hfails : r ∉ u.registerMap ∨ u.linkOk = some k := by
    rw [hmap, hlink]
    exact hf.imp_right fun e => by rw [e, linkAfter_some, Nat.add_sub_cancel_left]
  obtain ⟨t, ht, gshadow, gtrace, gresults, gindex⟩ := transmitCalls_fails (w := w) hk hcarries hfails
  refine ⟨t, ?_, gshadow.trans (congrArg _ hshadow), ?_, gresults.trans hresults, gindex.trans hindex⟩
  · rw [sendFrames_append, hu, Call.andThen, sendFrames, ht]
    rfl
  · rw [gtrace, htrace, hshadow]
    rfl

/-! ### CFGPIXEL -/

theorem exec_cfgPixel_sent (hp : pixelFrames addr h lo we pe m = (ws, none)) (hl : s.LinkCarries (framesRegs ws)) :
    ∃ t, exec (.cfgPixel addr h lo we pe m) s = .next t ∧ t.shadow = s.shadow.sent ws ∧
      t.trace = s.trace ++ framesEvents ws s.shadow ∧ t.results = s.results ++ [.ok .unit] ∧
      t.opIndex = s.opIndex + 1 := by
  obtain ⟨u, hu, hshadow, hresults, hindex, _, _, htrace⟩ := sendFrames_core ws s hl
  refine ⟨u.answer (.ok .unit), ?_, hshadow, htrace, congrArg (· ++ [_]) hresults, congrArg (· + 1) hindex⟩
  rw [exec, execCfgPixel, hp]
  dsimp only
  rw [hu]
  rfl

/-- The refusal shows the writes of the transactions before it (R207; log 15). -/
theorem exec_cfgPixel_refused {stop : RefusalAt} (hp : pixelFrames addr h lo we pe m = (ws, some stop))
    (hl : s.LinkCarries (framesRegs ws)) : exec (.cfgPixel addr h lo we pe m) s =
      .refused (stop (s.trace ++ framesEvents ws s.shadow)) := by
  obtain ⟨u, hu, _, _, _, _, _, htrace⟩ := sendFrames_core ws s hl
  rw [exec, execCfgPixel, hp]
  dsimp only
  rw [hu, refusedAfter, htrace]
  rfl

/-- A CFGPIXEL cut off in the transaction of `w`, after those of `ws` (R192, R204). -/
theorem exec_cfgPixel_fails {w : Frame} {rest : List Frame} {k : Nat} {r : Reg}
    (hp : (pixelFrames addr h lo we pe m).1 = ws ++ w :: rest) (hk : transmitRegs[k]? = some r)
    (hl : s.LinkCarries (framesRegs ws ++ transmitRegs.take k))
    (hf : r ∉ s.registerMap ∨ s.linkOk = some (10 * ws.length + k)) :
    ∃ t, exec (.cfgPixel addr h lo we pe m) s = .next t ∧ t.shadow = (s.shadow.sent ws).cutOff w k ∧
      t.trace = s.trace ++ framesEvents ws s.shadow ++ cutOffEvents w k r (s.shadow.sent ws) ∧
      t.results = s.results ++ [.err (.transport r)] ∧ t.opIndex = s.opIndex + 1 := by
  obtain ⟨u, hu, hshadow, htrace, hresults, hindex⟩ := sendFrames_fails (w := w) (rest := rest) hk hl hf
  exact ⟨_, execCfgPixel_failed (by rw [hp, hu]), hshadow, htrace, congrArg (· ++ [_]) hresults,
    congrArg (· + 1) hindex⟩

/-- Settles O38: the operands give three frames and no refusal, and the link carries their thirty writes. -/
theorem cfgPixelSendsThreeFrames : Obligations.CfgPixelSendsThreeFrames := by
  intro addr h we pe m lo s hp hl
  have hlo : (0 : Int) ≤ lo.toNat ∧ (lo.toNat : Int) ≤ 0xFF := by have := lo.isLt; omega
  have hframes := pixelFrames_inRange (addr := addr) (h := h) (we := we) (pe := pe) (m := m) (by omega) hlo
    (by omega) hp
  obtain ⟨t, hexec, hshadow, htrace, hresults, hindex⟩ := exec_cfgPixel_sent hframes hl
  have hfirst := pixelAddressFrame_toNat (addr := addr) (by omega)
  have hsecond := payloadFrame_toNat (a := 0x21) (by decide) hlo
  have hthird := payloadFrame_toNat (a := 0x22) (p := (pixelSum h we pe m : Nat)) (by decide) (by omega)
  refine ⟨t, pixelAddressFrame addr, payloadFrame 0x21 lo.toNat, payloadFrame 0x22 (pixelSum h we pe m : Nat), hexec,
    by omega, by omega, by omega, ?_, ?_, hshadow, hresults, hindex⟩
  · simpa [framesEvents] using htrace
  · simp [htrace, framesEvents, transmitEvents_length]

/-- Settles O39: the operands decide which frames stand before the refusal, and the link carries their writes. -/
theorem cfgPixelRefusalsComeAfterTheirWrites : Obligations.CfgPixelRefusalsComeAfterTheirWrites := by
  intro addr h lo we pe m s
  refine ⟨fun ha => ?_, fun ha hlo hl => ⟨_, pixelAddressFrame_toNat ha, ?_⟩, fun ha hlo hl =>
    ⟨_, _, pixelAddressFrame_toNat ha, payloadFrame_toNat (a := 0x21) (by decide) hlo, fun hn hp => ?_,
      fun hn => ?_⟩⟩
  · rw [exec, execCfgPixel, pixelFrames_negativeAddress ha]
    rfl
  · exact exec_cfgPixel_refused (pixelFrames_badLow ha hlo) hl
  · rw [List.append_assoc]
    exact exec_cfgPixel_refused (pixelFrames_widePayload ha hlo hn hp) hl
  · rw [List.append_assoc]
    exact exec_cfgPixel_refused (pixelFrames_negativePayload ha hlo hn) hl

/-- Settles O59: the first frames are those of the operands in range so far, whatever ends CFGPIXEL after them, and the
failing call ends it before that. -/
theorem cfgPixelFailureIsPrecise : Obligations.CfgPixelFailureIsPrecise := by
  intro addr h lo we pe m k r s hk ha
  have hfirst := pixelAddressFrame_toNat ha
  refine ⟨fun hl hf => ?_, fun hlo hl hf => ?_, fun hlo hn hp hl hf => ?_⟩
  · obtain ⟨rest, hframes⟩ := pixelFrames_first h lo we pe m ha
    obtain ⟨t, hexec, hshadow, htrace, hends⟩ :=
      exec_cfgPixel_fails (ws := []) (w := pixelAddressFrame addr) hframes hk hl (by simpa using hf)
    exact ⟨t, _, hexec, hfirst, hshadow, by simpa [framesEvents, Shadow.sent] using htrace, hends⟩
  · have hsecond := payloadFrame_toNat (a := 0x21) (by decide) hlo
    obtain ⟨rest, hframes⟩ := pixelFrames_second h we pe m ha hlo
    obtain ⟨t, hexec, hshadow, htrace, hends⟩ :=
      exec_cfgPixel_fails (ws := [pixelAddressFrame addr]) (w := payloadFrame 0x21 lo) hframes hk hl (.inr hf)
    exact ⟨t, _, _, hexec, hfirst, hsecond, hshadow, htrace, hends⟩
  · have hsecond := payloadFrame_toNat (a := 0x21) (by decide) hlo
    have hthird := payloadFrame_toNat (a := 0x22) (p := (pixelSum h.toNat we.toNat pe.toNat m.toNat : Nat))
      (by decide) (by omega)
    obtain ⟨t, hexec, hshadow, htrace, hends⟩ :=
      exec_cfgPixel_fails (ws := [pixelAddressFrame addr, payloadFrame 0x21 lo]) (rest := [])
        (w := payloadFrame 0x22 (pixelSum h.toNat we.toNat pe.toNat m.toNat : Nat)) (pixelFrames_third ha hlo hn hp)
        hk hl (.inr hf)
    exact ⟨t, _, _, _, hexec, hfirst, hsecond, by omega, hshadow,
      by simpa [framesEvents, Shadow.sent] using htrace, hends⟩

end Sys2Proof.Machine
end

section
/-! How an executed instruction reports to the host (R40, R201 to R207): a RangeError before any effect, a
TransportError at the failing call, or no error at all; and which operands are refused instead (R200, R205). -/

namespace Sys2Proof.Machine

open Sys2Proof

variable {s t : State} {i : Instr} {W : RegWrite → Prop}

/-! ### The errors of an operation (R201 to R207) -/

/-- Events of calls that completed: none is X (R47 to R50). -/
def NoneFailed (es : List BusEvent) : Prop := ∀ e ∈ es, ∀ r, e ≠ .failed r

theorem NoneFailed.of_eventOf {es : List BusEvent} (h : ∀ e ∈ es, EventOf W e) : NoneFailed es := by
  intro e he r
  rcases h e he with ⟨w, _, rfl⟩ | ⟨v, rfl, _⟩ <;> exact BusEvent.noConfusion

/-- How an instruction reports: each error of R201 with what the operation has done by then, or no error. -/
inductive Reports (s t : State) : Prop
  | range (c : RangeCheck) (n : Int) (h : t = s.ended (.err (.range c n)))
  | transport (es : List BusEvent) (r : Reg) (hes : NoneFailed es) (htrace : t.trace = s.trace ++ es ++ [.failed r])
      (hresults : t.results = s.results ++ [.err (.transport r)])
  | noError (es : List BusEvent) (hes : NoneFailed es) (htrace : t.trace = s.trace ++ es)
      (hresults : ∀ e, t.results ≠ s.results ++ [.err e])

/-- Calls report the first failing one, and it is the last (R204). -/
theorem Call.Within.reports {α : Type} {c : Call α} (h : Call.Within W s c) (f : α → Value) :
    Reports s (c.toHost f) := by
  cases c with
  | done v u =>
    obtain ⟨hu, es, htrace, hes⟩ := h
    exact .noError es (.of_eventOf hes) htrace fun e => by simp [Call.toHost, returnOk, hu.results]
  | failed e u =>
    obtain ⟨hu, es, r, rfl, htrace, hes⟩ := h
    exact .transport es r (.of_eventOf hes) htrace (congrArg (· ++ [_]) hu.results)

theorem exec_reports (h : exec i s = .next t) : Reports s t := by
  have hnone : NoneFailed [] := nofun
  cases exec_ended h with
  | range c n ht => exact .range c n ht
  | call c f ht hc => exact ht ▸ hc.reports f
  | plain v x ht => exact .noError [] hnone (by simp [ht, returnOk]) fun e => by simp [ht, returnOk]
  | poll c v u hc hu ht =>
    subst hu ht
    obtain ⟨hu, es, htrace, hes⟩ := hc
    exact .noError es (.of_eventOf hes) htrace fun e => by simp [hu.results]
  | delivered w _ ht =>
    have hkept := s.hwWrite_coreKept w
    exact .noError [] hnone (by simp [ht, hkept.trace]) fun e => by simp [ht, hkept.results]

/-- Settles O48: of the reports only that of a rejected operand is a RangeError, and there the operation has done
nothing else. -/
theorem rangeErrorsHaveNoEffect : Obligations.RangeErrorsHaveNoEffect := by
  intro i s t c n h hr
  cases exec_reports h with
  | range c' n' ht =>
    have hsame : c' = c ∧ n' = n := by simpa [ht, State.ended] using hr
    obtain ⟨rfl, rfl⟩ := hsame
    exact ht
  | transport es r _ _ hresults => simp [hresults] at hr
  | noError es _ _ hresults => exact absurd hr (hresults _)

/-- Settles O49: no report is a TypeError. -/
theorem typeErrorIsNeverRaised : Obligations.TypeErrorIsNeverRaised := by
  intro i s t h
  cases exec_reports h with
  | range c n ht => simp [ht, State.ended]
  | transport es r _ _ hresults => simp [hresults]
  | noError es _ _ hresults => exact hresults _

/-- Settles O50: only the report of a failing call has an X event, its last, and only it is a TransportError. -/
theorem transportErrorsArePrecise : Obligations.TransportErrorsArePrecise := by
  intro i s t h
  cases exec_reports h with
  | range c n ht => exact ⟨[], nofun, .inl (by simp [ht, State.ended])⟩
  | transport es r hes htrace hresults => exact ⟨es, hes, .inr ⟨r, htrace, hresults⟩⟩
  | noError es hes htrace hresults => exact ⟨es, hes, .inl ⟨htrace, fun r => hresults _⟩⟩

/-! ### Refusals (R200, R205) -/

/-- An operand of ENCODE or CFGPIXEL is out of range (R170, R190, R191). -/
def Instr.OperandOutOfRange (i : Instr) : Prop :=
  (∃ d a p, i = .encodeFrame d a p ∧ ¬((d = 0 ∨ d = 1) ∧ (0 ≤ a ∧ a ≤ 0x7F) ∧ (0 ≤ p ∧ p ≤ 0xFF))) ∨
  (∃ addr h lo we pe m, i = .cfgPixel addr h lo we pe m ∧
    (addr < 0 ∨ lo < 0 ∨ 0xFF < lo ∨ h < 0 ∨ we < 0 ∨ pe < 0 ∨ m < 0 ∨
      255 < pixelSum h.toNat we.toNat pe.toNat m.toNat))

/-- CFGPIXEL on operands in range sends its three frames and answers, whatever the link does (R190, R192). -/
theorem exec_cfgPixel_inRange {addr h lo we pe m : Int} (ha : 0 ≤ addr) (hlo : 0 ≤ lo ∧ lo ≤ 0xFF)
    (hn : 0 ≤ h ∧ 0 ≤ we ∧ 0 ≤ pe ∧ 0 ≤ m) (hp : pixelSum h.toNat we.toNat pe.toNat m.toNat < 256) (s : State) :
    ∃ t, exec (.cfgPixel addr h lo we pe m) s = .next t := by
  rw [exec, execCfgPixel, pixelFrames_inRange ha hlo hn hp]
  exact ⟨_, rfl⟩

theorem exec_refused_outOfRange {r : Refusal} (hr : exec i s = .refused r) : Instr.OperandOutOfRange i := by
  cases i with
  | encodeFrame d a p =>
    refine .inl ⟨d, a, p, rfl, fun hin => ?_⟩
    rw [exec_encodeFrame_ok (encodeInRange_iff.mpr hin)] at hr
    cases hr
  | cfgPixel addr h lo we pe m =>
    refine .inr ⟨addr, h, lo, we, pe, m, rfl, ?_⟩
    by_contra hin
    obtain ⟨t, ht⟩ := exec_cfgPixel_inRange (addr := addr) (h := h) (lo := lo) (we := we) (pe := pe) (m := m)
      (by omega) (by omega) (by omega) (by omega) s
    rw [ht] at hr
    cases hr
  | _ => cases hr

/-- Settles O53: there is no fault (R200), and a refusal shows an operand out of range. -/
theorem onlyOperandRangeIsRefused : Obligations.OnlyOperandRangeIsRefused := by
  intro i s
  cases h : exec i s with
  | next t => exact .inl ⟨t, rfl⟩
  | fault r => exact r.casesOn
  | refused r => exact .inr ⟨r, rfl, exec_refused_outOfRange h⟩

end Sys2Proof.Machine
end

section
/-! The state that reset leaves (R22, R230), and what ends a transfer (R148, R242). -/

namespace Sys2Proof.Machine

/-- Settles O1: the control word is the packing of the initial fields, and nothing has been observed yet. -/
theorem resetLeavesInitialShadow : Obligations.ResetLeavesInitialShadow :=
  ⟨rfl, rfl, rfl, rfl, rfl, rfl, rfl, by decide, rfl, rfl, rfl, rfl, rfl, rfl⟩

/-- Settles O52: only a write of 1 to RESET leaves an aborted record, and only RESET may make it. -/
theorem onlyResetAborts : Obligations.OnlyResetAborts := by
  intro i s t h hi
  obtain ⟨u, hu, _, hclose⟩ := exec_within h
  obtain ⟨ws, hwire, hcompleted⟩ := hu.wire
  exact ⟨ws, hclose.wire.trans hwire, hcompleted fun hallowed => hi hallowed.reset⟩

end Sys2Proof.Machine
end

section
/-! The hazards of TRANSMIT (R172): with goBusy = 1 its pre-start write is itself a go write
(R235), and while a transfer outlasts them its ten writes are all overlaps (R236). -/

namespace Sys2Proof.Machine

open Sys2Proof

variable {s : State} {snap : Snap}

/-- START while a transfer outlasts its write: an overlap (R145). -/
theorem startCalls_outlasted (hb : s.hw.engine = .busy snap) (h0 : 0 < s.ticksLeft) (hl : s.LinkUp .ctrl) :
    ∃ t c, startCalls s = .done () t ∧ (c = s.hw.ctrl ∨ c = ({ s.shadow with goBusy := true } : Shadow).ctrlWord) ∧
      t.hw = { s.hw with ctrl := c, engine := .busy snap.spoiled, overlap := true } ∧ t.wire = s.wire := by
  obtain ⟨t, c, ht, hc, hhw, hwire, _⟩ := ctrl_overlap (t := s.setShadow { s.shadow with goBusy := true })
    ({ s.shadow with goBusy := true } : Shadow).ctrlWord hb h0 hl
  exact ⟨t, c, ht, hc, hhw, hwire⟩

/-- START with a transfer in flight: an overlap, or the transfer has completed and another one starts (R144, R145). -/
theorem startCalls_busy (hb : s.hw.engine = .busy snap) (hl : s.LinkUp .ctrl) : ∃ t, startCalls s = .done () t ∧
    (t.hw.engine = .busy snap.spoiled ∧ t.hw.overlap = true ∧ t.wire = s.wire ∨
     t.hw.engine = .busy (s.hw.snapOf s.shadow) ∧ t.hw.overlap = s.hw.overlap ∧
       t.wire = s.wire ++ [snap.completedRecord]) := by
  rcases Nat.eq_zero_or_pos s.ticksLeft with hdue | hlater
  · have htick := State.tick_of_due hb hdue
    obtain ⟨t, ht, hhw, hwire⟩ := startCalls_tick_idle (by rw [htick]; rfl) hl
    refine ⟨t, ht, .inr ?_⟩
    rw [hhw, hwire, htick]
    exact ⟨rfl, rfl, rfl⟩
  · obtain ⟨t, c, ht, _, hhw, hwire⟩ := startCalls_outlasted hb hlater hl
    exact ⟨t, ht, .inl ⟨by rw [hhw], by rw [hhw], hwire⟩⟩

/-- A write of a control word with goBusy = 1 on an Idle engine is a go write, also before START (R144, R235). -/
theorem memWrite_ctrlWord_starts (x : Shadow) (hg : x.goBusy = true) (hi : s.hw.engine = .idle) (hl : s.LinkUp .ctrl) :
    ∃ u, memWrite (.ctrl x.ctrlWord) s = .done () u ∧
      u.hw = { s.hw with ctrl := x.ctrlWord, engine := .busy (s.hw.snapOf x) } ∧ u.wire = s.wire ∧
      u.shadow = s.shadow ∧ u.registerMap = s.registerMap ∧ u.linkOk = linkAfter 1 s.linkOk := by
  obtain ⟨hshadow, hhw, hwire, _, _, _, hmap, _⟩ := State.sameBut_iff.mp (hwWrite_ctrlWord_starts x hg hi)
  refine ⟨_, memWrite_carried hl, ?_⟩
  rw [State.tick_of_idle hi]
  exact ⟨hhw, hwire, hshadow, hmap, congrArg (linkAfter 1) (s.hwWrite_coreKept (.ctrl x.ctrlWord)).linkOk⟩

/-- The calls of a later TRANSMIT on an Idle engine: the pre-start write starts a transfer of the stored bank, and START's
write meets it in flight or completed (R235). -/
theorem transmitCalls_later (w : Slot) (hg : s.shadow.goBusy = true) (hi : s.tick.hw.engine = .idle)
    (hl : s.LinkCarries transmitRegs) : ∃ t snap, transmitCalls w s = .done () t ∧
      snap = { s.tick.hw.snapOf s.shadow with data := s.shadow.bank.set 0 w } ∧
      (t.hw.engine = .busy snap.spoiled ∧ t.hw.overlap = true ∧ t.wire = s.tick.wire ∨
       t.hw.engine = .busy snap ∧ t.hw.overlap = s.hw.overlap ∧ t.wire = s.tick.wire ++ [snap.completedRecord]) := by
  have hbank : s.LinkCarries dataRegs := State.LinkCarries.mono (rs' := [.ctrl, .ctrl]) hl
  obtain ⟨v, hv, hshadow, _, _, _, hmap, _, hlink⟩ := memWrites_carried (bankWrites (s.shadow.bank.set 0 w))
    (s.setShadow { s.shadow with bank := s.shadow.bank.set 0 w }) hbank
  obtain ⟨hhw, hwire⟩ := memWrites_bank_idle_stored hi hbank hv
  have hrest : v.LinkCarries [.ctrl, .ctrl] := State.LinkCarries.rest (rs := dataRegs) hl hmap hlink
  obtain ⟨u, hu, huhw, huwire, hushadow, humap, hulink⟩ :=
    memWrite_ctrlWord_starts s.shadow hg (by rw [hhw]; exact hi) hrest.head
  obtain ⟨t, ht, hmeets⟩ := startCalls_busy (by rw [huhw]) (hrest.tail humap hulink).head
  rw [huwire, hwire, huhw, hushadow, hshadow, hhw] at hmeets
  refine ⟨t, _, ?_, rfl, s.tick_overlap ▸ hmeets⟩
  rw [transmit_split, hv]
  simp only [Call.andThen, memWrites, hu, ht]

/-- Settles O34: the pre-start write starts the transfer that START's write overlaps or repeats. -/
theorem laterTransmitOverlapsOrRepeats : Obligations.LaterTransmitOverlapsOrRepeats := by
  intro w s hg hi hl
  obtain ⟨t, snap, ht, hsnap, hmeets⟩ := transmitCalls_later w hg hi hl
  exact ⟨t.answer (.ok .unit), snap, by rw [execTransmit_toNat, ht]; rfl, hsnap, hmeets⟩

/-- A TRANSMIT while a transfer outlasts its ten writes: all of them are overlaps (R145, R236). -/
theorem transmitCalls_outlasted (w : Slot) (hb : s.hw.engine = .busy snap) (h10 : 10 ≤ s.ticksLeft)
    (hl : s.LinkCarries transmitRegs) : ∃ t c data, transmitCalls w s = .done () t ∧
      t.hw = { s.hw with ctrl := c, data := data, engine := .busy snap.spoiled, overlap := true } ∧
      t.wire = s.wire ∧
      (c = s.hw.ctrl ∨ c = s.shadow.ctrlWord ∨ c = ({ s.shadow with goBusy := true } : Shadow).ctrlWord) ∧
      ∀ j : Fin 8, data[j] = s.hw.data[j] ∨ data[j] = (s.shadow.bank.set 0 w)[j] := by
  obtain ⟨v, data, hv, hshadow, _, _, _, hmap, _, hlink, hdata, houtlasts, _⟩ :=
    memWrites_bank_busy (s.shadow.bank.set 0 w) (s.setShadow { s.shadow with bank := s.shadow.bank.set 0 w }) snap hb
      (Nat.lt_of_lt_of_le (by decide) h10) (State.LinkCarries.mono (rs' := [.ctrl, .ctrl]) hl)
  obtain ⟨hhw, hwire, hticks⟩ := houtlasts (Nat.le_trans (by decide) h10)
  replace hticks : v.ticksLeft = s.ticksLeft - 8 := hticks
  have hrest : v.LinkCarries [.ctrl, .ctrl] := State.LinkCarries.rest (rs := dataRegs) hl hmap hlink
  obtain ⟨u, c, hu, hc, huhw, huwire, huticks, hushadow, humap, hulink⟩ :=
    ctrl_overlap s.shadow.ctrlWord (sn := snap.spoiled) (by rw [hhw]) (by omega) hrest.head
  obtain ⟨t, c', ht, hc', hthw, htwire⟩ :=
    startCalls_outlasted (snap := snap.spoiled) (by rw [huhw]; rfl) (by omega) (hrest.tail humap hulink).head
  refine ⟨t, c', data, ?_, ?_, htwire.trans (huwire.trans hwire), ?_, fun j => (hdata j).symm.imp_left And.right⟩
  · rw [transmit_split, hv]
    simp only [Call.andThen, memWrites, hu, ht]
  · rw [hthw, huhw, hhw]
    rfl
  · rw [hhw] at hc
    rw [huhw, hushadow, hshadow] at hc'
    rcases hc' with rfl | rfl
    · exact hc.imp_right .inl
    · exact .inr (.inr rfl)

/-- Settles O35: ten overlaps spoil one transfer and start none. -/
theorem backToBackTransmitSpoilsTransfer : Obligations.BackToBackTransmitSpoilsTransfer := by
  intro w s snap hb h10 hl
  obtain ⟨u, hu, hexec, hsame⟩ := exec_transmit_carried w hl
  obtain ⟨t, c, data, ht, hhw, hwire, hc, hdata⟩ := transmitCalls_outlasted w hb h10 hl
  obtain ⟨_, rfl⟩ := Call.done.inj (hu.symm.trans ht)
  rw [hhw, hwire] at hsame
  exact ⟨_, c, data, hexec, hsame, hc, hdata⟩

end Sys2Proof.Machine
end
